-- ==== Sys2Proof/Word.lean ====
section
/-! DEFINITION. The widths of this hardware (spec/00_scope.md R7, R8): every bus word and register has 32 bits, a BITBUF
entry 1 bit, an SMP entry 16 bits (SAMPLE_W of R6), a TXT_OUT entry 7 bits. Bit 0 is the least significant bit. -/

namespace Sys2Proof

/-- A bus word, a register, a TXT_IN entry (R7). -/
abbrev Word := BitVec 32

/-- A BITBUF entry (R40). -/
abbrev Bit := BitVec 1

/-- An SMP entry, a two's-complement integer of SAMPLE_W = 16 bits (R6, R41). -/
abbrev Sample := BitVec 16

/-- A TXT_OUT entry, an ordinal 0 to 127 (R42). -/
abbrev Ordinal := BitVec 7

end Sys2Proof
end

