-- ==== Sys2Proof/Config.lean ====
section
/-! DEFINITION. What an instance of the block fixes (spec/00_scope.md R5, R6) and the one free value of the spec
(spec/10_state.md R43): the capacities as plain data, the numerics record NUM, and the contents of buffer entries that
nothing has written since reset. -/

namespace Sys2Proof.Config

/-- The three capacity parameters of R5, numbers of entries. The spec leaves them open between 1 and 2^28, so a Block
carries them as data that no step changes, and a statement holds for every instance (log entry 5). -/
structure Instance where
  textCap : Nat
  bitCap  : Nat
  sampCap : Nat
deriving DecidableEq, Repr

/-- R5: "Each is an integer with 1 <= value <= 2^28." -/
abbrev Instance.Legal (c : Instance) : Prop :=
  (1 ≤ c.textCap ∧ c.textCap ≤ 2 ^ 28) ∧ (1 ≤ c.bitCap ∧ c.bitCap ≤ 2 ^ 28) ∧ (1 ≤ c.sampCap ∧ c.sampCap ≤ 2 ^ 28)

/-- R5's recommended instance ("not normative"); State.reset carries it. DESIGN CHOICE, log entry 5. -/
def recommended : Instance := { textCap := 64, bitCap := 576, sampCap := 589824 }

/-- The numerics record NUM of R6, less SAMPLE_W, which is the type `Sample`: the peak amplitude AMP, the quantised sine
`sinq p m` of spec/41_synth.md R116, and `peakBin x` of spec/42_classifier.md R136 on a window of signed samples. -/
structure Num where
  amp     : Nat
  sinq    : Nat → Nat → Int
  peakBin : List Int → Nat

/-- AMP of R6. -/
def amp : Nat := 32767

/-- FREE VALUE (R43, spec/93_implementation_defined.md I1; log entry 3). The word that entry `index` of buffer space
`space` holds after reset number `epoch` until something writes it; a buffer narrower than a word takes its low bits.
It has no body: nothing can be proved of its value. -/
opaque unwritten (epoch space index : Nat) : Word

end Sys2Proof.Config
end

