-- ==== Sys2Proof/Syntax.lean ====
section
/-! DEFINITION. What the host can issue: the nine commands, the two bus transactions, and the raw requests on the bus
(spec/30_encoding.md R80 to R84, spec/20_memory.md R61 to R64, spec/10_state.md R20). -/

namespace Sys2Proof

/-- The 17 registers of space 0, in the order of their addresses 0x00 to 0x10 (R20). -/
inductive Reg where
  | id | ctrl | cmd | status | errinfo | baudC | markC | spaceC | fsC | spb
  | txtLen | bitLen | smpLen | outLen | capText | capBit | capSamp
deriving DecidableEq, Repr

/-- The nine legal command words of R84, by name. -/
inductive Command where
  | nop | frm | syn | enc | cls | dfr | dec | clr | rst
deriving DecidableEq, Repr

/-- One constructor per row of spec/opcode_table.json: the nine commands (each the WR of its word to CMD), and the bus
transactions RD and WR with their operand fields. -/
inductive Instr where
  | nop                        -- R171
  | frm                        -- R100
  | syn                        -- R118
  | enc                        -- R120
  | cls                        -- R142
  | dfr                        -- R154
  | dec                        -- R157
  | clr                        -- R172
  | rst                        -- R173
  | rd (addr : Word)           -- R63
  | wr (addr data : Word)      -- R64
deriving DecidableEq, Repr

/-- The instruction of the opcode table that a command name stands for. -/
def Command.instr : Command → Instr
  | .nop => .nop
  | .frm => .frm
  | .syn => .syn
  | .enc => .enc
  | .cls => .cls
  | .dfr => .dfr
  | .dec => .dec
  | .clr => .clr
  | .rst => .rst

/-- A request as it stands on the bus, undecoded: the two fixed-length formats of R80. Bit 32 of a BUS-RD and bit 64 of a
BUS-WR is the field rw. -/
inductive Request where
  | busRd (bits : BitVec 33)
  | busWr (bits : BitVec 65)
deriving DecidableEq, Repr

/-- What the outside can do to the block (R13, R220): issue one bus request, or pulse the hardware reset input
(log entry 12). -/
inductive HostEvent where
  | bus (r : Request)
  | hardwareReset
deriving DecidableEq, Repr

/-- The response on the bus (R63, R64). -/
inductive Resp where
  | ok | err
deriving DecidableEq, Repr

/-- What one transaction returns to the host: R63's pair for a read, R64's response for a write. -/
inductive Reply where
  | read (r : Resp) (data : Word)
  | write (r : Resp)
deriving DecidableEq, Repr

end Sys2Proof
end

