-- ==== Sys2Proof/Decode.lean ====
section
/-! DEFINITION. Decoding a bus request and encoding an instruction (spec/30_encoding.md R80 to R85). The decoder is total:
every request of either format is an instruction or is rejected by name. -/

namespace Sys2Proof

/-- The word address of register CMD (R20, R84). -/
def cmdAddr : Word := 0x00000002#32

/-- R84: the command word of each command. -/
def Command.word : Command → Word
  | .nop => 0x00000000#32
  | .frm => 0x00000001#32
  | .syn => 0x00000002#32
  | .enc => 0x00000003#32
  | .cls => 0x00000004#32
  | .dfr => 0x00000008#32
  | .dec => 0x0000000C#32
  | .clr => 0x00000010#32
  | .rst => 0x00000020#32

/-- The commands of R84 in the table's order. -/
def allCommands : List Command := [.nop, .frm, .syn, .enc, .cls, .dfr, .dec, .clr, .rst]

/-- Why a request is no transaction of R80. -/
inductive DecodeError where
  /-- a 33-bit request whose rw bit says write -/
  | readFormatSaysWrite
  /-- a 65-bit request whose rw bit says read -/
  | writeFormatSaysRead
deriving DecidableEq, Repr

/-- What the decoder answers. -/
inductive Decoded where
  | instr (i : Instr)
  | rejected (e : DecodeError)
deriving DecidableEq, Repr

/-- R84: the command a word encodes; all 32 bits are compared. -/
def commandOf (w : Word) : Option Command := allCommands.find? fun c => c.word == w

/-- A write transaction: a legal command word written to CMD is that command (R84), any other write is WR. -/
def decodeWrite (addr data : Word) : Instr :=
  if addr = cmdAddr then
    match commandOf data with
    | some c => c.instr
    | none => .wr addr data
  else .wr addr data

/-- R80: BUS-RD is rw = 0, addr[31:0]; BUS-WR is rw = 1, addr[31:0], data[31:0]. -/
def decode : Request → Decoded
  | .busRd bits =>
    if bits.getLsbD 32 then .rejected .readFormatSaysWrite
    else .instr (.rd (bits.extractLsb' 0 32))
  | .busWr bits =>
    if bits.getLsbD 64 then .instr (decodeWrite (bits.extractLsb' 32 32) (bits.extractLsb' 0 32))
    else .rejected .writeFormatSaysRead

/-- The BUS-WR request of a write (R80). -/
def writeRequest (addr data : Word) : Request := .busWr (1#1 ++ addr ++ data)

/-- The BUS-RD request of a read (R80). -/
def readRequest (addr : Word) : Request := .busRd (0#1 ++ addr)

/-- The request that carries an instruction: a command is the write of its word to CMD (R84). -/
def encode : Instr → Request
  | .nop => writeRequest cmdAddr Command.nop.word
  | .frm => writeRequest cmdAddr Command.frm.word
  | .syn => writeRequest cmdAddr Command.syn.word
  | .enc => writeRequest cmdAddr Command.enc.word
  | .cls => writeRequest cmdAddr Command.cls.word
  | .dfr => writeRequest cmdAddr Command.dfr.word
  | .dec => writeRequest cmdAddr Command.dec.word
  | .clr => writeRequest cmdAddr Command.clr.word
  | .rst => writeRequest cmdAddr Command.rst.word
  | .rd addr => readRequest addr
  | .wr addr data => writeRequest addr data

/-- The request that a word of spec/opcode_table.json stands for (log entry 7). The table has three formats: CMD, 32 bits,
the data word of a WR to CMD; BUS-RD, 33 bits; BUS-WR, 65 bits. `nbits` may be rounded up to whole bytes; bits above the
format's own make no request. -/
def tableRequest (nbits w : Nat) : Option Request :=
  if nbits ≤ 32 then
    if w < 2 ^ 32 then some (writeRequest cmdAddr (BitVec.ofNat 32 w)) else none
  else if nbits ≤ 64 then
    if w < 2 ^ 33 then some (.busRd (BitVec.ofNat 33 w)) else none
  else
    if w < 2 ^ 65 then some (.busWr (BitVec.ofNat 65 w)) else none

/-- The instruction the decoder reads from a word of spec/opcode_table.json. -/
def decodeTableWord (nbits w : Nat) : Option Instr :=
  match tableRequest nbits w with
  | some r =>
    match decode r with
    | .instr i => some i
    | .rejected _ => none
  | none => none

end Sys2Proof
end

