-- ==== Sys2Proof/Machine/State.lean ====
section
/-! DEFINITION. The state (spec/00_scope.md R14, spec/10_state.md): the block's registers and buffers, and the host side of
the bus, the events the host has still to issue and the replies it has received. All of it is plain data. -/

namespace Sys2Proof.Machine

/-- Nothing the block does stops it: "Nothing hangs: every command terminates" (R16), and "No sequence of transactions is
forbidden; every sequence has a defined result, up to the unspecified values of `10_state.md` rule R43" (R235). So this
machine has no fault and the type has no constructor. -/
inductive Fault where
deriving DecidableEq, Repr

/-- Why a step gives no next state. -/
inductive Refusal where
  /-- Raised by exec's arms for an instruction that has no meaning yet; no arm is left. Safe. -/
  | notModelled (mnemonic : String)
  /-- Raised by step, when the next request is neither format of R80: its rw bit contradicts its length. The spec gives
  such a request no meaning. Safe: no transaction of R80 is refused (log entry 13). -/
  | malformedRequest
deriving DecidableEq, Repr

/-- A buffer's written entries, as pairs of index and element, indices strictly rising. An index that is not listed has no
value of its own and reads as the free value of R43 (log entries 3 and 11). -/
abbrev Buffer (w : Nat) := List (Nat × BitVec w)

/-- The block (R14). Not state, and so not here: ID, CMD, SPB (R20, R23, R32); they are computed when read. -/
structure Block where
  /-- the capacities of this instance (R5); read by CAP_TEXT, CAP_BIT, CAP_SAMP, written by nothing -/
  inst    : Config.Instance
  ctrl    : Word          -- R22
  status  : Word          -- R24
  errinfo : Word          -- R27
  baudC   : Word          -- R28
  markC   : Word          -- R29
  spaceC  : Word          -- R30
  fsC     : Word          -- R31
  txtLen  : Word          -- R33
  bitLen  : Word          -- R33
  smpLen  : Word          -- R33
  outLen  : Word          -- R34
  txtIn   : Buffer 32     -- R39
  bitBuf  : Buffer 1      -- R40
  smp     : Buffer 16     -- R41
  txtOut  : Buffer 7      -- R42
  /-- the model's own: how many resets have been, so that every reset draws new free values (R43, log entry 4) -/
  epoch   : Nat
deriving DecidableEq, Repr

/-- The whole system (R13): the block, what the host has still to issue, oldest first, and what it has been answered,
newest first (log entries 1 and 8). -/
structure State where
  block   : Block
  pending : List HostEvent
  replies : List Reply
deriving DecidableEq, Repr

/-- R45: the registers after a reset; every buffer entry is unwritten. -/
def Block.afterReset (inst : Config.Instance) (epoch : Nat) : Block :=
  { inst    := inst
    ctrl    := 0#32
    status  := 0#32
    errinfo := 0#32
    baudC   := 4545#32
    markC   := 212500#32
    spaceC  := 229500#32
    fsC     := 4410000#32
    txtLen  := 0#32
    bitLen  := 0#32
    smpLen  := 0#32
    outLen  := 0#32
    txtIn   := []
    bitBuf  := []
    smp     := []
    txtOut  := []
    epoch   := epoch }

/-- The machine right after the hardware reset (R220), the host having issued nothing. -/
def State.reset : State :=
  { block := Block.afterReset Config.recommended 0, pending := [], replies := [] }

end Sys2Proof.Machine
end

