-- ==== Sys2Proof/Machine/Flags.lean ====
section
/-! DEFINITION. The fields of STATUS (spec/10_state.md R24 to R26) and the conditions that set its flags. -/

namespace Sys2Proof.Machine

/-- The error codes of spec/60_exceptions.md R191. -/
inductive ErrorCode where
  | encoding | misalign | framing | config | capacity | illcmd
deriving DecidableEq, Repr

/-- The value of STATUS.ECODE for each error (R191). -/
def ErrorCode.ecode : ErrorCode → Word
  | .encoding => 1#32
  | .misalign => 2#32
  | .framing  => 3#32
  | .config   => 4#32
  | .capacity => 5#32
  | .illcmd   => 6#32

/-- STATUS bit 0. -/
def maskDone : Word := 0x00000001#32
/-- STATUS bit 1. -/
def maskErr : Word := 0x00000002#32
/-- STATUS bits 7:4. -/
def maskEcode : Word := 0x000000F0#32
/-- STATUS bit 8. -/
def maskTrailSmp : Word := 0x00000100#32
/-- STATUS bit 9. -/
def maskTrailBit : Word := 0x00000200#32
/-- STATUS bit 10. -/
def maskStart : Word := 0x00000400#32
/-- STATUS bit 11. -/
def maskStop : Word := 0x00000800#32
/-- STATUS bit 12. -/
def maskAmbig : Word := 0x00001000#32

/-- STATUS.ERR. -/
def Block.err (b : Block) : Bool := b.status.getLsbD 1

/-- STATUS.ECODE. -/
def Block.ecode (b : Block) : BitVec 4 := b.status.extractLsb' 4 4

/-- CTRL.STRICT (R22). -/
def Block.strict (b : Block) : Bool := b.ctrl.getLsbD 0

/-- STATUS with ERR set and ECODE replaced (R199). -/
def statusWithError (status : Word) (c : ErrorCode) : Word :=
  (status &&& ~~~maskEcode) ||| maskErr ||| (c.ecode <<< 4)

/-- Set one flag of STATUS if its condition holds; a flag is never cleared by the stage that sets it (R142, R154). -/
def Block.raiseFlag (b : Block) (mask : Word) (cond : Bool) : Block :=
  { b with status := if cond then b.status ||| mask else b.status }

/-- A window is ambiguous iff all its samples are 0 (spec/42_classifier.md R140). -/
def ambiguous (x : List Int) : Bool := x.all fun v => v == 0

/-- A group whose bit at position 0 is not the start bit 0 (spec/43_frame_decoder.md R152). -/
def badStart (g : List Bit) : Bool := g.getD 0 0#1 != 0#1

/-- A group whose bit at position 8 is not the stop bit 1 (R152). -/
def badStop (g : List Bit) : Bool := g.getD 8 0#1 != 1#1

/-- The BITBUF index FRAMING reports: "min over those of {9*sb, 9*pb + 8} that exist" (R154). -/
def firstFramingFault : Option Nat → Option Nat → Option Nat
  | none, none => none
  | some sb, none => some (9 * sb)
  | none, some pb => some (9 * pb + 8)
  | some sb, some pb => some (min (9 * sb) (9 * pb + 8))

end Sys2Proof.Machine
end

