-- ==== Sys2Proof/Machine/Ops.lean ====
section
/-! DEFINITION. The named operations: reading and writing buffer entries, ending a stage with an error (the whole of
"trap entry" on this hardware, spec/60_exceptions.md R199) and leaving one (R201), running stages, reset, and the reply of
a transaction. -/

namespace Sys2Proof.Machine

/-! ### Buffers (spec/10_state.md R39 to R46) -/

/-- The value listed for index i, if something has written the entry. -/
def Memory.read? {w : Nat} (m : Buffer w) (i : Nat) : Option (BitVec w) := m.lookup i

/-- One entry as it reads: the value last written, else the free value (R43). -/
def Memory.read {w : Nat} (free : Nat → BitVec w) (m : Buffer w) (i : Nat) : BitVec w :=
  (Memory.read? m i).getD (free i)

/-- Write one entry, keeping the indices rising. -/
def Memory.write {w : Nat} : Buffer w → Nat → BitVec w → Buffer w
  | [], i, v => [(i, v)]
  | (k, u) :: m, i, v =>
    if i < k then (i, v) :: (k, u) :: m
    else if i = k then (i, v) :: m
    else (k, u) :: Memory.write m i v

/-- The pairs (i, v0), (i + 1, v1), ... of consecutive entries. -/
def Memory.entriesFrom {w : Nat} : Nat → List (BitVec w) → Buffer w
  | _, [] => []
  | i, v :: vs => (i, v) :: Memory.entriesFrom (i + 1) vs

/-- What a successful command does to its output buffer: entries 0 to LEN' - 1 are written, entries at index >= LEN' stay
as they are (R46). -/
def Memory.writeFirst {w : Nat} (m : Buffer w) (vs : List (BitVec w)) : Buffer w :=
  Memory.entriesFrom 0 vs ++ m.filter fun c => decide (vs.length ≤ c.1)

/-- The canonical form: indices strictly rising. An unlisted entry has no value of its own, so no listed value can equal
it and nothing more is asked. -/
abbrev Memory.wf {w : Nat} (m : Buffer w) : Prop := m.Pairwise fun a b => a.1 < b.1

/-- The free value of an unwritten entry, cut to the entry's width (R43). The spaces are numbered as in R60. -/
def freeEntry (w epoch space i : Nat) : BitVec w := (Config.unwritten epoch space i).setWidth w

/-- TXT_IN[i] (R39). -/
def Block.txtInAt (b : Block) (i : Nat) : Word := Memory.read (freeEntry 32 b.epoch 1) b.txtIn i

/-- BITBUF[i] (R40). -/
def Block.bitAt (b : Block) (i : Nat) : Bit := Memory.read (freeEntry 1 b.epoch 2) b.bitBuf i

/-- SMP[i] (R41). -/
def Block.smpAt (b : Block) (i : Nat) : Sample := Memory.read (freeEntry 16 b.epoch 3) b.smp i

/-- TXT_OUT[i] (R42). -/
def Block.txtOutAt (b : Block) (i : Nat) : Ordinal := Memory.read (freeEntry 7 b.epoch 4) b.txtOut i

/-- Write a whole bit stream and BIT_LEN: the output of FRM and CLS. -/
def Block.storeBits (b : Block) (bits : List Bit) : Block :=
  { b with bitBuf := Memory.writeFirst b.bitBuf bits, bitLen := BitVec.ofNat 32 bits.length }

/-- Write a whole sample sequence and SMP_LEN: the output of SYN. -/
def Block.storeSamples (b : Block) (samples : List Sample) : Block :=
  { b with smp := Memory.writeFirst b.smp samples, smpLen := BitVec.ofNat 32 samples.length }

/-- Write a whole text and OUT_LEN: the output of DFR. -/
def Block.storeText (b : Block) (text : List Ordinal) : Block :=
  { b with txtOut := Memory.writeFirst b.txtOut text, outLen := BitVec.ofNat 32 text.length }

/-! ### Errors: entry and return (spec/60_exceptions.md R199, R201) -/

/-- `fail(code, info)` of R199: STATUS.ERR <- 1, STATUS.ECODE <- code, ERRINFO <- info mod 2^32. Nothing is saved and
control goes nowhere; a stage that fails answers this block, and `runStages` runs no later stage. -/
def Block.fail (b : Block) (c : ErrorCode) (info : Nat) : Block :=
  { b with status := statusWithError b.status c, errinfo := BitVec.ofNat 32 info }

/-- STATUS <- 0, ERRINFO <- 0: how an error is left (R201), by every command but NOP before it runs (R170). -/
def Block.clearStatus (b : Block) : Block := { b with status := 0#32, errinfo := 0#32 }

/-- STATUS.DONE <- 1 (R170). -/
def Block.setDone (b : Block) : Block := { b with status := b.status ||| maskDone }

/-! ### Commands (spec/44_control.md R170) -/

/-- R170 `run`: the stages in order; a stage that ends with STATUS.ERR = 1 is the last. -/
def runStages : List (Block → Block) → Block → Block
  | [], b => b
  | stage :: rest, b =>
    let b' := stage b
    if b'.err then b' else runStages rest b'

/-- R170 for a command of one or two stages: clear, run, set DONE. -/
def runCommandStages (stages : List (Block → Block)) (b : Block) : Block :=
  (runStages stages b.clearStatus).setDone

/-- R45, R173, R220: reset, by the RST command or by the reset input. The capacities are parameters and stay; the entries
of every buffer become unspecified, that is, unwritten with new free values (log entry 4). -/
def Block.reset (b : Block) : Block := Block.afterReset b.inst (b.epoch + 1)

/-! ### The host side of a transaction (spec/00_scope.md R13, R18) -/

/-- A transaction is complete: the block is b and the host has its reply. -/
def State.complete (s : State) (b : Block) (r : Reply) : State :=
  { s with block := b, replies := r :: s.replies }

end Sys2Proof.Machine
end

