-- ==== Sys2Proof/Machine/Operands.lean ====
section
/-! DEFINITION. The implicit operands of the commands (spec/20_memory.md R75): samples per bit, the text, the bit stream and
the sample windows, the character frame, the tone of a bit, one sample of a tone, and the decision on a peak bin. -/

namespace Sys2Proof.Machine

/-! ### Sample-rate arithmetic (spec/41_synth.md R111) -/

/-- `rhe(a / b)` of R10 in the integer form of R111: to nearest, ties to even. -/
def roundHalfEven (a b : Nat) : Nat :=
  if 2 * (a % b) < b then a / b
  else if b < 2 * (a % b) then a / b + 1
  else if a / b % 2 = 0 then a / b
  else a / b + 1

/-- SPB (R32, R111): 0 if BAUD_C = 0, else the rounded quotient. -/
def samplesPerBit (fs baud : Nat) : Nat := if baud = 0 then 0 else roundHalfEven fs baud

/-- SPB of the block's configuration now. -/
def Block.spb (b : Block) : Nat := samplesPerBit b.fsC.toNat b.baudC.toNat

/-! ### Input buffers (R46): no command reads an entry at index >= LEN -/

/-- TXT_IN[0 .. n - 1]. -/
def Block.text (b : Block) (n : Nat) : List Word := (List.range n).map b.txtInAt

/-- BITBUF[0 .. n - 1]. -/
def Block.bits (b : Block) (n : Nat) : List Bit := (List.range n).map b.bitAt

/-- Window w of n samples: SMP[w * n .. w * n + n - 1], as signed integers (spec/42_classifier.md R131). -/
def Block.window (b : Block) (n w : Nat) : List Int := (List.range n).map fun j => (b.smpAt (w * n + j)).toInt

/-- The first `count` windows (R131). -/
def Block.windows (b : Block) (n count : Nat) : List (List Int) := (List.range count).map (b.window n)

/-- Group g: BITBUF[9g .. 9g + 8] (spec/43_frame_decoder.md R151). -/
def Block.group (b : Block) (g : Nat) : List Bit := (List.range 9).map fun j => b.bitAt (9 * g + j)

/-- The first `count` groups (R151). -/
def Block.groups (b : Block) (count : Nat) : List (List Bit) := (List.range count).map b.group

/-! ### The character frame (spec/30_encoding.md R86 to R88) -/

/-- R87: `[0, c[6], c[5], c[4], c[3], c[2], c[1], c[0], 1]`. -/
def frame (c : Word) : List Bit :=
  [0#1, BitVec.ofBool (c.getLsbD 6), BitVec.ofBool (c.getLsbD 5), BitVec.ofBool (c.getLsbD 4), BitVec.ofBool (c.getLsbD 3),
    BitVec.ofBool (c.getLsbD 2), BitVec.ofBool (c.getLsbD 1), BitVec.ofBool (c.getLsbD 0), 1#1]

/-- R88: `sum over j = 0..6 of g[1 + j] * 2^(6 - j)`; g[0] and g[8] do not enter. -/
def unframe (g : List Bit) : Ordinal :=
  BitVec.ofNat 7 (((List.range 7).map fun j => (g.getD (1 + j) 0#1).toNat * 2 ^ (6 - j)).sum)

/-! ### Tones (spec/30_encoding.md R89, spec/41_synth.md R113 to R115) -/

/-- R115: the frequency register of a bit. -/
def Block.tone (b : Block) (bit : Bit) : Nat := if bit = 1#1 then b.markC.toNat else b.spaceC.toNat

/-- R113: the phase numerator of sample n of a tone, `(F * n) mod FS_C`. -/
def phase (f fs n : Nat) : Nat := f * n % fs

/-- Sample n of a tone as a 16-bit word (R116, R118). -/
def toneSample (nm : Config.Num) (f fs n : Nat) : Sample := BitVec.ofInt 16 (nm.sinq (phase f fs n) fs)

/-- The segment of one bit: n samples from phase 0 (R110, R118). -/
def Block.segment (nm : Config.Num) (b : Block) (n : Nat) (bit : Bit) : List Sample :=
  (List.range n).map (toneSample nm (b.tone bit) b.fsC.toNat)

/-! ### The decision (spec/42_classifier.md R138, R139) -/

/-- R139: bit = 1 iff `|k * FS_C - N * MARK_C| < |k * FS_C - N * SPACE_C|`. -/
def nearerMark (k n fs mark space : Nat) : Bool :=
  decide (((k * fs : Nat) - (n * mark : Nat) : Int).natAbs < ((k * fs : Nat) - (n * space : Nat) : Int).natAbs)

/-- The bit of a window of n samples (R136, R139). -/
def Block.classify (nm : Config.Num) (b : Block) (n : Nat) (x : List Int) : Bit :=
  BitVec.ofBool (nearerMark (nm.peakBin x) n b.fsC.toNat b.markC.toNat b.spaceC.toNat)

end Sys2Proof.Machine
end

