-- ==== Sys2Proof/Machine/Sine.lean ====
section
/-! DEFINITION. The quantised sine SINQ (spec/41_synth.md R116) in integer arithmetic. `sinFixed bits p m` is the sine of
p / m turns in fixed point, within 2 units of 2^-bits; SINQ rounds it, doubling the precision until both ends of the
interval round to the same integer. The one case no precision decides, a sine of exactly 1/2, is found exactly (R117
S-tie). Log entry 9. -/

namespace Sys2Proof.Machine

/-! ### Fixed-point pi and sine -/

/-- The alternating tail `p/(2i+1) - p/(q^2 (2i+3)) + ...` of the arctangent series, p being 2^w / q^(2i+1). -/
def arctanTail (q : Nat) : Nat → Nat → Nat → Nat
  | 0, _, _ => 0
  | fuel + 1, i, p => if p = 0 then 0 else p / (2 * i + 1) - arctanTail q fuel (i + 1) (p / (q * q))

/-- 2^w * arctan(1/q), from below and above within w units. -/
def arctanInv (w q : Nat) : Nat := arctanTail q w 0 (2 ^ w / q)

/-- 2^w * pi/2 by Machin's formula, pi/4 = 4 arctan(1/5) - arctan(1/239). -/
def halfPi (w : Nat) : Nat := 2 * (4 * arctanInv w 5 - arctanInv w 239)

/-- The alternating tail `t - t x^2/((2i+2)(2i+3)) + ...` of the sine series, t being the term of degree 2i + 1 and xx the
square of the argument, all scaled by 2^w. -/
def sineTail (w xx : Nat) : Nat → Nat → Nat → Nat
  | 0, _, _ => 0
  | fuel + 1, i, t =>
    if t = 0 then 0 else t - sineTail w xx fuel (i + 1) (t * xx / 2 ^ w / ((2 * i + 2) * (2 * i + 3)))

/-- The working precision for a result of `bits` bits. -/
def guardBits (bits : Nat) : Nat := 2 * bits + 64

/-- 2^bits * sin(pi/2 * a/m) for 0 <= a <= m. -/
def sineQuarter (bits a m : Nat) : Nat :=
  let w := guardBits bits
  let x := halfPi w * a / m
  sineTail w (x * x / 2 ^ w) w 0 x / 2 ^ (w - bits)

/-! ### Reduction to a quarter turn -/

/-- The quadrant, 0 to 3, of p / m turns. -/
def quadrant (p m : Nat) : Nat := 4 * (p % m) / m

/-- The argument within the first quarter turn, in units of 1/(4m) turns, that has the same sine up to sign. -/
def quarterArg (p m : Nat) : Nat := if quadrant p m % 2 = 1 then m - 4 * (p % m) % m else 4 * (p % m) % m

/-- Give a magnitude the sign of the sine at p / m turns. -/
def withSineSign (p m v : Nat) : Int := if 2 ≤ quadrant p m then -(v : Int) else (v : Int)

/-- 2^bits * sin(2 pi p/m). -/
def sinFixed (bits p m : Nat) : Int := withSineSign p m (sineQuarter bits (quarterArg p m) m)

/-- 2^bits * cos(2 pi p/m), the sine a quarter turn later. -/
def cosFixed (bits p m : Nat) : Int := sinFixed bits (4 * p + m) (4 * m)

/-! ### SINQ -/

/-- Half of the width of the interval that `sinFixed` and `cosFixed` answer the middle of. -/
def sineError : Nat := 2

/-- floor(y + 1/2) for y = v / 2^(bits). -/
def roundScaled (bits v : Nat) : Nat := (2 * v + 2 ^ bits) / 2 ^ (bits + 1)

/-- The magnitude |x| of R116 rounded, if this precision decides it: both ends of the interval round alike. -/
def sinqDecided (amp bits a m : Nat) : Option Nat :=
  let s := sineQuarter bits a m
  let lo := roundScaled bits (amp * (s - sineError))
  let hi := roundScaled bits (amp * (s + sineError))
  if lo = hi then some lo else none

/-- Double the precision until it decides. -/
def sinqSearch (amp a m : Nat) : Nat → Nat → Option Nat
  | 0, _ => none
  | fuel + 1, bits =>
    match sinqDecided amp bits a m with
    | some v => some v
    | none => sinqSearch amp a m fuel (2 * bits)

/-- The first precision tried, and how often it may be doubled: up to 2^45 bits. No m below 2^32 needs as much, since
2 sin(2 pi p/m) is an algebraic integer of degree at most 2m, so that 2 |x| keeps a distance of at least 2^(-36 m) from
every odd integer it does not equal (log entry 9). -/
def firstBits : Nat := 64
def precisionFuel : Nat := 40

/-- The magnitude of SINQ for the reduced argument a, 0 <= a <= m. At a/m = 1/3 the sine is exactly 1/2 and |x| = AMP/2,
whose half goes away from zero (R116, S-tie). The last alternative is the nearest integer at the first precision and is
never taken for m < 2^32 (log entry 9). -/
def sinqMagnitude (amp a m : Nat) : Nat :=
  if 3 * a = m then (amp + 1) / 2
  else (sinqSearch amp a m precisionFuel firstBits).getD (roundScaled firstBits (amp * sineQuarter firstBits a m))

/-- SINQ(p, m) of R116 with peak amplitude amp. -/
def sinqOf (amp p m : Nat) : Int := withSineSign p m (sinqMagnitude amp (quarterArg p m) m)

end Sys2Proof.Machine
end

