-- ==== Sys2Proof/Machine/Dft.lean ====
section
/-! DEFINITION. PEAKBIN (spec/42_classifier.md R134 to R136) in integer arithmetic: the powers of the bins are bracketed in
fixed point; the bins whose bracket reaches the best lower end are the candidates; they are the maximum if all of them have
exactly the same power, which is decided in the integers, and otherwise the precision is doubled. Log entry 10. -/

namespace Sys2Proof.Machine

/-! ### Brackets of the powers -/

/-- `sum over n of x[n] * table[(k * n) mod N]`, the list being x from index n on. -/
def correlateFrom (table : Array Int) (k size : Nat) : Nat → List Int → Int
  | _, [] => 0
  | n, v :: vs => v * table.getD (k * n % size) 0 + correlateFrom table k size (n + 1) vs

/-- The sum of the magnitudes of a window. -/
def magnitudeSum (x : List Int) : Nat := (x.map Int.natAbs).sum

/-- Bounds on P[k] of R134, scaled by 4^bits. The two sums are within sineError * (sum of |x[n]|) of C[k] and S[k]. -/
structure Bracket where
  bin : Nat
  lo  : Nat
  hi  : Nat
deriving DecidableEq, Repr

/-- The bracket of C^2 + S^2 when |C| is within e of c and |S| within e of s. -/
def bracketOf (bin e c s : Nat) : Bracket :=
  { bin := bin, lo := (c - e) ^ 2 + (s - e) ^ 2, hi := (c + e) ^ 2 + (s + e) ^ 2 }

/-- The table of 2^bits * cos(2 pi i/size). -/
def cosTable (bits size : Nat) : Array Int := ((List.range size).map fun i => cosFixed bits i size).toArray

/-- The table of 2^bits * sin(2 pi i/size). -/
def sinTable (bits size : Nat) : Array Int := ((List.range size).map fun i => sinFixed bits i size).toArray

/-- The brackets of all bins 0 .. N div 2 (R135). -/
def powerBrackets (bits : Nat) (x : List Int) : List Bracket :=
  let size := x.length
  let cosines := cosTable bits size
  let sines := sinTable bits size
  let e := sineError * magnitudeSum x
  (List.range (size / 2 + 1)).map fun k =>
    bracketOf k e (correlateFrom cosines k size 0 x).natAbs (correlateFrom sines k size 0 x).natAbs

/-- The bins that may hold the maximum, in rising order. -/
def candidates (bs : List Bracket) : List Nat :=
  let best := (bs.map Bracket.lo).foldl max 0
  (bs.filter fun b => decide (best ≤ b.hi)).map Bracket.bin

/-! ### Exact ties

With r the cyclic autocorrelation of x, P[k] = sum over d of r[d] * zeta^(k d), zeta a primitive N-th root of unity. So
P[j] - P[k] is the value at zeta of an integer polynomial of degree below N, taken mod z^N - 1. Multiplying it by
z^(N/d) - 1 for every divisor d >= 2 of N kills the N-th roots that are not primitive and no primitive one; the value at
zeta is 0 iff the product is 0 as a polynomial mod z^N - 1. -/

/-- x[0] * y[0] + x[1] * y[1] + ... -/
def dot : List Int → List Int → Int
  | x :: xs, y :: ys => x * y + dot xs ys
  | _, _ => 0

/-- r[d] = sum over n of x[n] * x[(n + d) mod N], for d = 0 .. N - 1. -/
def autocorrelation (x : List Int) : List Int := (List.range x.length).map fun d => dot x (x.rotate d)

/-- Coefficient e of `sum over d of r[d] * (z^(j d) - z^(k d))` mod z^N - 1, the list being r from index d on. -/
def differenceCoeff (size j k e : Nat) : Nat → List Int → Int
  | _, [] => 0
  | d, v :: vs =>
    (if j * d % size = e then v else 0) - (if k * d % size = e then v else 0) + differenceCoeff size j k e (d + 1) vs

/-- The coefficients of P[j] - P[k]. -/
def differencePoly (r : List Int) (j k : Nat) : List Int :=
  (List.range r.length).map fun e => differenceCoeff r.length j k e 0 r

/-- f * (z^s - 1) mod z^N - 1, for s <= N. -/
def timesShiftMinusOne (s : Nat) (f : List Int) : List Int := List.zipWith (· - ·) (f.rotate (f.length - s)) f

/-- The divisors d >= 2 of n. -/
def properDivisors (n : Nat) : List Nat := (List.range (n + 1)).filter fun d => decide (2 ≤ d) && n % d == 0

/-- Does the polynomial vanish at a primitive N-th root of unity, N its length? -/
def vanishesAtPrimitiveRoot (f : List Int) : Bool :=
  ((properDivisors f.length).foldl (fun g d => timesShiftMinusOne (f.length / d) g) f).all fun v => v == 0

/-- P[j] = P[k] exactly, for bins of the window whose autocorrelation is r. -/
def samePower (r : List Int) (j k : Nat) : Bool := vanishesAtPrimitiveRoot (differencePoly r j k)

/-! ### PEAKBIN -/

/-- The peak bin, if the candidates at this precision are one bin or exactly tied; the lowest index wins (R136). -/
def peakDecided (x : List Int) (bits : Nat) : Option Nat :=
  match candidates (powerBrackets bits x) with
  | [] => none
  | [k] => some k
  | k :: rest =>
    let r := autocorrelation x
    if rest.all (samePower r k) then some k else none

/-- Double the precision until it decides. -/
def peakSearch (x : List Int) : Nat → Nat → Option Nat
  | 0, _ => none
  | fuel + 1, bits =>
    match peakDecided x bits with
    | some k => some k
    | none => peakSearch x fuel (2 * bits)

/-- PEAKBIN(x) of R136. An all-zero window has every power 0 and peak bin 0 (R137 P-zero). The default is never taken for
windows of 16-bit samples of length up to 2^28 (log entry 10). -/
def peakBinOf (x : List Int) : Nat :=
  if ambiguous x then 0 else (peakSearch x precisionFuel firstBits).getD 0

end Sys2Proof.Machine
end

