-- ==== Sys2Proof/Machine/Numerics.lean ====
section
/-! DEFINITION. The spec's instance of the numerics record NUM (spec/00_scope.md R6): AMP = 32767, SINQ rounded to nearest
with ties away from zero, PEAKBIN the exact argmax with ties to the lowest bin. -/

namespace Sys2Proof.Machine

/-- The spec's instance of NUM (R6, log entry 15). -/
def num : Config.Num := { amp := Config.amp, sinq := sinqOf Config.amp, peakBin := peakBinOf }

end Sys2Proof.Machine
end

