-- ==== Sys2Proof/Machine/Framer.lean ====
section
/-! DEFINITION. The frame serializer: FRM (spec/40_framer.md R100). -/

namespace Sys2Proof.Machine

/-- Stage FRM (R100). -/
def frmStage (b : Block) : Block :=
  let len := b.txtLen.toNat
  if b.inst.textCap < len then b.fail .capacity 1
  else if b.inst.bitCap < 9 * len then b.fail .capacity 2
  else
    let text := b.text len
    match text.findIdx? fun c => decide (127 < c.toNat) with
    | some bad => b.fail .encoding bad
    | none => b.storeBits (text.flatMap frame)

/-- FRM: text to bit stream (R100, R170). -/
def execFrm (s : State) : Host.Outcome State Fault Refusal :=
  .next (s.complete (runCommandStages [frmStage] s.block) (.write .ok))

end Sys2Proof.Machine
end

