-- ==== Sys2Proof/Machine/Synth.lean ====
section
/-! DEFINITION. The tone synthesizer: SYN and ENC (spec/41_synth.md R118, R120). -/

namespace Sys2Proof.Machine

/-- Stage SYN (R118). -/
def synStage (nm : Config.Num) (b : Block) : Block :=
  let n := b.spb
  let len := b.bitLen.toNat
  if n = 0 then b.fail .config 0
  else if b.inst.bitCap < len then b.fail .capacity 2
  else if b.inst.sampCap < len * n then b.fail .capacity 3
  else b.storeSamples ((b.bits len).flatMap (b.segment nm n))

/-- SYN: bit stream to sample buffer (R118, R170). -/
def execSyn (s : State) : Host.Outcome State Fault Refusal :=
  .next (s.complete (runCommandStages [synStage num] s.block) (.write .ok))

/-- ENC: FRM, then SYN if FRM did not fail (R120, R170). -/
def execEnc (s : State) : Host.Outcome State Fault Refusal :=
  .next (s.complete (runCommandStages [frmStage, synStage num] s.block) (.write .ok))

end Sys2Proof.Machine
end

