-- ==== Sys2Proof/Machine/Classifier.lean ====
section
/-! DEFINITION. The windowed frequency classifier: CLS (spec/42_classifier.md R142). -/

namespace Sys2Proof.Machine

/-- Stage CLS (R142). -/
def clsStage (nm : Config.Num) (b : Block) : Block :=
  let n := b.spb
  let len := b.smpLen.toNat
  if n = 0 then b.fail .config 0
  else if b.inst.sampCap < len then b.fail .capacity 3
  else if b.inst.bitCap < len / n then b.fail .capacity 2
  else
    let windows := b.windows n (len / n)
    let firstAmbiguous := windows.findIdx? ambiguous
    let flagged := (b.raiseFlag maskTrailSmp (len % n != 0)).raiseFlag maskAmbig firstAmbiguous.isSome
    match b.strict, firstAmbiguous with
    | true, some w => flagged.fail .misalign w
    | _, _ => flagged.storeBits (windows.map (b.classify nm n))

/-- CLS: sample buffer to decoded bits (R142, R170). -/
def execCls (s : State) : Host.Outcome State Fault Refusal :=
  .next (s.complete (runCommandStages [clsStage num] s.block) (.write .ok))

end Sys2Proof.Machine
end

