-- ==== Sys2Proof/Machine/FrameDecoder.lean ====
section
/-! DEFINITION. The bit-frame decoder: DFR and DEC (spec/43_frame_decoder.md R154, R157). -/

namespace Sys2Proof.Machine

/-- Stage DFR (R154). -/
def dfrStage (b : Block) : Block :=
  let len := b.bitLen.toNat
  if b.inst.bitCap < len then b.fail .capacity 2
  else if b.inst.textCap < len / 9 then b.fail .capacity 1
  else
    let groups := b.groups (len / 9)
    let sb := groups.findIdx? badStart
    let pb := groups.findIdx? badStop
    let flagged :=
      ((b.raiseFlag maskTrailBit (len % 9 != 0)).raiseFlag maskStart sb.isSome).raiseFlag maskStop pb.isSome
    if b.strict && len % 9 != 0 then flagged.fail .misalign (9 * (len / 9))
    else
      match b.strict, firstFramingFault sb pb with
      | true, some at0 => flagged.fail .framing at0
      | _, _ => flagged.storeText (groups.map unframe)

/-- DFR: decoded bits to text (R154, R170). -/
def execDfr (s : State) : Host.Outcome State Fault Refusal :=
  .next (s.complete (runCommandStages [dfrStage] s.block) (.write .ok))

/-- DEC: CLS, then DFR if CLS did not fail (R157, R170). -/
def execDec (s : State) : Host.Outcome State Fault Refusal :=
  .next (s.complete (runCommandStages [clsStage num, dfrStage] s.block) (.write .ok))

end Sys2Proof.Machine
end

