-- ==== Sys2Proof/Machine/Control.lean ====
section
/-! DEFINITION. The control commands NOP, CLR and RST, and the dispatch of a word written to CMD
(spec/44_control.md R170 to R173, spec/60_exceptions.md R197). -/

namespace Sys2Proof.Machine

/-- NOP: no state change at all; STATUS and ERRINFO are kept (R171). The write of 0 to CMD is answered OK. -/
def execNop (s : State) : Host.Outcome State Fault Refusal := .next (s.complete s.block (.write .ok))

/-- CLR: STATUS <- 0, ERRINFO <- 0; DONE reads 0 afterwards (R172). -/
def execClr (s : State) : Host.Outcome State Fault Refusal := .next (s.complete s.block.clearStatus (.write .ok))

/-- RST: the block's state becomes the reset state (R173). -/
def execRst (s : State) : Host.Outcome State Fault Refusal := .next (s.complete s.block.reset (.write .ok))

/-- A write of word w to CMD (R170): the nine commands, and ILLCMD with ERRINFO = w for every other word (R85, R197). -/
def writeCmd (b : Block) (w : Word) : Block :=
  match commandOf w with
  | some .nop => b
  | some .clr => b.clearStatus
  | some .rst => b.reset
  | some .frm => runCommandStages [frmStage] b
  | some .syn => runCommandStages [synStage num] b
  | some .enc => runCommandStages [frmStage, synStage num] b
  | some .cls => runCommandStages [clsStage num] b
  | some .dfr => runCommandStages [dfrStage] b
  | some .dec => runCommandStages [clsStage num, dfrStage] b
  | none => (b.clearStatus.fail .illcmd w.toNat).setDone

end Sys2Proof.Machine
end

