-- ==== Sys2Proof/Machine/Bus.lean ====
section
/-! DEFINITION. The bus transactions RD and WR: the address map, register access and buffer access
(spec/20_memory.md R61 to R67, spec/10_state.md R20 to R36). -/

namespace Sys2Proof.Machine

/-- The register at an index of space 0 (R20); indices above 0x10 hold none (R36). -/
def regAt : Nat → Option Reg
  | 0x00 => some .id
  | 0x01 => some .ctrl
  | 0x02 => some .cmd
  | 0x03 => some .status
  | 0x04 => some .errinfo
  | 0x05 => some .baudC
  | 0x06 => some .markC
  | 0x07 => some .spaceC
  | 0x08 => some .fsC
  | 0x09 => some .spb
  | 0x0A => some .txtLen
  | 0x0B => some .bitLen
  | 0x0C => some .smpLen
  | 0x0D => some .outLen
  | 0x0E => some .capText
  | 0x0F => some .capBit
  | 0x10 => some .capSamp
  | _ => none

/-- What a bus address names (R62). -/
inductive Place where
  | reg (r : Reg)
  | txtIn (i : Nat)
  | bitBuf (i : Nat)
  | smp (i : Nat)
  | txtOut (i : Nat)
  | unmapped
deriving DecidableEq, Repr

/-- addr[31:28] (R61). -/
def addrSpace (addr : Word) : Nat := (addr.extractLsb' 28 4).toNat

/-- addr[27:0] (R61). -/
def addrIndex (addr : Word) : Nat := (addr.extractLsb' 0 28).toNat

/-- The address map of R62 for this instance's capacities; anything not listed is unmapped (R67). -/
def placeOf (inst : Config.Instance) (addr : Word) : Place :=
  let i := addrIndex addr
  match addrSpace addr with
  | 0 => match regAt i with
    | some r => .reg r
    | none => .unmapped
  | 1 => if i < inst.textCap then .txtIn i else .unmapped
  | 2 => if i < inst.bitCap then .bitBuf i else .unmapped
  | 3 => if i < inst.sampCap then .smp i else .unmapped
  | 4 => if i < inst.textCap then .txtOut i else .unmapped
  | _ => .unmapped

/-- Reading a register (R20 to R35). ID, CMD, SPB and the capacities are no state: constants and functions of it. -/
def readReg (b : Block) : Reg → Word
  | .id      => 0x46534B39#32
  | .ctrl    => b.ctrl
  | .cmd     => 0#32
  | .status  => b.status
  | .errinfo => b.errinfo
  | .baudC   => b.baudC
  | .markC   => b.markC
  | .spaceC  => b.spaceC
  | .fsC     => b.fsC
  | .spb     => BitVec.ofNat 32 b.spb
  | .txtLen  => b.txtLen
  | .bitLen  => b.bitLen
  | .smpLen  => b.smpLen
  | .outLen  => b.outLen
  | .capText => BitVec.ofNat 32 b.inst.textCap
  | .capBit  => BitVec.ofNat 32 b.inst.bitCap
  | .capSamp => BitVec.ofNat 32 b.inst.sampCap

/-- Writing a register (R64, R176): CTRL keeps bit 0, CMD runs the command, the configuration and length registers keep
the word, a read-only register ignores it. -/
def writeReg (b : Block) (d : Word) : Reg → Block
  | .ctrl    => { b with ctrl := (d.extractLsb' 0 1).setWidth 32 }
  | .cmd     => writeCmd b d
  | .baudC   => { b with baudC := d }
  | .markC   => { b with markC := d }
  | .spaceC  => { b with spaceC := d }
  | .fsC     => { b with fsC := d }
  | .txtLen  => { b with txtLen := d }
  | .bitLen  => { b with bitLen := d }
  | .smpLen  => { b with smpLen := d }
  | .id      => b
  | .status  => b
  | .errinfo => b
  | .spb     => b
  | .outLen  => b
  | .capText => b
  | .capBit  => b
  | .capSamp => b

/-- The reply to a read (R63, R65): a narrower entry is zero-extended, a sample sign-extended. -/
def readPlace (b : Block) : Place → Reply
  | .reg r    => .read .ok (readReg b r)
  | .txtIn i  => .read .ok (b.txtInAt i)
  | .bitBuf i => .read .ok ((b.bitAt i).setWidth 32)
  | .smp i    => .read .ok ((b.smpAt i).signExtend 32)
  | .txtOut i => .read .ok ((b.txtOutAt i).setWidth 32)
  | .unmapped => .read .err 0#32

/-- The block after a write (R64, R66): an entry keeps as many low bits as it is wide, TXT_OUT ignores the write, an
unmapped address changes nothing. -/
def writePlace (b : Block) (d : Word) : Place → Block
  | .reg r    => writeReg b d r
  | .txtIn i  => { b with txtIn := Memory.write b.txtIn i d }
  | .bitBuf i => { b with bitBuf := Memory.write b.bitBuf i (d.extractLsb' 0 1) }
  | .smp i    => { b with smp := Memory.write b.smp i (d.extractLsb' 0 16) }
  | .txtOut _ => b
  | .unmapped => b

/-- The response to a write (R64): ERR for an unmapped address, else OK, whatever a command's outcome. -/
def writeResp : Place → Resp
  | .unmapped => .err
  | .reg _    => .ok
  | .txtIn _  => .ok
  | .bitBuf _ => .ok
  | .smp _    => .ok
  | .txtOut _ => .ok

/-- RD: read one word; no state of the block changes (R63). -/
def execRd (addr : Word) (s : State) : Host.Outcome State Fault Refusal :=
  .next (s.complete s.block (readPlace s.block (placeOf s.block.inst addr)))

/-- WR: write one word (R64). -/
def execWr (addr data : Word) (s : State) : Host.Outcome State Fault Refusal :=
  let place := placeOf s.block.inst addr
  .next (s.complete (writePlace s.block data place) (.write (writeResp place)))

end Sys2Proof.Machine
end

