-- ==== Sys2Proof/Machine/Dispatch.lean ====
section
/-! DEFINITION. The dispatch: one arm per constructor of Instr. -/

namespace Sys2Proof.Machine

def exec (i : Instr) (s : State) : Host.Outcome State Fault Refusal :=
  match i with
  | .nop => Sys2Proof.Machine.execNop s
  | .frm => Sys2Proof.Machine.execFrm s
  | .syn => Sys2Proof.Machine.execSyn s
  | .enc => Sys2Proof.Machine.execEnc s
  | .cls => Sys2Proof.Machine.execCls s
  | .dfr => Sys2Proof.Machine.execDfr s
  | .dec => Sys2Proof.Machine.execDec s
  | .clr => Sys2Proof.Machine.execClr s
  | .rst => Sys2Proof.Machine.execRst s
  | .rd addr => Sys2Proof.Machine.execRd addr s
  | .wr addr data => Sys2Proof.Machine.execWr addr data s

end Sys2Proof.Machine
end

