-- ==== Sys2Proof/WellFormed.lean ====
section
/-! DEFINITION. Which terms of Instr are the canonical reading of some request on the bus (spec/30_encoding.md R84).
Every address and every data word is encodable; the one check is that a write of a legal command word to CMD is written
as the command, not as WR (log entry 6). -/

namespace Sys2Proof

/-- R82: "A command word is legal iff it is one of the nine values of rule R84." -/
def isCommandWord (w : Word) : Bool := (commandOf w).isSome

/-- The well-formed instructions: a WR of a legal command word to CMD is not one, since its request decodes to the
command itself. -/
def wellFormed : Instr → Bool
  | .wr addr data => !(addr == cmdAddr && isCommandWord data)
  | .nop => true
  | .frm => true
  | .syn => true
  | .enc => true
  | .cls => true
  | .dfr => true
  | .dec => true
  | .clr => true
  | .rst => true
  | .rd _ => true

end Sys2Proof
end

