-- ==== Sys2Proof/Machine/Step.lean ====
section
/-! DEFINITION. One step of the system: the next event of the host (spec/00_scope.md R13, spec/70_reset_and_hazards.md
R220). The block has no program counter and fetches nothing (spec/10_state.md R38); what takes the place of a program is the
list of events the host has still to issue. -/

namespace Sys2Proof.Machine

/-- One step: the oldest pending event. A bus request is decoded and executed; the hardware reset input resets the block
and returns nothing to the host (R220). With nothing pending the block is idle and holds its state (R205; log entry 2). -/
def step (s : State) : Host.Outcome State Fault Refusal :=
  match s.pending with
  | [] => .next s
  | .hardwareReset :: rest => .next { s with block := s.block.reset, pending := rest }
  | .bus r :: rest =>
    match decode r with
    | .instr i => exec i { s with pending := rest }
    | .rejected _ => .refused .malformedRequest

/-- The state in which the host issues the request of a table word next (log entries 1 and 7). A word that has bits above
its format's own is no request, and the state is left as it is. -/
def State.withFetchWord (s : State) (nbits w : Nat) : State :=
  match tableRequest nbits w with
  | some r => { s with pending := .bus r :: s.pending }
  | none => s

end Sys2Proof.Machine
end

