-- ==== Sys2Proof/Machine/Reference.lean ====
section
/-! DEFINITION. SINQ and PEAKBIN as the spec writes them, over the real numbers (spec/41_synth.md R116, spec/42_classifier.md
R134 to R136). The machine computes `sinqOf` and `peakBinOf`; these are what the statements about them hold them to. No step
of the machine uses this file. The transform and the frequency of a bin: log entry 14. -/

namespace Sys2Proof.Machine

/-- R116: x = AMP * sin(2 pi p/m), rounded to nearest with ties away from zero: sign(x) * floor(|x| + 1/2). -/
noncomputable def sinqReal (amp p m : Nat) : Int :=
  let x : ℝ := amp * Real.sin (2 * Real.pi * (p / m : ℝ))
  if 0 ≤ x then ⌊|x| + 1 / 2⌋ else -⌊|x| + 1 / 2⌋

/-- R134: C[k] = sum over n of x[n] * cos(2 pi ((k n) mod N)/N). -/
noncomputable def cosSum (x : List Int) (k : Nat) : ℝ :=
  ∑ n ∈ Finset.range x.length, (x.getD n 0 : ℝ) * Real.cos (2 * Real.pi * ((k * n % x.length : Nat) : ℝ) / x.length)

/-- R134: S[k] = sum over n of x[n] * sin(2 pi ((k n) mod N)/N). -/
noncomputable def sinSum (x : List Int) (k : Nat) : ℝ :=
  ∑ n ∈ Finset.range x.length, (x.getD n 0 : ℝ) * Real.sin (2 * Real.pi * ((k * n % x.length : Nat) : ℝ) / x.length)

/-- R134: P[k] = C[k]^2 + S[k]^2. -/
noncomputable def power (x : List Int) (k : Nat) : ℝ := cosSum x k ^ 2 + sinSum x k ^ 2

/-- R136: k is the least bin of 0 .. N div 2 such that P[k] >= P[j] for every j in 0 .. N div 2. -/
def IsPeakBin (x : List Int) (k : Nat) : Prop :=
  k ≤ x.length / 2 ∧ (∀ j ≤ x.length / 2, power x j ≤ power x k) ∧ ∀ j < k, power x j < power x k

end Sys2Proof.Machine
end

