-- ==== Sys2Proof/Safety.lean ====
section
/-! DEFINITION. The terms the statements are written in: the invariant of the block, what it is for a block to have ended a
command, the clean windows of a configuration and the premise of the round-trip law. -/

namespace Sys2Proof.Safety

open Sys2Proof.Machine

/-- The reserved bits of STATUS, 3:2 and 31:13 (R24). -/
def statusReserved : Word := 0xFFFFE00C#32

/-- What holds of STATUS in every reachable state: reserved bits read 0 (R24); ECODE is 0 to 6, ERR = 0 <-> ECODE = 0,
ERR = 1 -> DONE = 1 (R26); and nothing is set before a command has finished, DONE = 0 -> STATUS = 0. -/
abbrev StatusLegal (b : Block) : Prop :=
  b.status &&& statusReserved = 0#32 ∧ b.ecode.toNat ≤ 6 ∧ (b.err = false ↔ b.ecode = 0#4) ∧
    (b.err = true → b.status.getLsbD 0 = true) ∧ (b.status.getLsbD 0 = false → b.status = 0#32)

/-- Every listed entry of a buffer lies below its capacity (R39 to R42). -/
abbrev Within {w : Nat} (m : Buffer w) (cap : Nat) : Prop := ∀ c ∈ m, c.1 < cap

/-- The invariant of the block: legal capacities (R5), CTRL's reserved bits (R22), STATUS (R24, R26), ERRINFO without an
error (R27), OUT_LEN within TXT_OUT (R34), and four buffers in canonical form within their capacities. -/
abbrev BlockInv (b : Block) : Prop :=
  b.inst.Legal ∧ b.ctrl &&& 0xFFFFFFFE#32 = 0#32 ∧ StatusLegal b ∧ (b.err = false → b.errinfo = 0#32) ∧
    b.outLen.toNat ≤ b.inst.textCap ∧
    (Memory.wf b.txtIn ∧ Memory.wf b.bitBuf ∧ Memory.wf b.smp ∧ Memory.wf b.txtOut) ∧
    (Within b.txtIn b.inst.textCap ∧ Within b.bitBuf b.inst.bitCap ∧ Within b.smp b.inst.sampCap ∧
      Within b.txtOut b.inst.textCap)

/-- The invariant of the system. -/
abbrev Inv (s : State) : Prop := BlockInv s.block

/-- s after a write transaction, a command among them, that left the block as b and was answered OK. -/
abbrev answered (s : State) (b : Block) : State := { s with block := b, replies := .write .ok :: s.replies }

/-- s after a read that returned (OK, d): nothing else changes (R63). -/
abbrev hasRead (s : State) (d : Word) : State := { s with replies := .read .ok d :: s.replies }

/-- The same block but for STATUS and ERRINFO: what a failed command leaves (R199). -/
abbrev withStatus (b : Block) (status errinfo : Word) : Block := { b with status := status, errinfo := errinfo }

/-- A decode is clean only if STATUS reads exactly 0x00000001 afterwards (R231). -/
abbrev Clean (b : Block) : Prop := b.status = 0x00000001#32

/-- The window that SYN writes for a tone, read as signed integers (R141). -/
def cleanWindow (nm : Config.Num) (f fs n : Nat) : List Int := (List.range n).map fun j => (toneSample nm f fs j).toInt

/-- R141: the block's configuration is discriminating. -/
abbrev Discriminating (nm : Config.Num) (b : Block) : Prop :=
  let mark := cleanWindow nm b.markC.toNat b.fsC.toNat b.spb
  let space := cleanWindow nm b.spaceC.toNat b.fsC.toNat b.spb
  1 ≤ b.spb ∧ b.classify nm b.spb mark = 1#1 ∧ b.classify nm b.spb space = 0#1 ∧
    (∃ v ∈ mark, v ≠ 0) ∧ (∃ v ∈ space, v ≠ 0)

/-- A flag of STATUS that is set when its condition holds (R24). -/
abbrev flagIf (mask : Word) (p : Prop) [Decidable p] : Word := if p then mask else 0#32

/-- Window w of n samples is all zeros (R140). -/
abbrev SilentWindow (b : Block) (n w : Nat) : Prop := ∀ j < n, b.smpAt (w * n + j) = 0#16

/-- BITBUF index k holds the start or the stop bit of one of the first n groups, and holds the wrong value (R152, R154). -/
abbrev WrongFramingBit (b : Block) (n k : Nat) : Prop :=
  ∃ g < n, (k = 9 * g ∧ b.bitAt k ≠ 0#1) ∨ (k = 9 * g + 8 ∧ b.bitAt k ≠ 1#1)

/-- The bus addresses that R67 calls unmapped: space 0 above index 0x10, spaces 1 to 4 at or above the capacity, spaces 5
to 15. -/
abbrev Unmapped (inst : Config.Instance) (a : Word) : Prop :=
  (0x00000010 < a.toNat ∧ a.toNat < 0x10000000) ∨
  (0x10000000 + inst.textCap ≤ a.toNat ∧ a.toNat < 0x20000000) ∨
  (0x20000000 + inst.bitCap ≤ a.toNat ∧ a.toNat < 0x30000000) ∨
  (0x30000000 + inst.sampCap ≤ a.toNat ∧ a.toNat < 0x40000000) ∨
  (0x40000000 + inst.textCap ≤ a.toNat ∧ a.toNat < 0x50000000) ∨
  0x50000000 ≤ a.toNat

/-- The bus address of entry i of a space (R61). -/
abbrev addrOf (space i : Nat) : Word := BitVec.ofNat 32 (space * 0x10000000 + i)

/-- Two blocks have the same registers and capacities. -/
abbrev SameRegisters (a b : Block) : Prop :=
  a.inst = b.inst ∧ a.ctrl = b.ctrl ∧ a.status = b.status ∧ a.errinfo = b.errinfo ∧ a.baudC = b.baudC ∧
    a.markC = b.markC ∧ a.spaceC = b.spaceC ∧ a.fsC = b.fsC ∧ a.txtLen = b.txtLen ∧ a.bitLen = b.bitLen ∧
    a.smpLen = b.smpLen ∧ a.outLen = b.outLen

/-- Two blocks have the same buffer contents in the sense of R46: the same entries below each length register. -/
abbrev SameContents (a b : Block) : Prop :=
  (∀ i < a.txtLen.toNat, a.txtInAt i = b.txtInAt i) ∧ (∀ i < a.bitLen.toNat, a.bitAt i = b.bitAt i) ∧
    (∀ i < a.smpLen.toNat, a.smpAt i = b.smpAt i) ∧ (∀ i < a.outLen.toNat, a.txtOutAt i = b.txtOutAt i)

end Sys2Proof.Safety
end

