-- ==== Sys2Proof/Certificates/Slice0/Obligations.lean ====
section
/-! DEFINITION. The statements about the machine, for the provers. Each docstring names the rule of spec/ it formalises.
`answered s b` is s after a write transaction that left the block as b and was answered OK, `hasRead s d` is s after a read
that returned (OK, d), `withStatus b st ei` is b with STATUS = st and ERRINFO = ei. -/

open Sys2Proof Sys2Proof.Machine Sys2Proof.Safety

/-! ### Reset, steps and the decoder -/

/-- R45: the registers after reset, every buffer entry unwritten, and what the derived and constant registers then read. -/
def Obligations.ResetStateHoldsTheSpecsValues : Prop :=
  let b := State.reset.block
  (b.ctrl = 0#32 ∧ b.status = 0#32 ∧ b.errinfo = 0#32 ∧ b.baudC = 4545#32 ∧ b.markC = 212500#32 ∧
    b.spaceC = 229500#32 ∧ b.fsC = 4410000#32 ∧ b.txtLen = 0#32 ∧ b.bitLen = 0#32 ∧ b.smpLen = 0#32 ∧ b.outLen = 0#32) ∧
  (∀ i, Memory.read? b.txtIn i = none ∧ Memory.read? b.bitBuf i = none ∧ Memory.read? b.smp i = none ∧
    Memory.read? b.txtOut i = none) ∧
  exec (.rd 0x00#32) State.reset = .next (hasRead State.reset 0x46534B39#32) ∧
  exec (.rd 0x09#32) State.reset = .next (hasRead State.reset 970#32) ∧
  exec (.rd 0x0E#32) State.reset = .next (hasRead State.reset (BitVec.ofNat 32 b.inst.textCap)) ∧
  exec (.rd 0x0F#32) State.reset = .next (hasRead State.reset (BitVec.ofNat 32 b.inst.bitCap)) ∧
  exec (.rd 0x10#32) State.reset = .next (hasRead State.reset (BitVec.ofNat 32 b.inst.sampCap)) ∧
  exec (.rd 0x02#32) State.reset = .next (hasRead State.reset 0#32)

/-- The invariant holds of the reset state (R5, R45). -/
def Obligations.ResetStateSatisfiesTheInvariant : Prop := Inv State.reset

/-- Every step keeps the invariant: legal capacities, CTRL's and STATUS's reserved bits, the laws of R26 on ERR, ECODE and
DONE, ERRINFO 0 without an error (R27), OUT_LEN within TXT_OUT, and the four buffers in canonical form within their
capacities. -/
def Obligations.StepKeepsTheInvariant : Prop := ∀ s t : State, Inv s → step s = .next t → Inv t

/-- A step runs the decoded instruction (R13, R18; log entry 1): the oldest pending request is taken off the list and
executed; executing does not touch what is pending. A request the decoder rejects is refused. -/
def Obligations.StepRunsTheDecodedInstruction : Prop :=
  (∀ (s : State) (r : Request) (rest : List HostEvent) (i : Instr), s.pending = .bus r :: rest → decode r = .instr i →
    step s = exec i { s with pending := rest }) ∧
  (∀ (s : State) (r : Request) (rest : List HostEvent) (e : DecodeError), s.pending = .bus r :: rest →
    decode r = .rejected e → step s = .refused .malformedRequest) ∧
  (∀ (i : Instr) (s t : State), exec i s = .next t → t.pending = s.pending)

/-- With nothing pending the block is idle and holds its state (R205). That a step is then taken at all is the model's
choice, log entry 2. -/
def Obligations.IdleStepHoldsTheState : Prop := ∀ s : State, s.pending = [] → step s = .next s

/-- R13: a bus transaction is one step and is answered once. Whatever request is executed, one reply is recorded, and the
earlier ones stay. -/
def Obligations.EachTransactionIsAnsweredOnce : Prop :=
  ∀ (s t : State) (r : Request) (rest : List HostEvent), s.pending = .bus r :: rest → step s = .next t →
    t.pending = rest ∧ ∃ reply, t.replies = reply :: s.replies

/-- R84, with the words of the opcode map written out in the format BUS-WR of R80 (rw = 1, address 0x00000002, the command
word), and one request of each bus format. -/
def Obligations.SpecWordsDecodeToTheirInstructions : Prop :=
  decode (.busWr 0x10000000200000000#65) = .instr .nop ∧
  decode (.busWr 0x10000000200000001#65) = .instr .frm ∧
  decode (.busWr 0x10000000200000002#65) = .instr .syn ∧
  decode (.busWr 0x10000000200000003#65) = .instr .enc ∧
  decode (.busWr 0x10000000200000004#65) = .instr .cls ∧
  decode (.busWr 0x10000000200000008#65) = .instr .dfr ∧
  decode (.busWr 0x1000000020000000C#65) = .instr .dec ∧
  decode (.busWr 0x10000000200000010#65) = .instr .clr ∧
  decode (.busWr 0x10000000200000020#65) = .instr .rst ∧
  decode (.busRd 0x030000001#33) = .instr (.rd 0x30000001#32) ∧
  decode (.busWr 0x11000000000000041#65) = .instr (.wr 0x10000000#32 0x00000041#32)

/-- Decoding an encoded well-formed instruction gives it back (R80, R84), for every address and data word. -/
def Obligations.DecodeOfEncodeIsTheInstruction : Prop :=
  ∀ i : Instr, wellFormed i = true → decode (encode i) = .instr i

/-- Each request has one meaning: what decodes to i is the encoding of i, and i is well-formed (R80, R82). -/
def Obligations.DecodedRequestIsTheEncoding : Prop :=
  ∀ (r : Request) (i : Instr), decode r = .instr i → wellFormed i = true ∧ encode i = r

/-! ### Control commands and the dispatch -/

/-- R85, R197: every word other than the nine of R84, written to CMD, clears STATUS and ERRINFO and raises ILLCMD with
ERRINFO = the word; nothing else changes. -/
def Obligations.IllegalCommandWordRaisesIllcmd : Prop :=
  ∀ (s : State) (w : Word),
    w ∉ [0x00#32, 0x01#32, 0x02#32, 0x03#32, 0x04#32, 0x08#32, 0x0C#32, 0x10#32, 0x20#32] →
      exec (.wr 0x00000002#32 w) s = .next (answered s (withStatus s.block 0x00000063#32 w))

/-- R170, R64: a write of a command's word to CMD runs the command. -/
def Obligations.WriteToCmdRunsTheCommand : Prop :=
  ∀ s : State,
    exec (.wr 0x00000002#32 0x00000000#32) s = exec .nop s ∧
    exec (.wr 0x00000002#32 0x00000001#32) s = exec .frm s ∧
    exec (.wr 0x00000002#32 0x00000002#32) s = exec .syn s ∧
    exec (.wr 0x00000002#32 0x00000003#32) s = exec .enc s ∧
    exec (.wr 0x00000002#32 0x00000004#32) s = exec .cls s ∧
    exec (.wr 0x00000002#32 0x00000008#32) s = exec .dfr s ∧
    exec (.wr 0x00000002#32 0x0000000C#32) s = exec .dec s ∧
    exec (.wr 0x00000002#32 0x00000010#32) s = exec .clr s ∧
    exec (.wr 0x00000002#32 0x00000020#32) s = exec .rst s

/-- R171: no state change at all; STATUS and ERRINFO are kept. -/
def Obligations.NopChangesNothing : Prop := ∀ s : State, exec .nop s = .next (answered s s.block)

/-- R172: STATUS <- 0, ERRINFO <- 0; all else unchanged, DONE included among the cleared. -/
def Obligations.ClrClearsStatusAndErrinfo : Prop :=
  ∀ s : State, exec .clr s = .next (answered s (withStatus s.block 0#32 0#32))

/-- R173: the registers take their reset values, the capacities stay, and no entry of any buffer counts as written any
more. -/
def Obligations.RstRestoresTheResetState : Prop :=
  ∀ s : State, ∃ b : Block, exec .rst s = .next (answered s b) ∧
    b.inst = s.block.inst ∧ b.ctrl = 0#32 ∧ b.status = 0#32 ∧ b.errinfo = 0#32 ∧ b.baudC = 4545#32 ∧
    b.markC = 212500#32 ∧ b.spaceC = 229500#32 ∧ b.fsC = 4410000#32 ∧ b.txtLen = 0#32 ∧ b.bitLen = 0#32 ∧
    b.smpLen = 0#32 ∧ b.outLen = 0#32 ∧
    ∀ i, Memory.read? b.txtIn i = none ∧ Memory.read? b.bitBuf i = none ∧ Memory.read? b.smp i = none ∧
      Memory.read? b.txtOut i = none

/-- R220: the hardware reset input and the RST command have exactly the same effect, the state becomes the reset state; and
the model's initial state is the state after a reset. That the input is one pending event, consumed with no reply, is the
model's choice (log entry 12), and so is the number a reset gives its free values (log entry 4). -/
def Obligations.HardwareResetEqualsRst : Prop :=
  (∀ (s : State) (rest : List HostEvent), s.pending = .hardwareReset :: rest →
    ∃ e : Nat, step s = .next { s with block := Block.afterReset s.block.inst e, pending := rest } ∧
      exec .rst s = .next (answered s (Block.afterReset s.block.inst e))) ∧
  ∃ e : Nat, State.reset.block = Block.afterReset State.reset.block.inst e

/-- R230, R24: STATUS always describes the last command only: the block a command other than NOP leaves does not depend on
what STATUS and ERRINFO held. -/
def Obligations.StatusDescribesTheLastCommandOnly : Prop :=
  ∀ (c : Command) (s : State) (st ei : Word), c ≠ .nop →
    ∃ t u, exec c.instr s = .next t ∧ exec c.instr { s with block := withStatus s.block st ei } = .next u ∧
      t.block = u.block

/-! ### The bus -/

/-- R63, R65: what RD answers for every address, mapped or not, with no state of the block changed. -/
def Obligations.ReadAnswersTheMappedWord : Prop :=
  ∀ s : State, let b := s.block
    exec (.rd 0x00#32) s = .next (hasRead s 0x46534B39#32) ∧
    exec (.rd 0x01#32) s = .next (hasRead s b.ctrl) ∧
    exec (.rd 0x02#32) s = .next (hasRead s 0#32) ∧
    exec (.rd 0x03#32) s = .next (hasRead s b.status) ∧
    exec (.rd 0x04#32) s = .next (hasRead s b.errinfo) ∧
    exec (.rd 0x05#32) s = .next (hasRead s b.baudC) ∧
    exec (.rd 0x06#32) s = .next (hasRead s b.markC) ∧
    exec (.rd 0x07#32) s = .next (hasRead s b.spaceC) ∧
    exec (.rd 0x08#32) s = .next (hasRead s b.fsC) ∧
    exec (.rd 0x09#32) s = .next (hasRead s (BitVec.ofNat 32 b.spb)) ∧
    exec (.rd 0x0A#32) s = .next (hasRead s b.txtLen) ∧
    exec (.rd 0x0B#32) s = .next (hasRead s b.bitLen) ∧
    exec (.rd 0x0C#32) s = .next (hasRead s b.smpLen) ∧
    exec (.rd 0x0D#32) s = .next (hasRead s b.outLen) ∧
    exec (.rd 0x0E#32) s = .next (hasRead s (BitVec.ofNat 32 b.inst.textCap)) ∧
    exec (.rd 0x0F#32) s = .next (hasRead s (BitVec.ofNat 32 b.inst.bitCap)) ∧
    exec (.rd 0x10#32) s = .next (hasRead s (BitVec.ofNat 32 b.inst.sampCap)) ∧
    (∀ i < 2 ^ 28,
      (i < b.inst.textCap → exec (.rd (addrOf 1 i)) s = .next (hasRead s (b.txtInAt i))) ∧
      (i < b.inst.bitCap → exec (.rd (addrOf 2 i)) s = .next (hasRead s ((b.bitAt i).zeroExtend 32))) ∧
      (i < b.inst.sampCap → exec (.rd (addrOf 3 i)) s = .next (hasRead s ((b.smpAt i).signExtend 32))) ∧
      (i < b.inst.textCap → exec (.rd (addrOf 4 i)) s = .next (hasRead s ((b.txtOutAt i).zeroExtend 32)))) ∧
    (∀ a, Unmapped b.inst a → exec (.rd a) s = .next { s with replies := .read .err 0#32 :: s.replies })

/-- R64, R66 for the registers: CTRL keeps bit 0, the configuration and length registers keep the word, the read-only
registers ignore it; each answered OK, and nothing else changes. -/
def Obligations.WriteToRegisterStoresOrIsIgnored : Prop :=
  ∀ (s : State) (d : Word), let b := s.block
    exec (.wr 0x01#32 d) s = .next (answered s { b with ctrl := d &&& 1#32 }) ∧
    exec (.wr 0x05#32 d) s = .next (answered s { b with baudC := d }) ∧
    exec (.wr 0x06#32 d) s = .next (answered s { b with markC := d }) ∧
    exec (.wr 0x07#32 d) s = .next (answered s { b with spaceC := d }) ∧
    exec (.wr 0x08#32 d) s = .next (answered s { b with fsC := d }) ∧
    exec (.wr 0x0A#32 d) s = .next (answered s { b with txtLen := d }) ∧
    exec (.wr 0x0B#32 d) s = .next (answered s { b with bitLen := d }) ∧
    exec (.wr 0x0C#32 d) s = .next (answered s { b with smpLen := d }) ∧
    ∀ a ∈ [0x00#32, 0x03#32, 0x04#32, 0x09#32, 0x0D#32, 0x0E#32, 0x0F#32, 0x10#32],
      exec (.wr a d) s = .next (answered s b)

/-- R64, R66 for the buffers: entry i takes the low bits of the word that fit it, every other entry of the buffer and
everything else stays; a write to TXT_OUT is ignored. -/
def Obligations.WriteToBufferStoresOneEntry : Prop :=
  ∀ (s : State) (d : Word) (i : Nat), i < 2 ^ 28 → let b := s.block
    (i < b.inst.textCap → ∃ m : Buffer 32, let b' := { b with txtIn := m }
      exec (.wr (addrOf 1 i) d) s = .next (answered s b') ∧ b'.txtInAt i = d ∧ ∀ j, j ≠ i → b'.txtInAt j = b.txtInAt j) ∧
    (i < b.inst.bitCap → ∃ m : Buffer 1, let b' := { b with bitBuf := m }
      exec (.wr (addrOf 2 i) d) s = .next (answered s b') ∧ b'.bitAt i = BitVec.ofBool (d.getLsbD 0) ∧
        ∀ j, j ≠ i → b'.bitAt j = b.bitAt j) ∧
    (i < b.inst.sampCap → ∃ m : Buffer 16, let b' := { b with smp := m }
      exec (.wr (addrOf 3 i) d) s = .next (answered s b') ∧ b'.smpAt i = d.truncate 16 ∧
        ∀ j, j ≠ i → b'.smpAt j = b.smpAt j) ∧
    (i < b.inst.textCap → exec (.wr (addrOf 4 i) d) s = .next (answered s b))

/-- R67, R198: an access to an unmapped address gets ERR, a read returns data 0, and nothing of the block changes. -/
def Obligations.UnmappedAccessAnswersErr : Prop :=
  ∀ (s : State) (a : Word), Unmapped s.block.inst a →
    exec (.rd a) s = .next { s with replies := .read .err 0#32 :: s.replies } ∧
    ∀ d, exec (.wr a d) s = .next { s with replies := .write .err :: s.replies }

/-- R72: "every read returns the value of the latest write to that element", for the three buffers the host may write: a
read after a write to the same entry returns the word as stored, a read of another entry what it returned before. -/
def Obligations.ReadReturnsTheLatestWrite : Prop :=
  ∀ (s t : State) (d : Word) (space i j : Nat), i < 2 ^ 28 → j < 2 ^ 28 →
    ((space = 1 ∧ i < s.block.inst.textCap) ∨ (space = 2 ∧ i < s.block.inst.bitCap) ∨
      (space = 3 ∧ i < s.block.inst.sampCap)) →
    exec (.wr (addrOf space i) d) s = .next t →
      (space = 1 → exec (.rd (addrOf space i)) t = .next (hasRead t d)) ∧
      (space = 2 → exec (.rd (addrOf space i)) t = .next (hasRead t (d &&& 1#32))) ∧
      (space = 3 → exec (.rd (addrOf space i)) t = .next (hasRead t (BitVec.ofInt 32 (d.truncate 16).toInt))) ∧
      (∀ sp ∈ [1, 2, 3, 4], (sp, j) ≠ (space, i) → ∀ u v, exec (.rd (addrOf sp j)) s = .next u →
        exec (.rd (addrOf sp j)) t = .next v → u.replies.head? = v.replies.head?)

/-- R35: the capacities read the instance's parameters always, host writes to them are ignored, and no step changes them. -/
def Obligations.CapacitiesNeverChange : Prop :=
  (∀ s t : State, step s = .next t → t.block.inst = s.block.inst) ∧
  (∀ s : State,
    exec (.rd 0x0E#32) s = .next (hasRead s (BitVec.ofNat 32 s.block.inst.textCap)) ∧
    exec (.rd 0x0F#32) s = .next (hasRead s (BitVec.ofNat 32 s.block.inst.bitCap)) ∧
    exec (.rd 0x10#32) s = .next (hasRead s (BitVec.ofNat 32 s.block.inst.sampCap)) ∧
    ∀ d, ∀ a ∈ [0x0E#32, 0x0F#32, 0x10#32], exec (.wr a d) s = .next (answered s s.block))

/-! ### Sample-rate arithmetic -/

/-- R32: SPB reads 0 if BAUD_C = 0, else the exact quotient FS_C / BAUD_C rounded to the nearest integer, ties to even; host
writes are ignored. -/
def Obligations.SpbIsTheRoundedQuotient : Prop :=
  ∀ s : State, let fs : ℚ := s.block.fsC.toNat; let baud : ℚ := s.block.baudC.toNat
    ∃ d : Word, exec (.rd 0x09#32) s = .next (hasRead s d) ∧
      (s.block.baudC = 0#32 → d = 0#32) ∧
      (s.block.baudC ≠ 0#32 → |(d.toNat : ℚ) - fs / baud| ≤ 1 / 2 ∧
        (|(d.toNat : ℚ) - fs / baud| = 1 / 2 → d.toNat % 2 = 0)) ∧
      ∀ v, exec (.wr 0x09#32 v) s = .next (answered s s.block)

/-- R112: SPB = 0 happens exactly when BAUD_C = 0, or FS_C = 0, or 2 * FS_C <= BAUD_C. -/
def Obligations.SpbIsZeroExactlyWhen : Prop :=
  ∀ b : Block, b.spb = 0 ↔ (b.baudC = 0#32 ∨ b.fsC = 0#32 ∨ 2 * b.fsC.toNat ≤ b.baudC.toNat)

/-- R195: a command that needs SPB raises CONFIG, with ERRINFO 0, when SPB = 0. ENC does so after its FRM stage, if that
stage succeeds (R120); STATUS and ERRINFO are all that the SPB error changes. -/
def Obligations.ZeroSpbRaisesConfig : Prop :=
  ∀ s : State, s.block.spb = 0 →
    exec .syn s = .next (answered s (withStatus s.block 0x43#32 0#32)) ∧
    exec .cls s = .next (answered s (withStatus s.block 0x43#32 0#32)) ∧
    exec .dec s = .next (answered s (withStatus s.block 0x43#32 0#32)) ∧
    ∀ t, exec .frm s = .next t → t.block.err = false →
      exec .enc s = .next (answered s (withStatus t.block 0x43#32 0#32))

/-! ### FRM -/

/-- R100: FRM whole. The checks in their order, each with what it leaves; and on success BIT_LEN = 9 * TXT_LEN, the frames
in text order, entries from 9 * TXT_LEN on and everything else unchanged. -/
def Obligations.FrmWritesFramesOrFailsWhole : Prop :=
  ∀ s : State, let b := s.block; let n := b.txtLen.toNat
    (b.inst.textCap < n → exec .frm s = .next (answered s (withStatus b 0x53#32 1#32))) ∧
    (n ≤ b.inst.textCap → b.inst.bitCap < 9 * n → exec .frm s = .next (answered s (withStatus b 0x53#32 2#32))) ∧
    (n ≤ b.inst.textCap → 9 * n ≤ b.inst.bitCap → ∀ bad < n, 127 < (b.txtInAt bad).toNat →
      (∀ i < bad, (b.txtInAt i).toNat ≤ 127) →
        exec .frm s = .next (answered s (withStatus b 0x13#32 (BitVec.ofNat 32 bad)))) ∧
    (n ≤ b.inst.textCap → 9 * n ≤ b.inst.bitCap → (∀ i < n, (b.txtInAt i).toNat ≤ 127) →
      ∃ m : Buffer 1,
        let b' := { b with status := 0x01#32, errinfo := 0#32, bitLen := BitVec.ofNat 32 (9 * n), bitBuf := m }
        exec .frm s = .next (answered s b') ∧
        (∀ i < n, b'.bitAt (9 * i) = 0#1 ∧
          (∀ j ≤ 6, b'.bitAt (9 * i + 1 + j) = BitVec.ofBool ((b.txtInAt i).getLsbD (6 - j))) ∧
          b'.bitAt (9 * i + 8) = 1#1) ∧
        (∀ k, 9 * n ≤ k → b'.bitAt k = b.bitAt k))

/-! ### SINQ -/

/-- R116: SINQ(p, m) is 32767 * sin(2 pi p/m) rounded to the nearest integer, ties away from zero, for every p and m that a
block can ask for. -/
def Obligations.SinqIsTheRoundedSine : Prop :=
  ∀ p m : Nat, p < m → m < 2 ^ 32 → num.sinq p m = sinqReal 32767 p m

/-- A precision that decides decides rightly (R116; the search over precisions is the model's, log entry 9): over the first
quarter turn, the value found is 32767 * sin(pi/2 * a/m) rounded. -/
def Obligations.DecidedSinqIsExact : Prop :=
  ∀ bits a m v : Nat, 64 ≤ bits → 0 < m → a ≤ m → sinqDecided 32767 bits a m = some v →
    (v : ℤ) = ⌊32767 * Real.sin (Real.pi / 2 * (a / m : ℝ)) + 1 / 2⌋

/-- R117: S-zero, S-half, S-odd, S-peak, S-ratio, and the values at the ties of S-tie; the other named properties are
SinqStaysInRange (S-range), SampleIsWithinHalfOfTheSine (S-err) and SinqTieTestIsExact (S-tie, "only when"). -/
def Obligations.SinqAtItsSymmetriesPeaksAndTies : Prop :=
  ∀ m : Nat, 0 < m →
    num.sinq 0 m = 0 ∧
    (m % 2 = 0 → num.sinq (m / 2) m = 0) ∧
    (∀ p, 0 < p → p < m → num.sinq (m - p) m = -num.sinq p m) ∧
    (∀ p, 4 * p = m → num.sinq p m = 32767) ∧
    (∀ p, 4 * p = 3 * m → num.sinq p m = -32767) ∧
    (∀ p k, p < m → 1 ≤ k → num.sinq (k * p) (k * m) = num.sinq p m) ∧
    (∀ p, 12 * p = m ∨ 12 * p = 5 * m → num.sinq p m = 16384) ∧
    (∀ p, 12 * p = 7 * m ∨ 12 * p = 11 * m → num.sinq p m = -16384)

/-- R117 S-range: -32767 <= SINQ(p, m) <= 32767; the word -32768 is never produced. -/
def Obligations.SinqStaysInRange : Prop :=
  ∀ p m : Nat, 0 < m → -32767 ≤ num.sinq p m ∧ num.sinq p m ≤ 32767

/-- R117 S-err, for every argument a block can ask for; and of the word that SYN stores (R113, R118), whose phase F * n / FS_C
turns needs no reduction under the real sine. -/
def Obligations.SampleIsWithinHalfOfTheSine : Prop :=
  (∀ p m : Nat, p < m → m < 2 ^ 32 → |(num.sinq p m : ℝ) - 32767 * Real.sin (2 * Real.pi * (p / m : ℝ))| ≤ 1 / 2) ∧
  (∀ f fs n : Nat, 0 < fs → fs < 2 ^ 32 →
    |((toneSample num f fs n).toInt : ℝ) - 32767 * Real.sin (2 * Real.pi * (f * n / fs : ℝ))| ≤ 1 / 2)

/-- R117 S-tie, both directions: x = 32767 * sin(2 pi p/m) is exactly half way between two integers only when 12 p / m is 1,
5, 7 or 11, which is exactly when the machine takes the tie (the test of `sinqMagnitude`); there x is 16383.5 or
-16383.5. -/
def Obligations.SinqTieTestIsExact : Prop :=
  ∀ p m : Nat, p < m → let x : ℝ := 32767 * Real.sin (2 * Real.pi * (p / m : ℝ))
    ((∃ z : ℤ, x = z + 1 / 2) ↔ 3 * quarterArg p m = m) ∧
    (3 * quarterArg p m = m ↔ 12 * p = m ∨ 12 * p = 5 * m ∨ 12 * p = 7 * m ∨ 12 * p = 11 * m) ∧
    (12 * p = m ∨ 12 * p = 5 * m → x = 16383.5) ∧
    (12 * p = 7 * m ∨ 12 * p = 11 * m → x = -16383.5)

/-! ### SYN and ENC -/

/-- R118: SYN whole. The checks in their order, each with what it leaves; and on success SMP_LEN = BIT_LEN * SPB, sample n
of segment i is SINQ((F * n) mod FS_C, FS_C) with F the tone of bit i, entries from SMP_LEN on and everything else
unchanged. -/
def Obligations.SynWritesSegmentsOrFailsWhole : Prop :=
  ∀ s : State, let b := s.block; let n := b.spb; let len := b.bitLen.toNat; let fs := b.fsC.toNat
    (n = 0 → exec .syn s = .next (answered s (withStatus b 0x43#32 0#32))) ∧
    (n ≠ 0 → b.inst.bitCap < len → exec .syn s = .next (answered s (withStatus b 0x53#32 2#32))) ∧
    (n ≠ 0 → len ≤ b.inst.bitCap → b.inst.sampCap < len * n →
      exec .syn s = .next (answered s (withStatus b 0x53#32 3#32))) ∧
    (n ≠ 0 → len ≤ b.inst.bitCap → len * n ≤ b.inst.sampCap →
      ∃ m : Buffer 16,
        let b' := { b with status := 0x01#32, errinfo := 0#32, smpLen := BitVec.ofNat 32 (len * n), smp := m }
        exec .syn s = .next (answered s b') ∧
        (∀ i < len, ∀ j < n, b'.smpAt (i * n + j) =
          BitVec.ofInt 16 (num.sinq
            ((if b.bitAt i = 1#1 then b.markC.toNat else b.spaceC.toNat) * j % fs) fs)) ∧
        (∀ k, len * n ≤ k → b'.smpAt k = b.smpAt k))

/-- R120: ENC is FRM, then, if FRM ended without error, SYN on what FRM wrote; STATUS and ERRINFO are those of the last
stage that ran, and there is one reply. -/
def Obligations.EncIsFrmThenSyn : Prop :=
  ∀ s : State, ∃ t : State, exec .frm s = .next t ∧
    (t.block.err = true → exec .enc s = .next t) ∧
    (t.block.err = false → ∃ u : State, exec .syn t = .next u ∧ exec .enc s = .next (answered s u.block))

/-- R121, R119: the samples ENC writes, straight from the text: SMP_LEN = 9 * TXT_LEN * SPB, and segment 9 i + j is the tone
of bit j of the frame of character i. The capacities are legal, so that no length is cut to 32 bits. -/
def Obligations.EncWritesTheTonesOfTheText : Prop :=
  ∀ s : State, let b := s.block; let n := b.txtLen.toNat; let spb := b.spb; let fs := b.fsC.toNat
    b.inst.Legal → n ≤ b.inst.textCap → 9 * n ≤ b.inst.bitCap → (∀ i < n, (b.txtInAt i).toNat ≤ 127) →
    spb ≠ 0 → 9 * n * spb ≤ b.inst.sampCap →
      ∃ b' : Block, exec .enc s = .next (answered s b') ∧
        b' = { b with status := 0x01#32, errinfo := 0#32, bitLen := b'.bitLen, bitBuf := b'.bitBuf,
                      smpLen := b'.smpLen, smp := b'.smp } ∧
        b'.bitLen.toNat = 9 * n ∧ b'.smpLen.toNat = 9 * n * spb ∧
        ∀ i < n, ∀ j < 9, ∀ k < spb, b'.smpAt ((9 * i + j) * spb + k) =
          BitVec.ofInt 16 (num.sinq ((if j = 8 ∨ (1 ≤ j ∧ (b.txtInAt i).getLsbD (7 - j) = true)
            then b.markC.toNat else b.spaceC.toNat) * k % fs) fs)

/-! ### PEAKBIN and CLS -/

/-- R136: PEAKBIN(x) is the least bin of 0 .. N div 2 whose power, over the reals, is greatest; for every window of 16-bit
samples that a block can hold. -/
def Obligations.PeakBinIsTheLeastStrongestBin : Prop :=
  ∀ x : List Int, x ≠ [] → x.length ≤ 2 ^ 28 → (∀ v ∈ x, -32768 ≤ v ∧ v ≤ 32767) → IsPeakBin x (num.peakBin x)

/-- A precision that decides decides rightly (R136; the search over precisions is the model's, log entry 10). -/
def Obligations.DecidedPeakBinIsExact : Prop :=
  ∀ (x : List Int) (bits k : Nat), x ≠ [] → 64 ≤ bits → peakDecided x bits = some k → IsPeakBin x k

/-- The exact test of ties is right: it says yes exactly when two bins have the same power over the reals (R134, R136). -/
def Obligations.SamePowerIsExact : Prop :=
  ∀ (x : List Int) (j k : Nat), x ≠ [] → (samePower (autocorrelation x) j k = true ↔ power x j = power x k)

/-- R137: P-range, P-zero and P-one; the other named properties are PeakBinDependsOnTheWindowUpToScale (P-local, P-scale) and
PeakBinOfConstantImpulseAndTone (P-dc, P-impulse, P-tone). -/
def Obligations.PeakBinHasRangeZeroAndOne : Prop :=
  (∀ x : List Int, num.peakBin x ≤ x.length / 2) ∧
  (∀ x : List Int, (∀ v ∈ x, v = 0) → num.peakBin x = 0) ∧
  (∀ v : Int, num.peakBin [v] = 0)

/-- R137: P-local, the peak bin of a window of a block depends on its N samples only; and P-scale, for every real factor
c != 0 that takes a window of integers to a window of integers. -/
def Obligations.PeakBinDependsOnTheWindowUpToScale : Prop :=
  (∀ (b b' : Block) (n w : Nat), (∀ j < n, b.smpAt (w * n + j) = b'.smpAt (w * n + j)) →
    num.peakBin (b.window n w) = num.peakBin (b'.window n w)) ∧
  (∀ (x y : List Int) (c : ℝ), c ≠ 0 → (y.map fun v => (v : ℝ)) = (x.map fun v => c * (v : ℝ)) →
    num.peakBin y = num.peakBin x)

/-- R137, with the powers it names: P-dc (and the powers of P-zero, v = 0), P-impulse, and P-tone, a window that is exactly
A * sin(2 pi j n/N) for an integer j, 0 < j < N/2. -/
def Obligations.PeakBinOfConstantImpulseAndTone : Prop :=
  (∀ (size : Nat) (v : Int), let x := List.replicate size v
    power x 0 = (size * v : ℝ) ^ 2 ∧ (∀ k, 0 < k → k ≤ size / 2 → power x k = 0) ∧ num.peakBin x = 0) ∧
  (∀ (before after : Nat) (v : Int), v ≠ 0 → let x := List.replicate before 0 ++ v :: List.replicate after 0
    (∀ k, power x k = (v : ℝ) ^ 2) ∧ num.peakBin x = 0) ∧
  (∀ (x : List Int) (a : ℝ) (j : Nat), a ≠ 0 → 0 < j → 2 * j < x.length →
    (∀ n < x.length, (x.getD n 0 : ℝ) = a * Real.sin (2 * Real.pi * j * n / x.length)) →
      power x j = (a * x.length / 2) ^ 2 ∧ (∀ k ≤ x.length / 2, k ≠ j → power x k = 0) ∧ num.peakBin x = j)

/-- R138: a window is bit 1 if its peak frequency f_k = k * sample_rate / N is closer to the mark frequency than to the
space frequency, and bit 0 otherwise, equal distances included; in Hz, as exact rationals. -/
def Obligations.BitIsTheNearerTone : Prop :=
  ∀ (b : Block) (n : Nat) (x : List Int), 0 < n →
    let fk : ℚ := num.peakBin x * (b.fsC.toNat / 100) / n
    let fmark : ℚ := b.markC.toNat / 100
    let fspace : ℚ := b.spaceC.toNat / 100
    (|fk - fmark| < |fk - fspace| → b.classify num n x = 1#1) ∧
    (¬ |fk - fmark| < |fk - fspace| → b.classify num n x = 0#1)

/-- R139: the threshold form, and the threshold at the reset configuration, between bins 48 and 49. -/
def Obligations.BitIsAThresholdOnThePeakBin : Prop :=
  (∀ (b : Block) (n : Nat) (x : List Int), 0 < n →
    let k := num.peakBin x; let fs := b.fsC.toNat; let mark := b.markC.toNat; let space := b.spaceC.toNat
    (mark < space → (b.classify num n x = 1#1 ↔ 2 * k * fs < n * (mark + space))) ∧
    (space < mark → (b.classify num n x = 1#1 ↔ n * (mark + space) < 2 * k * fs)) ∧
    (mark = space → b.classify num n x = 0#1)) ∧
  (∀ (inst : Config.Instance) (e : Nat) (x : List Int),
    (Block.afterReset inst e).classify num 970 x = 1#1 ↔ num.peakBin x ≤ 48)

/-- R140: an all-zero window still gets a bit, 1 iff MARK_C < SPACE_C. -/
def Obligations.ZeroWindowReadsMarkIffMarkIsLower : Prop :=
  ∀ (b : Block) (n : Nat), 0 < n →
    (b.classify num n (List.replicate n 0) = 1#1 ↔ b.markC.toNat < b.spaceC.toNat)

/-- R143 (d): swapping MARK_C and SPACE_C complements the bit of a window, except of one whose peak is equidistant from the
two tones, which stays 0. -/
def Obligations.SwappingTonesComplementsTheBit : Prop :=
  ∀ (b : Block) (n : Nat) (x : List Int),
    let b' := { b with markC := b.spaceC, spaceC := b.markC }
    let k : Int := num.peakBin x * b.fsC.toNat
    (|k - n * b.markC.toNat| ≠ |k - n * b.spaceC.toNat| → b'.classify num n x = ~~~(b.classify num n x)) ∧
    (|k - n * b.markC.toNat| = |k - n * b.spaceC.toNat| → b.classify num n x = 0#1 ∧ b'.classify num n x = 0#1)

/-- R142: CLS whole. The checks in their order, each with what it leaves, the flags over the whole input; and on success
BIT_LEN = SMP_LEN div SPB, bit w by the integer comparison on the peak bin of window w, entries from BIT_LEN on and
everything else unchanged. -/
def Obligations.ClsClassifiesWindowsOrFailsWhole : Prop :=
  ∀ s : State, let b := s.block; let n := b.spb; let len := b.smpLen.toNat; let count := len / n
    let strict := b.ctrl.getLsbD 0
    let flags := flagIf 0x100#32 (len % n ≠ 0) ||| flagIf 0x1000#32 (∃ w < count, SilentWindow b n w)
    (n = 0 → exec .cls s = .next (answered s (withStatus b 0x43#32 0#32))) ∧
    (n ≠ 0 → b.inst.sampCap < len → exec .cls s = .next (answered s (withStatus b 0x53#32 3#32))) ∧
    (n ≠ 0 → len ≤ b.inst.sampCap → b.inst.bitCap < count →
      exec .cls s = .next (answered s (withStatus b 0x53#32 2#32))) ∧
    (n ≠ 0 → len ≤ b.inst.sampCap → count ≤ b.inst.bitCap → strict = true →
      ∀ w < count, SilentWindow b n w → (∀ v < w, ¬ SilentWindow b n v) →
        exec .cls s = .next (answered s (withStatus b (0x23#32 ||| flags) (BitVec.ofNat 32 w)))) ∧
    (n ≠ 0 → len ≤ b.inst.sampCap → count ≤ b.inst.bitCap → (strict = false ∨ ∀ w < count, ¬ SilentWindow b n w) →
      ∃ m : Buffer 1,
        let b' := { b with status := 0x01#32 ||| flags, errinfo := 0#32, bitLen := BitVec.ofNat 32 count, bitBuf := m }
        exec .cls s = .next (answered s b') ∧
        (∀ w < count,
          let k := num.peakBin ((List.range n).map fun j => (b.smpAt (w * n + j)).toInt)
          let dMark : Int := |(k * b.fsC.toNat : Int) - n * b.markC.toNat|
          let dSpace : Int := |(k * b.fsC.toNat : Int) - n * b.spaceC.toNat|
          (dMark < dSpace → b'.bitAt w = 1#1) ∧ (¬ dMark < dSpace → b'.bitAt w = 0#1)) ∧
        (∀ k, count ≤ k → b'.bitAt k = b.bitAt k))

/-! ### DFR and DEC -/

/-- R88: `unframe(frame(c)) = c` for every c in 0 to 127. -/
def Obligations.UnframeOfFrameIsTheCharacter : Prop :=
  ∀ c : Word, c.toNat ≤ 127 → (unframe (frame c)).zeroExtend 32 = c

/-- R154: DFR whole. The checks in their order, each with what it leaves, the flags over the whole input; and on success
OUT_LEN = BIT_LEN div 9, character g from the middle seven bits of group g, entries from OUT_LEN on and everything else
unchanged. -/
def Obligations.DfrDecodesGroupsOrFailsWhole : Prop :=
  ∀ s : State, let b := s.block; let len := b.bitLen.toNat; let count := len / 9
    let strict := b.ctrl.getLsbD 0
    let flags := flagIf 0x200#32 (len % 9 ≠ 0) ||| flagIf 0x400#32 (∃ g < count, b.bitAt (9 * g) ≠ 0#1) |||
      flagIf 0x800#32 (∃ g < count, b.bitAt (9 * g + 8) ≠ 1#1)
    (b.inst.bitCap < len → exec .dfr s = .next (answered s (withStatus b 0x53#32 2#32))) ∧
    (len ≤ b.inst.bitCap → b.inst.textCap < count → exec .dfr s = .next (answered s (withStatus b 0x53#32 1#32))) ∧
    (len ≤ b.inst.bitCap → count ≤ b.inst.textCap → strict = true → len % 9 ≠ 0 →
      exec .dfr s = .next (answered s (withStatus b (0x23#32 ||| flags) (BitVec.ofNat 32 (9 * count))))) ∧
    (len ≤ b.inst.bitCap → count ≤ b.inst.textCap → strict = true → len % 9 = 0 →
      ∀ k, WrongFramingBit b count k → (∀ j < k, ¬ WrongFramingBit b count j) →
        exec .dfr s = .next (answered s (withStatus b (0x33#32 ||| flags) (BitVec.ofNat 32 k)))) ∧
    (len ≤ b.inst.bitCap → count ≤ b.inst.textCap →
      (strict = false ∨ (len % 9 = 0 ∧ ∀ k, ¬ WrongFramingBit b count k)) →
      ∃ m : Buffer 7,
        let b' := { b with status := 0x01#32 ||| flags, errinfo := 0#32, outLen := BitVec.ofNat 32 count, txtOut := m }
        exec .dfr s = .next (answered s b') ∧
        (∀ g < count, (b'.txtOutAt g).toNat = ∑ j ∈ Finset.range 7, (b.bitAt (9 * g + 1 + j)).toNat * 2 ^ (6 - j)) ∧
        (∀ k, count ≤ k → b'.txtOutAt k = b.txtOutAt k))

/-- R155: in strict mode DFR ends without error exactly when the capacities suffice, the bit count is a multiple of 9 and
every start and stop bit is right; and with an error there is no text at all. -/
def Obligations.StrictDfrAcceptsOnlyCleanFrames : Prop :=
  ∀ s : State, let b := s.block; let len := b.bitLen.toNat
    b.ctrl.getLsbD 0 = true → ∃ t : State, exec .dfr s = .next t ∧
      (t.block.err = false ↔ (len ≤ b.inst.bitCap ∧ len / 9 ≤ b.inst.textCap ∧ len % 9 = 0 ∧
        ∀ g < len / 9, b.bitAt (9 * g) = 0#1 ∧ b.bitAt (9 * g + 8) = 1#1)) ∧
      (t.block.err = true → t.block.txtOut = b.txtOut ∧ t.block.outLen = b.outLen)

/-- R156 (c): if FRM succeeds on a text, DFR on what it wrote gives that text back, with no flag set, in either mode. -/
def Obligations.DfrInvertsFrm : Prop :=
  ∀ s t : State, s.block.inst.Legal → exec .frm s = .next t → t.block.err = false →
    ∃ u : State, exec .dfr t = .next u ∧ Clean u.block ∧ u.block.errinfo = 0#32 ∧ u.block.outLen = s.block.txtLen ∧
      ∀ i < s.block.txtLen.toNat, (u.block.txtOutAt i).zeroExtend 32 = s.block.txtInAt i

/-- R156 (b), (d): in lenient mode the text is a function of the middle seven bits of each group only: two bit streams that
agree on those decode to the same text, whatever their start and stop bits hold. -/
def Obligations.LenientTextIgnoresFramingBits : Prop :=
  ∀ s t s' t' : State, s.block.ctrl.getLsbD 0 = false → t.block.ctrl.getLsbD 0 = false →
    s.block.inst = t.block.inst → s.block.bitLen = t.block.bitLen →
    s.block.bitLen.toNat ≤ s.block.inst.bitCap → s.block.bitLen.toNat / 9 ≤ s.block.inst.textCap →
    (∀ g < s.block.bitLen.toNat / 9, ∀ j, 1 ≤ j → j ≤ 7 → s.block.bitAt (9 * g + j) = t.block.bitAt (9 * g + j)) →
    exec .dfr s = .next s' → exec .dfr t = .next t' →
      s'.block.outLen = t'.block.outLen ∧ ∀ g < s'.block.outLen.toNat, s'.block.txtOutAt g = t'.block.txtOutAt g

/-- R157: DEC is CLS, then, if CLS ended without error, DFR on what CLS wrote; the flags of both stages accumulate, and
there is one reply. -/
def Obligations.DecIsClsThenDfr : Prop :=
  ∀ s : State, ∃ t : State, exec .cls s = .next t ∧
    (t.block.err = true → exec .dec s = .next t) ∧
    (t.block.err = false → ∃ u : State, exec .dfr t = .next u ∧
      exec .dec s = .next (answered s (withStatus u.block (t.block.status ||| u.block.status) u.block.errinfo)))

/-- R203, R142, R154, R157: in lenient mode, with a legal configuration and sufficient capacities, decoding never raises. -/
def Obligations.LenientDecodeNeverRaises : Prop :=
  ∀ s : State, let b := s.block; let n := b.spb; let len := b.smpLen.toNat
    b.ctrl.getLsbD 0 = false →
    (n ≠ 0 → len ≤ b.inst.sampCap → len / n ≤ b.inst.bitCap →
      ∃ t : State, exec .cls s = .next t ∧ t.block.err = false ∧ t.block.bitLen = BitVec.ofNat 32 (len / n)) ∧
    (b.bitLen.toNat ≤ b.inst.bitCap → b.bitLen.toNat / 9 ≤ b.inst.textCap →
      ∃ t : State, exec .dfr s = .next t ∧ t.block.err = false ∧ t.block.outLen = BitVec.ofNat 32 (b.bitLen.toNat / 9)) ∧
    (n ≠ 0 → len ≤ b.inst.sampCap → len / n ≤ b.inst.bitCap → len / n / 9 ≤ b.inst.textCap →
      ∃ t : State, exec .dec s = .next t ∧ t.block.err = false ∧ t.block.outLen = BitVec.ofNat 32 (len / n / 9))

/-- R158: the round-trip law. If the configuration is discriminating and ENC succeeds, then DEC, in either mode and from any
state with the same configuration, SMP_LEN and samples, succeeds with no flag set, gives the text back, and leaves in BITBUF
the bits FRM produced. -/
def Obligations.DecInvertsEnc : Prop :=
  ∀ s t t' : State, s.block.inst.Legal → Discriminating num s.block → exec .enc s = .next t → t.block.err = false →
    t'.block.inst = t.block.inst → t'.block.baudC = t.block.baudC → t'.block.markC = t.block.markC →
    t'.block.spaceC = t.block.spaceC → t'.block.fsC = t.block.fsC → t'.block.smpLen = t.block.smpLen →
    (∀ i < t.block.smpLen.toNat, t'.block.smpAt i = t.block.smpAt i) →
      ∃ u : State, exec .dec t' = .next u ∧ Clean u.block ∧ u.block.errinfo = 0#32 ∧
        u.block.outLen = s.block.txtLen ∧
        (∀ i < s.block.txtLen.toNat, (u.block.txtOutAt i).zeroExtend 32 = s.block.txtInAt i) ∧
        u.block.bitLen = t.block.bitLen ∧ ∀ k < t.block.bitLen.toNat, u.block.bitAt k = t.block.bitAt k

/-! ### Rules over all commands -/

/-- R222: straight after a reset, whatever the instance, ENC gives SMP_LEN = 0 and DEC gives OUT_LEN = 0, no entry of any
buffer being written. -/
def Obligations.CommandsAfterResetGiveEmptyResults : Prop :=
  ∀ (s : State) (inst : Config.Instance) (e : Nat), s.block = Block.afterReset inst e →
    exec .enc s = .next (answered s { s.block with status := 0x01#32 }) ∧
    exec .dec s = .next (answered s { s.block with status := 0x01#32 }) ∧
    s.block.smpLen = 0#32 ∧ s.block.outLen = 0#32 ∧ s.block.bitLen = 0#32

/-- R15, R16, R235: every command and every bus transaction has a result, in every state; none stops the machine. -/
def Obligations.EveryInstructionCompletes : Prop := ∀ (i : Instr) (s : State), ∃ t : State, exec i s = .next t

/-- R199, R46, R228: a failed command writes nothing of its output. A failed single-stage command changes STATUS and ERRINFO
only; a failed ENC or DEC may besides have written BITBUF and BIT_LEN, its intermediate. -/
def Obligations.FailedCommandWritesNoOutput : Prop :=
  ∀ s t : State, t.block.err = true →
    (∀ i ∈ [Instr.frm, .syn, .cls, .dfr], exec i s = .next t →
      t.block = withStatus s.block t.block.status t.block.errinfo) ∧
    (∀ i ∈ [Instr.enc, .dec], exec i s = .next t →
      t.block = { s.block with status := t.block.status, errinfo := t.block.errinfo,
                               bitBuf := t.block.bitBuf, bitLen := t.block.bitLen })

/-- R191: which error codes a command can leave, and in which mode (columns "raised by" and "mode"). -/
def Obligations.EachCommandRaisesOnlyItsErrors : Prop :=
  ∀ s t : State,
    (exec .frm s = .next t → t.block.ecode.toNat ∈ [0, 1, 5]) ∧
    (exec .syn s = .next t → t.block.ecode.toNat ∈ [0, 4, 5]) ∧
    (exec .enc s = .next t → t.block.ecode.toNat ∈ [0, 1, 4, 5]) ∧
    (exec .cls s = .next t → t.block.ecode.toNat ∈ [0, 4, 5] ∨ (s.block.ctrl.getLsbD 0 = true ∧ t.block.ecode = 2#4)) ∧
    (exec .dfr s = .next t →
      t.block.ecode.toNat ∈ [0, 5] ∨ (s.block.ctrl.getLsbD 0 = true ∧ t.block.ecode.toNat ∈ [2, 3])) ∧
    (exec .dec s = .next t →
      t.block.ecode.toNat ∈ [0, 4, 5] ∨ (s.block.ctrl.getLsbD 0 = true ∧ t.block.ecode.toNat ∈ [2, 3])) ∧
    (exec .clr s = .next t ∨ exec .rst s = .next t → t.block.ecode = 0#4)

/-- R70: issuing the same command twice leaves the same block as issuing it once; after two RST only the free values of the
unwritten entries are new ones (log entry 4). -/
def Obligations.CommandsAreIdempotent : Prop :=
  (∀ (c : Command) (s t u : State), c ≠ .rst → exec c.instr s = .next t → exec c.instr t = .next u → u.block = t.block) ∧
  (∀ s t u : State, exec .rst s = .next t → exec .rst t = .next u →
    u.block = { t.block with epoch := u.block.epoch })

/-- R46, R75, R229: no command but RST depends on anything but the registers and the buffers' contents, the entries below
their length registers: two blocks that agree on these agree on them after the command, whatever else, written or not, the
buffers hold. -/
def Obligations.CommandsReadOnlyRegistersAndContents : Prop :=
  ∀ (c : Command) (s s' : State), c ≠ .rst → SameRegisters s.block s'.block → SameContents s.block s'.block →
    ∃ t t' : State, exec c.instr s = .next t ∧ exec c.instr s' = .next t' ∧
      SameRegisters t.block t'.block ∧ SameContents t.block t'.block
end

