-- ==== Sys2Proof/Laws/Decode.lean ====
section
/-! SUPPORT. The laws of the decoder: the fields of the two formats come back, and what a write decodes to. -/

namespace Sys2Proof

/-! ### The fields of the two formats -/

theorem readBits_rw (addr : Word) : (0#1 ++ addr : BitVec 33).getLsbD 32 = false :=
  (BitVec.getLsbD_append (x := 0#1) (y := addr) (i := 32)).trans (by simp)

theorem readBits_addr (addr : Word) : (0#1 ++ addr : BitVec 33).extractLsb' 0 32 = addr := by
  ext i hi
  rw [BitVec.getElem_extractLsb', Nat.zero_add]
  exact (BitVec.getLsbD_append (x := 0#1) (y := addr) (i := i)).trans (by simp [hi])

theorem writeBits_rw (addr data : Word) : (1#1 ++ addr ++ data : BitVec 65).getLsbD 64 = true :=
  (BitVec.getLsbD_append (x := 1#1 ++ addr) (y := data) (i := 64)).trans
    (by simpa using (BitVec.getLsbD_append (x := 1#1) (y := addr) (i := 32)).trans (by simp))

theorem writeBits_addr (addr data : Word) : (1#1 ++ addr ++ data : BitVec 65).extractLsb' 32 32 = addr := by
  ext i hi
  rw [BitVec.getElem_extractLsb']
  refine (BitVec.getLsbD_append (x := 1#1 ++ addr) (y := data) (i := 32 + i)).trans ?_
  refine Eq.trans ?_ ((BitVec.getLsbD_append (x := 1#1) (y := addr) (i := i)).trans (by simp [hi]))
  simp

theorem writeBits_data (addr data : Word) : (1#1 ++ addr ++ data : BitVec 65).extractLsb' 0 32 = data := by
  ext i hi
  rw [BitVec.getElem_extractLsb', Nat.zero_add]
  exact (BitVec.getLsbD_append (x := 1#1 ++ addr) (y := data) (i := i)).trans (by simp [hi])

/-! ### Decoding -/

/-- A BUS-RD request decodes to the read of its address. -/
@[simp] theorem decode_readRequest (addr : Word) : decode (readRequest addr) = .instr (.rd addr) := by
  simp only [readRequest, decode, readBits_rw, readBits_addr]
  rfl

/-- A BUS-WR request decodes to the write of its data to its address. -/
@[simp] theorem decode_writeRequest (addr data : Word) :
    decode (writeRequest addr data) = .instr (decodeWrite addr data) := by
  simp only [writeRequest, decode, writeBits_rw, writeBits_addr, writeBits_data]
  rfl

/-- Every legal command word names its command. -/
@[simp] theorem commandOf_word (c : Command) : commandOf c.word = some c := by cases c <;> decide

/-- A word that names a command is that command's word. -/
theorem word_of_commandOf {w : Word} {c : Command} (h : commandOf w = some c) : c.word = w := by
  have := List.find?_some h
  simpa using this

/-- The write of a command's word to CMD decodes to the command. -/
@[simp] theorem decodeWrite_command (c : Command) : decodeWrite cmdAddr c.word = c.instr := by
  simp [decodeWrite]

end Sys2Proof
end

