-- ==== Sys2Proof/Laws/Memory.lean ====
section
/-! SUPPORT. The laws of buffers: a read after a write, what a write leaves alone, and that every operation keeps the
canonical form. -/

namespace Sys2Proof.Machine

variable {w : Nat}

/-! ### One entry -/

@[simp] theorem Memory.read?_nil (i : Nat) : Memory.read? ([] : Buffer w) i = none := rfl

theorem Memory.read?_cons (k : Nat) (u : BitVec w) (m : Buffer w) (i : Nat) :
    Memory.read? ((k, u) :: m) i = if i = k then some u else Memory.read? m i := by
  by_cases h : i = k
  · simp [Memory.read?, List.lookup, h]
  · simp [Memory.read?, List.lookup, h, beq_false_of_ne h]

/-- A read after a write to the same entry gives the value written. -/
@[simp] theorem Memory.read?_write_self (m : Buffer w) (i : Nat) (v : BitVec w) :
    Memory.read? (Memory.write m i v) i = some v := by
  induction m with
  | nil => simp [Memory.write, Memory.read?_cons]
  | cons c m ih =>
    obtain ⟨k, u⟩ := c
    unfold Memory.write
    split
    · simp [Memory.read?_cons]
    · split
      · simp [Memory.read?_cons]
      · simp [Memory.read?_cons, *]

/-- A write leaves every other entry alone. -/
theorem Memory.read?_write_other (m : Buffer w) {i j : Nat} (v : BitVec w) (h : j ≠ i) :
    Memory.read? (Memory.write m i v) j = Memory.read? m j := by
  induction m with
  | nil => simp [Memory.write, Memory.read?_cons, h]
  | cons c m ih =>
    obtain ⟨k, u⟩ := c
    unfold Memory.write
    split
    · simp [Memory.read?_cons, h]
    · split
      · next hk => subst hk; simp [Memory.read?_cons, h]
      · simp [Memory.read?_cons, ih]

/-- What a read of any entry gives after a write of one. -/
theorem Memory.read_write (free : Nat → BitVec w) (m : Buffer w) (i j : Nat) (v : BitVec w) :
    Memory.read free (Memory.write m i v) j = if j = i then v else Memory.read free m j := by
  by_cases h : j = i
  · subst h; simp [Memory.read]
  · simp [Memory.read, Memory.read?_write_other m v h, h]

/-- The indices a write lists: the one written and those listed before. -/
theorem Memory.mem_write {m : Buffer w} {i : Nat} {v : BitVec w} {c : Nat × BitVec w} (h : c ∈ Memory.write m i v) :
    c = (i, v) ∨ c ∈ m := by
  induction m with
  | nil => simpa [Memory.write] using h
  | cons d m ih =>
    obtain ⟨k, u⟩ := d
    unfold Memory.write at h
    split at h
    · simpa using h
    · split at h
      · rcases List.mem_cons.1 h with h | h
        · exact .inl h
        · exact .inr (List.mem_cons_of_mem _ h)
      · rcases List.mem_cons.1 h with h | h
        · exact .inr (h ▸ List.mem_cons_self)
        · rcases ih h with h | h
          · exact .inl h
          · exact .inr (List.mem_cons_of_mem _ h)

/-- A write keeps the canonical form. -/
theorem Memory.write_keeps_wf {m : Buffer w} (i : Nat) (v : BitVec w) (h : Memory.wf m) :
    Memory.wf (Memory.write m i v) := by
  induction m with
  | nil => simp [Memory.write, Memory.wf]
  | cons d m ih =>
    obtain ⟨k, u⟩ := d
    have ⟨hk, hm⟩ := List.pairwise_cons.1 h
    unfold Memory.write
    split
    · next hik =>
      refine List.pairwise_cons.2 ⟨fun c hc => ?_, h⟩
      rcases List.mem_cons.1 hc with rfl | hc
      · exact hik
      · exact Nat.lt_trans hik (hk c hc)
    · split
      · next hik => subst hik; exact List.pairwise_cons.2 ⟨hk, hm⟩
      · next h1 h2 =>
        refine List.pairwise_cons.2 ⟨fun c hc => ?_, ih hm⟩
        rcases Memory.mem_write hc with rfl | hc
        · simp only; omega
        · exact hk c hc

/-! ### A whole output buffer -/

/-- The indices of consecutive entries. -/
theorem Memory.mem_entriesFrom {i : Nat} {vs : List (BitVec w)} {c : Nat × BitVec w}
    (h : c ∈ Memory.entriesFrom i vs) : i ≤ c.1 ∧ c.1 < i + vs.length := by
  induction vs generalizing i with
  | nil => simp [Memory.entriesFrom] at h
  | cons v vs ih =>
    rcases List.mem_cons.1 h with rfl | h
    · simp
    · have := ih h; simp; omega

theorem Memory.entriesFrom_wf (i : Nat) (vs : List (BitVec w)) : Memory.wf (Memory.entriesFrom i vs) := by
  induction vs generalizing i with
  | nil => exact List.Pairwise.nil
  | cons v vs ih =>
    refine List.pairwise_cons.2 ⟨fun c hc => ?_, ih (i + 1)⟩
    have := Memory.mem_entriesFrom hc
    simp only; omega

theorem Memory.read?_append (m n : Buffer w) (i : Nat) :
    Memory.read? (m ++ n) i = (Memory.read? m i).or (Memory.read? n i) := by
  induction m with
  | nil => simp
  | cons c m ih =>
    obtain ⟨k, u⟩ := c
    by_cases h : i = k <;> simp [Memory.read?_cons, h, ih]

theorem Memory.read?_entriesFrom (i : Nat) (vs : List (BitVec w)) (j : Nat) :
    Memory.read? (Memory.entriesFrom i vs) j = if i ≤ j then vs[j - i]? else none := by
  induction vs generalizing i with
  | nil => simp [Memory.entriesFrom]
  | cons v vs ih =>
    rw [Memory.entriesFrom, Memory.read?_cons, ih]
    rcases Nat.lt_trichotomy i j with h | h | h
    · obtain ⟨d, rfl⟩ : ∃ d, j = i + 1 + d := ⟨j - (i + 1), by omega⟩
      have h1 : i + 1 + d - i = d + 1 := by omega
      simp [h1, show i + 1 + d ≠ i by omega, show i ≤ i + 1 + d by omega]
    · subst h; simp
    · simp [show j ≠ i by omega, show ¬ i ≤ j by omega, show ¬ i + 1 ≤ j by omega]

theorem Memory.read?_filter (m : Buffer w) (n i : Nat) :
    Memory.read? (m.filter fun c => decide (n ≤ c.1)) i = if n ≤ i then Memory.read? m i else none := by
  induction m with
  | nil => simp
  | cons c m ih =>
    obtain ⟨k, u⟩ := c
    by_cases hk : n ≤ k
    · rw [List.filter_cons_of_pos (by simpa using hk), Memory.read?_cons, Memory.read?_cons, ih]
      by_cases h : i = k
      · subst h; simp [hk]
      · simp [h]
    · rw [List.filter_cons_of_neg (by simpa using hk), ih, Memory.read?_cons]
      by_cases hi : n ≤ i
      · simp [hi, show i ≠ k by omega]
      · simp [hi]

/-- R46: writing a whole output writes entries 0 to LEN' - 1 and leaves the entries at index >= LEN' unchanged. -/
theorem Memory.read_writeFirst (free : Nat → BitVec w) (m : Buffer w) (vs : List (BitVec w)) (i : Nat) :
    Memory.read free (Memory.writeFirst m vs) i = if h : i < vs.length then vs[i] else Memory.read free m i := by
  unfold Memory.read Memory.writeFirst
  rw [Memory.read?_append, Memory.read?_entriesFrom, Memory.read?_filter]
  by_cases h : i < vs.length
  · simp [h]
  · simp [h, show vs.length ≤ i by omega]

theorem Memory.mem_writeFirst {m : Buffer w} {vs : List (BitVec w)} {c : Nat × BitVec w}
    (h : c ∈ Memory.writeFirst m vs) : c.1 < vs.length ∨ c ∈ m := by
  rcases List.mem_append.1 h with h | h
  · exact .inl (by simpa using (Memory.mem_entriesFrom h).2)
  · exact .inr (List.mem_of_mem_filter h)

/-- Writing a whole output keeps the canonical form. -/
theorem Memory.writeFirst_keeps_wf {m : Buffer w} (vs : List (BitVec w)) (h : Memory.wf m) :
    Memory.wf (Memory.writeFirst m vs) := by
  refine List.pairwise_append.2 ⟨Memory.entriesFrom_wf 0 vs, h.filter _, fun a ha c hc => ?_⟩
  have h1 := (Memory.mem_entriesFrom ha).2
  have h2 := List.of_mem_filter hc
  simp only [decide_eq_true_eq] at h2
  omega

/-! ### The four buffers' reads after an output is written -/

theorem Block.storeBits_bitAt (b : Block) (vs : List Bit) (i : Nat) :
    (b.storeBits vs).bitAt i = if h : i < vs.length then vs[i] else b.bitAt i :=
  Memory.read_writeFirst _ _ _ _

theorem Block.storeSamples_smpAt (b : Block) (vs : List Sample) (i : Nat) :
    (b.storeSamples vs).smpAt i = if h : i < vs.length then vs[i] else b.smpAt i :=
  Memory.read_writeFirst _ _ _ _

theorem Block.storeText_txtOutAt (b : Block) (vs : List Ordinal) (i : Nat) :
    (b.storeText vs).txtOutAt i = if h : i < vs.length then vs[i] else b.txtOutAt i :=
  Memory.read_writeFirst _ _ _ _

end Sys2Proof.Machine
end

