-- ==== Sys2Proof/Laws/PerInstr.lean ====
section
/-! SUPPORT. Statements made per instruction: the shape of its encoding (spec/30_encoding.md R80, R84). -/

/-- A command is encoded as a BUS-WR whose address field is the address of CMD and whose rw bit is 1, a WR as a BUS-WR with
its own address, an RD as a BUS-RD whose rw bit is 0. -/
def Sys2Proof.Laws.EncodingShape.Statement (i : Sys2Proof.Instr) : Prop :=
  match i, Sys2Proof.encode i with
  | .rd addr, .busRd bits => bits.getLsbD 32 = false ∧ bits.extractLsb' 0 32 = addr
  | .wr addr data, .busWr bits =>
    bits.getLsbD 64 = true ∧ bits.extractLsb' 32 32 = addr ∧ bits.extractLsb' 0 32 = data
  | .rd _, .busWr _ => False
  | .wr _ _, .busRd _ => False
  | _, .busWr bits => bits.getLsbD 64 = true ∧ bits.extractLsb' 32 32 = 0x00000002#32
  | _, .busRd _ => False

namespace Sys2Proof.Laws.EncodingShape

theorem nop : Statement .nop := ⟨writeBits_rw _ _, writeBits_addr _ _⟩
theorem frm : Statement .frm := ⟨writeBits_rw _ _, writeBits_addr _ _⟩
theorem syn : Statement .syn := ⟨writeBits_rw _ _, writeBits_addr _ _⟩
theorem enc : Statement .enc := ⟨writeBits_rw _ _, writeBits_addr _ _⟩
theorem cls : Statement .cls := ⟨writeBits_rw _ _, writeBits_addr _ _⟩
theorem dfr : Statement .dfr := ⟨writeBits_rw _ _, writeBits_addr _ _⟩
theorem dec : Statement .dec := ⟨writeBits_rw _ _, writeBits_addr _ _⟩
theorem clr : Statement .clr := ⟨writeBits_rw _ _, writeBits_addr _ _⟩
theorem rst : Statement .rst := ⟨writeBits_rw _ _, writeBits_addr _ _⟩
theorem rd (addr : Word) : Statement (.rd addr) := ⟨readBits_rw addr, readBits_addr addr⟩
theorem wr (addr data : Word) : Statement (.wr addr data) :=
  ⟨writeBits_rw addr data, writeBits_addr addr data, writeBits_data addr data⟩

end Sys2Proof.Laws.EncodingShape
end

