-- ==== Sys2Proof/Laws/State.lean ====
section
/-! SUPPORT. One lemma per field per update of a Block, and of State.complete: what an update writes and that it leaves the
rest alone, with the reads and operands that rest on the untouched fields. -/

namespace Sys2Proof.Machine

variable (b : Block)

/-! ### Block.raiseFlag -/

@[simp] theorem Block.raiseFlag_inst (m : Word) (c : Bool) : (b.raiseFlag m c).inst = b.inst := rfl
@[simp] theorem Block.raiseFlag_ctrl (m : Word) (c : Bool) : (b.raiseFlag m c).ctrl = b.ctrl := rfl
@[simp] theorem Block.raiseFlag_status (m : Word) (c : Bool) : (b.raiseFlag m c).status = if c then b.status ||| m else b.status := rfl
@[simp] theorem Block.raiseFlag_errinfo (m : Word) (c : Bool) : (b.raiseFlag m c).errinfo = b.errinfo := rfl
@[simp] theorem Block.raiseFlag_baudC (m : Word) (c : Bool) : (b.raiseFlag m c).baudC = b.baudC := rfl
@[simp] theorem Block.raiseFlag_markC (m : Word) (c : Bool) : (b.raiseFlag m c).markC = b.markC := rfl
@[simp] theorem Block.raiseFlag_spaceC (m : Word) (c : Bool) : (b.raiseFlag m c).spaceC = b.spaceC := rfl
@[simp] theorem Block.raiseFlag_fsC (m : Word) (c : Bool) : (b.raiseFlag m c).fsC = b.fsC := rfl
@[simp] theorem Block.raiseFlag_txtLen (m : Word) (c : Bool) : (b.raiseFlag m c).txtLen = b.txtLen := rfl
@[simp] theorem Block.raiseFlag_bitLen (m : Word) (c : Bool) : (b.raiseFlag m c).bitLen = b.bitLen := rfl
@[simp] theorem Block.raiseFlag_smpLen (m : Word) (c : Bool) : (b.raiseFlag m c).smpLen = b.smpLen := rfl
@[simp] theorem Block.raiseFlag_outLen (m : Word) (c : Bool) : (b.raiseFlag m c).outLen = b.outLen := rfl
@[simp] theorem Block.raiseFlag_txtIn (m : Word) (c : Bool) : (b.raiseFlag m c).txtIn = b.txtIn := rfl
@[simp] theorem Block.raiseFlag_bitBuf (m : Word) (c : Bool) : (b.raiseFlag m c).bitBuf = b.bitBuf := rfl
@[simp] theorem Block.raiseFlag_smp (m : Word) (c : Bool) : (b.raiseFlag m c).smp = b.smp := rfl
@[simp] theorem Block.raiseFlag_txtOut (m : Word) (c : Bool) : (b.raiseFlag m c).txtOut = b.txtOut := rfl
@[simp] theorem Block.raiseFlag_epoch (m : Word) (c : Bool) : (b.raiseFlag m c).epoch = b.epoch := rfl
@[simp] theorem Block.raiseFlag_spb (m : Word) (c : Bool) : (b.raiseFlag m c).spb = b.spb := rfl
@[simp] theorem Block.raiseFlag_strict (m : Word) (c : Bool) : (b.raiseFlag m c).strict = b.strict := rfl
@[simp] theorem Block.raiseFlag_txtInAt (m : Word) (c : Bool) : (b.raiseFlag m c).txtInAt = b.txtInAt := rfl
@[simp] theorem Block.raiseFlag_bitAt (m : Word) (c : Bool) : (b.raiseFlag m c).bitAt = b.bitAt := rfl
@[simp] theorem Block.raiseFlag_smpAt (m : Word) (c : Bool) : (b.raiseFlag m c).smpAt = b.smpAt := rfl
@[simp] theorem Block.raiseFlag_txtOutAt (m : Word) (c : Bool) : (b.raiseFlag m c).txtOutAt = b.txtOutAt := rfl
@[simp] theorem Block.raiseFlag_text (m : Word) (c : Bool) : (b.raiseFlag m c).text = b.text := rfl
@[simp] theorem Block.raiseFlag_bits (m : Word) (c : Bool) : (b.raiseFlag m c).bits = b.bits := rfl
@[simp] theorem Block.raiseFlag_window (m : Word) (c : Bool) : (b.raiseFlag m c).window = b.window := rfl
@[simp] theorem Block.raiseFlag_windows (m : Word) (c : Bool) : (b.raiseFlag m c).windows = b.windows := rfl
@[simp] theorem Block.raiseFlag_group (m : Word) (c : Bool) : (b.raiseFlag m c).group = b.group := rfl
@[simp] theorem Block.raiseFlag_groups (m : Word) (c : Bool) : (b.raiseFlag m c).groups = b.groups := rfl
@[simp] theorem Block.raiseFlag_tone (m : Word) (c : Bool) : (b.raiseFlag m c).tone = b.tone := rfl

/-! ### Block.fail -/

@[simp] theorem Block.fail_inst (e : ErrorCode) (n : Nat) : (b.fail e n).inst = b.inst := rfl
@[simp] theorem Block.fail_ctrl (e : ErrorCode) (n : Nat) : (b.fail e n).ctrl = b.ctrl := rfl
@[simp] theorem Block.fail_status (e : ErrorCode) (n : Nat) : (b.fail e n).status = statusWithError b.status e := rfl
@[simp] theorem Block.fail_errinfo (e : ErrorCode) (n : Nat) : (b.fail e n).errinfo = BitVec.ofNat 32 n := rfl
@[simp] theorem Block.fail_baudC (e : ErrorCode) (n : Nat) : (b.fail e n).baudC = b.baudC := rfl
@[simp] theorem Block.fail_markC (e : ErrorCode) (n : Nat) : (b.fail e n).markC = b.markC := rfl
@[simp] theorem Block.fail_spaceC (e : ErrorCode) (n : Nat) : (b.fail e n).spaceC = b.spaceC := rfl
@[simp] theorem Block.fail_fsC (e : ErrorCode) (n : Nat) : (b.fail e n).fsC = b.fsC := rfl
@[simp] theorem Block.fail_txtLen (e : ErrorCode) (n : Nat) : (b.fail e n).txtLen = b.txtLen := rfl
@[simp] theorem Block.fail_bitLen (e : ErrorCode) (n : Nat) : (b.fail e n).bitLen = b.bitLen := rfl
@[simp] theorem Block.fail_smpLen (e : ErrorCode) (n : Nat) : (b.fail e n).smpLen = b.smpLen := rfl
@[simp] theorem Block.fail_outLen (e : ErrorCode) (n : Nat) : (b.fail e n).outLen = b.outLen := rfl
@[simp] theorem Block.fail_txtIn (e : ErrorCode) (n : Nat) : (b.fail e n).txtIn = b.txtIn := rfl
@[simp] theorem Block.fail_bitBuf (e : ErrorCode) (n : Nat) : (b.fail e n).bitBuf = b.bitBuf := rfl
@[simp] theorem Block.fail_smp (e : ErrorCode) (n : Nat) : (b.fail e n).smp = b.smp := rfl
@[simp] theorem Block.fail_txtOut (e : ErrorCode) (n : Nat) : (b.fail e n).txtOut = b.txtOut := rfl
@[simp] theorem Block.fail_epoch (e : ErrorCode) (n : Nat) : (b.fail e n).epoch = b.epoch := rfl
@[simp] theorem Block.fail_spb (e : ErrorCode) (n : Nat) : (b.fail e n).spb = b.spb := rfl
@[simp] theorem Block.fail_strict (e : ErrorCode) (n : Nat) : (b.fail e n).strict = b.strict := rfl
@[simp] theorem Block.fail_txtInAt (e : ErrorCode) (n : Nat) : (b.fail e n).txtInAt = b.txtInAt := rfl
@[simp] theorem Block.fail_bitAt (e : ErrorCode) (n : Nat) : (b.fail e n).bitAt = b.bitAt := rfl
@[simp] theorem Block.fail_smpAt (e : ErrorCode) (n : Nat) : (b.fail e n).smpAt = b.smpAt := rfl
@[simp] theorem Block.fail_txtOutAt (e : ErrorCode) (n : Nat) : (b.fail e n).txtOutAt = b.txtOutAt := rfl
@[simp] theorem Block.fail_text (e : ErrorCode) (n : Nat) : (b.fail e n).text = b.text := rfl
@[simp] theorem Block.fail_bits (e : ErrorCode) (n : Nat) : (b.fail e n).bits = b.bits := rfl
@[simp] theorem Block.fail_window (e : ErrorCode) (n : Nat) : (b.fail e n).window = b.window := rfl
@[simp] theorem Block.fail_windows (e : ErrorCode) (n : Nat) : (b.fail e n).windows = b.windows := rfl
@[simp] theorem Block.fail_group (e : ErrorCode) (n : Nat) : (b.fail e n).group = b.group := rfl
@[simp] theorem Block.fail_groups (e : ErrorCode) (n : Nat) : (b.fail e n).groups = b.groups := rfl
@[simp] theorem Block.fail_tone (e : ErrorCode) (n : Nat) : (b.fail e n).tone = b.tone := rfl

/-! ### Block.clearStatus -/

@[simp] theorem Block.clearStatus_inst : (b.clearStatus).inst = b.inst := rfl
@[simp] theorem Block.clearStatus_ctrl : (b.clearStatus).ctrl = b.ctrl := rfl
@[simp] theorem Block.clearStatus_status : (b.clearStatus).status = 0#32 := rfl
@[simp] theorem Block.clearStatus_errinfo : (b.clearStatus).errinfo = 0#32 := rfl
@[simp] theorem Block.clearStatus_baudC : (b.clearStatus).baudC = b.baudC := rfl
@[simp] theorem Block.clearStatus_markC : (b.clearStatus).markC = b.markC := rfl
@[simp] theorem Block.clearStatus_spaceC : (b.clearStatus).spaceC = b.spaceC := rfl
@[simp] theorem Block.clearStatus_fsC : (b.clearStatus).fsC = b.fsC := rfl
@[simp] theorem Block.clearStatus_txtLen : (b.clearStatus).txtLen = b.txtLen := rfl
@[simp] theorem Block.clearStatus_bitLen : (b.clearStatus).bitLen = b.bitLen := rfl
@[simp] theorem Block.clearStatus_smpLen : (b.clearStatus).smpLen = b.smpLen := rfl
@[simp] theorem Block.clearStatus_outLen : (b.clearStatus).outLen = b.outLen := rfl
@[simp] theorem Block.clearStatus_txtIn : (b.clearStatus).txtIn = b.txtIn := rfl
@[simp] theorem Block.clearStatus_bitBuf : (b.clearStatus).bitBuf = b.bitBuf := rfl
@[simp] theorem Block.clearStatus_smp : (b.clearStatus).smp = b.smp := rfl
@[simp] theorem Block.clearStatus_txtOut : (b.clearStatus).txtOut = b.txtOut := rfl
@[simp] theorem Block.clearStatus_epoch : (b.clearStatus).epoch = b.epoch := rfl
@[simp] theorem Block.clearStatus_spb : (b.clearStatus).spb = b.spb := rfl
@[simp] theorem Block.clearStatus_strict : (b.clearStatus).strict = b.strict := rfl
@[simp] theorem Block.clearStatus_txtInAt : (b.clearStatus).txtInAt = b.txtInAt := rfl
@[simp] theorem Block.clearStatus_bitAt : (b.clearStatus).bitAt = b.bitAt := rfl
@[simp] theorem Block.clearStatus_smpAt : (b.clearStatus).smpAt = b.smpAt := rfl
@[simp] theorem Block.clearStatus_txtOutAt : (b.clearStatus).txtOutAt = b.txtOutAt := rfl
@[simp] theorem Block.clearStatus_text : (b.clearStatus).text = b.text := rfl
@[simp] theorem Block.clearStatus_bits : (b.clearStatus).bits = b.bits := rfl
@[simp] theorem Block.clearStatus_window : (b.clearStatus).window = b.window := rfl
@[simp] theorem Block.clearStatus_windows : (b.clearStatus).windows = b.windows := rfl
@[simp] theorem Block.clearStatus_group : (b.clearStatus).group = b.group := rfl
@[simp] theorem Block.clearStatus_groups : (b.clearStatus).groups = b.groups := rfl
@[simp] theorem Block.clearStatus_tone : (b.clearStatus).tone = b.tone := rfl

/-! ### Block.setDone -/

@[simp] theorem Block.setDone_inst : (b.setDone).inst = b.inst := rfl
@[simp] theorem Block.setDone_ctrl : (b.setDone).ctrl = b.ctrl := rfl
@[simp] theorem Block.setDone_status : (b.setDone).status = b.status ||| maskDone := rfl
@[simp] theorem Block.setDone_errinfo : (b.setDone).errinfo = b.errinfo := rfl
@[simp] theorem Block.setDone_baudC : (b.setDone).baudC = b.baudC := rfl
@[simp] theorem Block.setDone_markC : (b.setDone).markC = b.markC := rfl
@[simp] theorem Block.setDone_spaceC : (b.setDone).spaceC = b.spaceC := rfl
@[simp] theorem Block.setDone_fsC : (b.setDone).fsC = b.fsC := rfl
@[simp] theorem Block.setDone_txtLen : (b.setDone).txtLen = b.txtLen := rfl
@[simp] theorem Block.setDone_bitLen : (b.setDone).bitLen = b.bitLen := rfl
@[simp] theorem Block.setDone_smpLen : (b.setDone).smpLen = b.smpLen := rfl
@[simp] theorem Block.setDone_outLen : (b.setDone).outLen = b.outLen := rfl
@[simp] theorem Block.setDone_txtIn : (b.setDone).txtIn = b.txtIn := rfl
@[simp] theorem Block.setDone_bitBuf : (b.setDone).bitBuf = b.bitBuf := rfl
@[simp] theorem Block.setDone_smp : (b.setDone).smp = b.smp := rfl
@[simp] theorem Block.setDone_txtOut : (b.setDone).txtOut = b.txtOut := rfl
@[simp] theorem Block.setDone_epoch : (b.setDone).epoch = b.epoch := rfl
@[simp] theorem Block.setDone_spb : (b.setDone).spb = b.spb := rfl
@[simp] theorem Block.setDone_strict : (b.setDone).strict = b.strict := rfl
@[simp] theorem Block.setDone_txtInAt : (b.setDone).txtInAt = b.txtInAt := rfl
@[simp] theorem Block.setDone_bitAt : (b.setDone).bitAt = b.bitAt := rfl
@[simp] theorem Block.setDone_smpAt : (b.setDone).smpAt = b.smpAt := rfl
@[simp] theorem Block.setDone_txtOutAt : (b.setDone).txtOutAt = b.txtOutAt := rfl
@[simp] theorem Block.setDone_text : (b.setDone).text = b.text := rfl
@[simp] theorem Block.setDone_bits : (b.setDone).bits = b.bits := rfl
@[simp] theorem Block.setDone_window : (b.setDone).window = b.window := rfl
@[simp] theorem Block.setDone_windows : (b.setDone).windows = b.windows := rfl
@[simp] theorem Block.setDone_group : (b.setDone).group = b.group := rfl
@[simp] theorem Block.setDone_groups : (b.setDone).groups = b.groups := rfl
@[simp] theorem Block.setDone_tone : (b.setDone).tone = b.tone := rfl

/-! ### Block.storeBits -/

@[simp] theorem Block.storeBits_inst (v : List Bit) : (b.storeBits v).inst = b.inst := rfl
@[simp] theorem Block.storeBits_ctrl (v : List Bit) : (b.storeBits v).ctrl = b.ctrl := rfl
@[simp] theorem Block.storeBits_status (v : List Bit) : (b.storeBits v).status = b.status := rfl
@[simp] theorem Block.storeBits_errinfo (v : List Bit) : (b.storeBits v).errinfo = b.errinfo := rfl
@[simp] theorem Block.storeBits_baudC (v : List Bit) : (b.storeBits v).baudC = b.baudC := rfl
@[simp] theorem Block.storeBits_markC (v : List Bit) : (b.storeBits v).markC = b.markC := rfl
@[simp] theorem Block.storeBits_spaceC (v : List Bit) : (b.storeBits v).spaceC = b.spaceC := rfl
@[simp] theorem Block.storeBits_fsC (v : List Bit) : (b.storeBits v).fsC = b.fsC := rfl
@[simp] theorem Block.storeBits_txtLen (v : List Bit) : (b.storeBits v).txtLen = b.txtLen := rfl
@[simp] theorem Block.storeBits_bitLen (v : List Bit) : (b.storeBits v).bitLen = BitVec.ofNat 32 v.length := rfl
@[simp] theorem Block.storeBits_smpLen (v : List Bit) : (b.storeBits v).smpLen = b.smpLen := rfl
@[simp] theorem Block.storeBits_outLen (v : List Bit) : (b.storeBits v).outLen = b.outLen := rfl
@[simp] theorem Block.storeBits_txtIn (v : List Bit) : (b.storeBits v).txtIn = b.txtIn := rfl
@[simp] theorem Block.storeBits_bitBuf (v : List Bit) : (b.storeBits v).bitBuf = Memory.writeFirst b.bitBuf v := rfl
@[simp] theorem Block.storeBits_smp (v : List Bit) : (b.storeBits v).smp = b.smp := rfl
@[simp] theorem Block.storeBits_txtOut (v : List Bit) : (b.storeBits v).txtOut = b.txtOut := rfl
@[simp] theorem Block.storeBits_epoch (v : List Bit) : (b.storeBits v).epoch = b.epoch := rfl
@[simp] theorem Block.storeBits_spb (v : List Bit) : (b.storeBits v).spb = b.spb := rfl
@[simp] theorem Block.storeBits_strict (v : List Bit) : (b.storeBits v).strict = b.strict := rfl
@[simp] theorem Block.storeBits_txtInAt (v : List Bit) : (b.storeBits v).txtInAt = b.txtInAt := rfl
@[simp] theorem Block.storeBits_smpAt (v : List Bit) : (b.storeBits v).smpAt = b.smpAt := rfl
@[simp] theorem Block.storeBits_txtOutAt (v : List Bit) : (b.storeBits v).txtOutAt = b.txtOutAt := rfl
@[simp] theorem Block.storeBits_text (v : List Bit) : (b.storeBits v).text = b.text := rfl
@[simp] theorem Block.storeBits_window (v : List Bit) : (b.storeBits v).window = b.window := rfl
@[simp] theorem Block.storeBits_windows (v : List Bit) : (b.storeBits v).windows = b.windows := rfl
@[simp] theorem Block.storeBits_tone (v : List Bit) : (b.storeBits v).tone = b.tone := rfl

/-! ### Block.storeSamples -/

@[simp] theorem Block.storeSamples_inst (v : List Sample) : (b.storeSamples v).inst = b.inst := rfl
@[simp] theorem Block.storeSamples_ctrl (v : List Sample) : (b.storeSamples v).ctrl = b.ctrl := rfl
@[simp] theorem Block.storeSamples_status (v : List Sample) : (b.storeSamples v).status = b.status := rfl
@[simp] theorem Block.storeSamples_errinfo (v : List Sample) : (b.storeSamples v).errinfo = b.errinfo := rfl
@[simp] theorem Block.storeSamples_baudC (v : List Sample) : (b.storeSamples v).baudC = b.baudC := rfl
@[simp] theorem Block.storeSamples_markC (v : List Sample) : (b.storeSamples v).markC = b.markC := rfl
@[simp] theorem Block.storeSamples_spaceC (v : List Sample) : (b.storeSamples v).spaceC = b.spaceC := rfl
@[simp] theorem Block.storeSamples_fsC (v : List Sample) : (b.storeSamples v).fsC = b.fsC := rfl
@[simp] theorem Block.storeSamples_txtLen (v : List Sample) : (b.storeSamples v).txtLen = b.txtLen := rfl
@[simp] theorem Block.storeSamples_bitLen (v : List Sample) : (b.storeSamples v).bitLen = b.bitLen := rfl
@[simp] theorem Block.storeSamples_smpLen (v : List Sample) : (b.storeSamples v).smpLen = BitVec.ofNat 32 v.length := rfl
@[simp] theorem Block.storeSamples_outLen (v : List Sample) : (b.storeSamples v).outLen = b.outLen := rfl
@[simp] theorem Block.storeSamples_txtIn (v : List Sample) : (b.storeSamples v).txtIn = b.txtIn := rfl
@[simp] theorem Block.storeSamples_bitBuf (v : List Sample) : (b.storeSamples v).bitBuf = b.bitBuf := rfl
@[simp] theorem Block.storeSamples_smp (v : List Sample) : (b.storeSamples v).smp = Memory.writeFirst b.smp v := rfl
@[simp] theorem Block.storeSamples_txtOut (v : List Sample) : (b.storeSamples v).txtOut = b.txtOut := rfl
@[simp] theorem Block.storeSamples_epoch (v : List Sample) : (b.storeSamples v).epoch = b.epoch := rfl
@[simp] theorem Block.storeSamples_spb (v : List Sample) : (b.storeSamples v).spb = b.spb := rfl
@[simp] theorem Block.storeSamples_strict (v : List Sample) : (b.storeSamples v).strict = b.strict := rfl
@[simp] theorem Block.storeSamples_txtInAt (v : List Sample) : (b.storeSamples v).txtInAt = b.txtInAt := rfl
@[simp] theorem Block.storeSamples_bitAt (v : List Sample) : (b.storeSamples v).bitAt = b.bitAt := rfl
@[simp] theorem Block.storeSamples_txtOutAt (v : List Sample) : (b.storeSamples v).txtOutAt = b.txtOutAt := rfl
@[simp] theorem Block.storeSamples_text (v : List Sample) : (b.storeSamples v).text = b.text := rfl
@[simp] theorem Block.storeSamples_bits (v : List Sample) : (b.storeSamples v).bits = b.bits := rfl
@[simp] theorem Block.storeSamples_group (v : List Sample) : (b.storeSamples v).group = b.group := rfl
@[simp] theorem Block.storeSamples_groups (v : List Sample) : (b.storeSamples v).groups = b.groups := rfl
@[simp] theorem Block.storeSamples_tone (v : List Sample) : (b.storeSamples v).tone = b.tone := rfl

/-! ### Block.storeText -/

@[simp] theorem Block.storeText_inst (v : List Ordinal) : (b.storeText v).inst = b.inst := rfl
@[simp] theorem Block.storeText_ctrl (v : List Ordinal) : (b.storeText v).ctrl = b.ctrl := rfl
@[simp] theorem Block.storeText_status (v : List Ordinal) : (b.storeText v).status = b.status := rfl
@[simp] theorem Block.storeText_errinfo (v : List Ordinal) : (b.storeText v).errinfo = b.errinfo := rfl
@[simp] theorem Block.storeText_baudC (v : List Ordinal) : (b.storeText v).baudC = b.baudC := rfl
@[simp] theorem Block.storeText_markC (v : List Ordinal) : (b.storeText v).markC = b.markC := rfl
@[simp] theorem Block.storeText_spaceC (v : List Ordinal) : (b.storeText v).spaceC = b.spaceC := rfl
@[simp] theorem Block.storeText_fsC (v : List Ordinal) : (b.storeText v).fsC = b.fsC := rfl
@[simp] theorem Block.storeText_txtLen (v : List Ordinal) : (b.storeText v).txtLen = b.txtLen := rfl
@[simp] theorem Block.storeText_bitLen (v : List Ordinal) : (b.storeText v).bitLen = b.bitLen := rfl
@[simp] theorem Block.storeText_smpLen (v : List Ordinal) : (b.storeText v).smpLen = b.smpLen := rfl
@[simp] theorem Block.storeText_outLen (v : List Ordinal) : (b.storeText v).outLen = BitVec.ofNat 32 v.length := rfl
@[simp] theorem Block.storeText_txtIn (v : List Ordinal) : (b.storeText v).txtIn = b.txtIn := rfl
@[simp] theorem Block.storeText_bitBuf (v : List Ordinal) : (b.storeText v).bitBuf = b.bitBuf := rfl
@[simp] theorem Block.storeText_smp (v : List Ordinal) : (b.storeText v).smp = b.smp := rfl
@[simp] theorem Block.storeText_txtOut (v : List Ordinal) : (b.storeText v).txtOut = Memory.writeFirst b.txtOut v := rfl
@[simp] theorem Block.storeText_epoch (v : List Ordinal) : (b.storeText v).epoch = b.epoch := rfl
@[simp] theorem Block.storeText_spb (v : List Ordinal) : (b.storeText v).spb = b.spb := rfl
@[simp] theorem Block.storeText_strict (v : List Ordinal) : (b.storeText v).strict = b.strict := rfl
@[simp] theorem Block.storeText_txtInAt (v : List Ordinal) : (b.storeText v).txtInAt = b.txtInAt := rfl
@[simp] theorem Block.storeText_bitAt (v : List Ordinal) : (b.storeText v).bitAt = b.bitAt := rfl
@[simp] theorem Block.storeText_smpAt (v : List Ordinal) : (b.storeText v).smpAt = b.smpAt := rfl
@[simp] theorem Block.storeText_text (v : List Ordinal) : (b.storeText v).text = b.text := rfl
@[simp] theorem Block.storeText_bits (v : List Ordinal) : (b.storeText v).bits = b.bits := rfl
@[simp] theorem Block.storeText_window (v : List Ordinal) : (b.storeText v).window = b.window := rfl
@[simp] theorem Block.storeText_windows (v : List Ordinal) : (b.storeText v).windows = b.windows := rfl
@[simp] theorem Block.storeText_group (v : List Ordinal) : (b.storeText v).group = b.group := rfl
@[simp] theorem Block.storeText_groups (v : List Ordinal) : (b.storeText v).groups = b.groups := rfl
@[simp] theorem Block.storeText_tone (v : List Ordinal) : (b.storeText v).tone = b.tone := rfl

/-! ### Block.reset -/

@[simp] theorem Block.reset_inst : (b.reset).inst = b.inst := rfl
@[simp] theorem Block.reset_ctrl : (b.reset).ctrl = 0#32 := rfl
@[simp] theorem Block.reset_status : (b.reset).status = 0#32 := rfl
@[simp] theorem Block.reset_errinfo : (b.reset).errinfo = 0#32 := rfl
@[simp] theorem Block.reset_baudC : (b.reset).baudC = 4545#32 := rfl
@[simp] theorem Block.reset_markC : (b.reset).markC = 212500#32 := rfl
@[simp] theorem Block.reset_spaceC : (b.reset).spaceC = 229500#32 := rfl
@[simp] theorem Block.reset_fsC : (b.reset).fsC = 4410000#32 := rfl
@[simp] theorem Block.reset_txtLen : (b.reset).txtLen = 0#32 := rfl
@[simp] theorem Block.reset_bitLen : (b.reset).bitLen = 0#32 := rfl
@[simp] theorem Block.reset_smpLen : (b.reset).smpLen = 0#32 := rfl
@[simp] theorem Block.reset_outLen : (b.reset).outLen = 0#32 := rfl
@[simp] theorem Block.reset_txtIn : (b.reset).txtIn = [] := rfl
@[simp] theorem Block.reset_bitBuf : (b.reset).bitBuf = [] := rfl
@[simp] theorem Block.reset_smp : (b.reset).smp = [] := rfl
@[simp] theorem Block.reset_txtOut : (b.reset).txtOut = [] := rfl
@[simp] theorem Block.reset_epoch : (b.reset).epoch = b.epoch + 1 := rfl

/-! ### State.complete -/

@[simp] theorem State.complete_block (s : State) (r : Reply) : (s.complete b r).block = b := rfl
@[simp] theorem State.complete_pending (s : State) (r : Reply) : (s.complete b r).pending = s.pending := rfl
@[simp] theorem State.complete_replies (s : State) (r : Reply) : (s.complete b r).replies = r :: s.replies := rfl

end Sys2Proof.Machine
end

