-- ==== Sys2Proof/Laws/Status.lean ====
section
/-! SUPPORT. STATUS under the shared operations: what sets ERR, what leaves it, and the status words of the errors. -/

namespace Sys2Proof.Machine

/-! ### ERR -/

@[simp] theorem ErrorCode.ecode_bit1 (e : ErrorCode) : (e.ecode <<< 4).getLsbD 1 = false := by cases e <;> decide

/-- A stage that fails ends with ERR = 1 (R199). -/
@[simp] theorem Block.fail_err (b : Block) (e : ErrorCode) (n : Nat) : (b.fail e n).err = true := by
  have h1 : (~~~maskEcode).getLsbD 1 = true := by decide
  have h2 : maskErr.getLsbD 1 = true := by decide
  simp [Block.err, statusWithError, h2]

@[simp] theorem Block.clearStatus_err (b : Block) : b.clearStatus.err = false := by simp [Block.err]

@[simp] theorem Block.setDone_err (b : Block) : b.setDone.err = b.err := by
  have h : maskDone.getLsbD 1 = false := by decide
  simp only [Block.err, Block.setDone_status, BitVec.getLsbD_or, h, Bool.or_false]

@[simp] theorem Block.storeBits_err (b : Block) (v : List Bit) : (b.storeBits v).err = b.err := rfl
@[simp] theorem Block.storeSamples_err (b : Block) (v : List Sample) : (b.storeSamples v).err = b.err := rfl
@[simp] theorem Block.storeText_err (b : Block) (v : List Ordinal) : (b.storeText v).err = b.err := rfl

/-- A flag whose mask does not hold bit 1 leaves ERR alone. -/
theorem Block.raiseFlag_err_of (b : Block) {m : Word} (c : Bool) (h : m.getLsbD 1 = false) :
    (b.raiseFlag m c).err = b.err := by
  cases c
  · rfl
  · simp only [Block.err, Block.raiseFlag_status, if_true, BitVec.getLsbD_or, h, Bool.or_false]

@[simp] theorem Block.raiseFlag_trailSmp_err (b : Block) (c : Bool) : (b.raiseFlag maskTrailSmp c).err = b.err :=
  b.raiseFlag_err_of c (by decide)
@[simp] theorem Block.raiseFlag_trailBit_err (b : Block) (c : Bool) : (b.raiseFlag maskTrailBit c).err = b.err :=
  b.raiseFlag_err_of c (by decide)
@[simp] theorem Block.raiseFlag_start_err (b : Block) (c : Bool) : (b.raiseFlag maskStart c).err = b.err :=
  b.raiseFlag_err_of c (by decide)
@[simp] theorem Block.raiseFlag_stop_err (b : Block) (c : Bool) : (b.raiseFlag maskStop c).err = b.err :=
  b.raiseFlag_err_of c (by decide)
@[simp] theorem Block.raiseFlag_ambig_err (b : Block) (c : Bool) : (b.raiseFlag maskAmbig c).err = b.err :=
  b.raiseFlag_err_of c (by decide)

/-! ### Status words -/

/-- The word an error leaves after DONE is set, on a STATUS that holds no flag. -/
def errorWord : ErrorCode → Word
  | .encoding => 0x13#32
  | .misalign => 0x23#32
  | .framing  => 0x33#32
  | .config   => 0x43#32
  | .capacity => 0x53#32
  | .illcmd   => 0x63#32

/-- The word an error leaves, the flags set before it staying set (R199). -/
theorem statusWithError_of_flags {f : Word} (e : ErrorCode) (h : f &&& maskEcode = 0#32) :
    statusWithError f e ||| maskDone = f ||| errorWord e := by
  have h1 : f &&& ~~~maskEcode = f := by
    have : f = (f &&& maskEcode) ||| (f &&& ~~~maskEcode) := by
      rw [← BitVec.and_or_distrib_left]
      rw [show maskEcode ||| ~~~maskEcode = BitVec.allOnes 32 by decide, BitVec.and_allOnes]
    rw [h, BitVec.zero_or] at this
    exact this.symm
  rw [statusWithError, h1, BitVec.or_assoc, BitVec.or_assoc]
  congr 1
  cases e <;> decide

@[simp] theorem statusWithError_zero (e : ErrorCode) : statusWithError 0#32 e ||| maskDone = errorWord e := by
  rw [statusWithError_of_flags e (by decide), BitVec.zero_or]

end Sys2Proof.Machine
end

