-- ==== Sys2Proof/Laws/Stages.lean ====
section
/-! SUPPORT. What each stage can do, said once: a stage either fails, with nothing but STATUS and ERRINFO written, or stores
its whole output; with the conditions of each case. And what running stages can do. -/

namespace Sys2Proof.Machine

/-! ### The least index with a property -/

theorem findIdx?_map_range_none {α : Type} (f : Nat → α) (p : α → Bool) (n : Nat) :
    ((List.range n).map f).findIdx? p = none ↔ ∀ i < n, p (f i) = false := by
  simp [List.findIdx?_eq_none_iff]

theorem findIdx?_map_range_some {α : Type} (f : Nat → α) (p : α → Bool) (n k : Nat) :
    ((List.range n).map f).findIdx? p = some k ↔ k < n ∧ p (f k) = true ∧ ∀ i < k, p (f i) = false := by
  rw [List.findIdx?_eq_some_iff_getElem]
  constructor
  · rintro ⟨hk, hp, hlt⟩
    have hk' : k < n := by simpa using hk
    refine ⟨hk', by simpa using hp, fun i hi => ?_⟩
    simpa using hlt i hi
  · rintro ⟨hk, hp, hlt⟩
    refine ⟨by simpa using hk, by simpa using hp, fun i hi => ?_⟩
    simpa using hlt i hi

/-! ### FRM (R100) -/

theorem frmStage_cases (b : Block) :
    (b.inst.textCap < b.txtLen.toNat ∧ frmStage b = b.fail .capacity 1) ∨
    (b.txtLen.toNat ≤ b.inst.textCap ∧ b.inst.bitCap < 9 * b.txtLen.toNat ∧ frmStage b = b.fail .capacity 2) ∨
    (b.txtLen.toNat ≤ b.inst.textCap ∧ 9 * b.txtLen.toNat ≤ b.inst.bitCap ∧
      ∃ bad < b.txtLen.toNat, 127 < (b.txtInAt bad).toNat ∧ (∀ i < bad, (b.txtInAt i).toNat ≤ 127) ∧
        frmStage b = b.fail .encoding bad) ∨
    (b.txtLen.toNat ≤ b.inst.textCap ∧ 9 * b.txtLen.toNat ≤ b.inst.bitCap ∧
      (∀ i < b.txtLen.toNat, (b.txtInAt i).toNat ≤ 127) ∧
        frmStage b = b.storeBits ((b.text b.txtLen.toNat).flatMap frame)) := by
  unfold frmStage
  dsimp only
  split
  · next h => exact .inl ⟨h, rfl⟩
  · next h =>
    split
    · next h2 => exact .inr (.inl ⟨by omega, h2, rfl⟩)
    · next h2 =>
      split
      · next bad hb =>
        obtain ⟨h3, h4, h5⟩ := (findIdx?_map_range_some _ _ _ _).1 hb
        exact .inr (.inr (.inl ⟨by omega, by omega, bad, h3, by simpa using h4, fun i hi => by simpa using h5 i hi, rfl⟩))
      · next hb =>
        have h3 := (findIdx?_map_range_none _ _ _).1 hb
        exact .inr (.inr (.inr ⟨by omega, by omega, fun i hi => by simpa using h3 i hi, rfl⟩))

/-! ### SYN (R118) -/

theorem synStage_cases (nm : Config.Num) (b : Block) :
    (b.spb = 0 ∧ synStage nm b = b.fail .config 0) ∨
    (b.spb ≠ 0 ∧ b.inst.bitCap < b.bitLen.toNat ∧ synStage nm b = b.fail .capacity 2) ∨
    (b.spb ≠ 0 ∧ b.bitLen.toNat ≤ b.inst.bitCap ∧ b.inst.sampCap < b.bitLen.toNat * b.spb ∧
      synStage nm b = b.fail .capacity 3) ∨
    (b.spb ≠ 0 ∧ b.bitLen.toNat ≤ b.inst.bitCap ∧ b.bitLen.toNat * b.spb ≤ b.inst.sampCap ∧
      synStage nm b = b.storeSamples ((b.bits b.bitLen.toNat).flatMap (b.segment nm b.spb))) := by
  unfold synStage
  dsimp only
  split
  · next h => exact .inl ⟨h, rfl⟩
  · next h =>
    split
    · next h2 => exact .inr (.inl ⟨h, h2, rfl⟩)
    · next h2 =>
      split
      · next h3 => exact .inr (.inr (.inl ⟨h, by omega, h3, rfl⟩))
      · next h3 => exact .inr (.inr (.inr ⟨h, by omega, by omega, rfl⟩))

/-! ### CLS (R142) -/

/-- The block with CLS's flags, given the index of the first all-zero window. -/
def Block.clsFlags (b : Block) (firstAmbiguous : Option Nat) : Block :=
  (b.raiseFlag maskTrailSmp (b.smpLen.toNat % b.spb != 0)).raiseFlag maskAmbig firstAmbiguous.isSome

theorem clsStage_cases (nm : Config.Num) (b : Block) :
    (b.spb = 0 ∧ clsStage nm b = b.fail .config 0) ∨
    (b.spb ≠ 0 ∧ b.inst.sampCap < b.smpLen.toNat ∧ clsStage nm b = b.fail .capacity 3) ∨
    (b.spb ≠ 0 ∧ b.smpLen.toNat ≤ b.inst.sampCap ∧ b.inst.bitCap < b.smpLen.toNat / b.spb ∧
      clsStage nm b = b.fail .capacity 2) ∨
    (b.spb ≠ 0 ∧ b.smpLen.toNat ≤ b.inst.sampCap ∧ b.smpLen.toNat / b.spb ≤ b.inst.bitCap ∧
      ∃ za, (b.windows b.spb (b.smpLen.toNat / b.spb)).findIdx? ambiguous = za ∧
        ((b.strict = true ∧ ∃ w, za = some w ∧ clsStage nm b = (b.clsFlags za).fail .misalign w) ∨
         ((b.strict = false ∨ za = none) ∧ clsStage nm b =
          (b.clsFlags za).storeBits
            ((b.windows b.spb (b.smpLen.toNat / b.spb)).map (b.classify nm b.spb))))) := by
  unfold clsStage Block.clsFlags
  dsimp only
  split
  · next h => exact .inl ⟨h, rfl⟩
  · next h =>
    split
    · next h2 => exact .inr (.inl ⟨h, h2, rfl⟩)
    · next h2 =>
      split
      · next h3 => exact .inr (.inr (.inl ⟨h, by omega, h3, rfl⟩))
      · next h3 =>
        refine .inr (.inr (.inr ⟨h, by omega, by omega, _, rfl, ?_⟩))
        split
        · next w hs hw => exact .inl ⟨hs, w, hw, rfl⟩
        · next hn =>
          refine .inr ⟨?_, rfl⟩
          cases hs : b.strict with
          | false => exact .inl rfl
          | true =>
            refine .inr ?_
            cases hz : (b.windows b.spb (b.smpLen.toNat / b.spb)).findIdx? ambiguous with
            | none => rfl
            | some w => exact absurd hz (hn w hs)

/-! ### DFR (R154) -/

/-- The first complete group, of the first n, with a wrong start bit. -/
def Block.firstBadStart (b : Block) (n : Nat) : Option Nat := (b.groups n).findIdx? badStart

/-- The first complete group, of the first n, with a wrong stop bit. -/
def Block.firstBadStop (b : Block) (n : Nat) : Option Nat := (b.groups n).findIdx? badStop

/-- The block with DFR's flags. -/
def Block.dfrFlags (b : Block) : Block :=
  ((b.raiseFlag maskTrailBit (b.bitLen.toNat % 9 != 0)).raiseFlag maskStart
    (b.firstBadStart (b.bitLen.toNat / 9)).isSome).raiseFlag maskStop (b.firstBadStop (b.bitLen.toNat / 9)).isSome

theorem dfrStage_cases (b : Block) :
    (b.inst.bitCap < b.bitLen.toNat ∧ dfrStage b = b.fail .capacity 2) ∨
    (b.bitLen.toNat ≤ b.inst.bitCap ∧ b.inst.textCap < b.bitLen.toNat / 9 ∧ dfrStage b = b.fail .capacity 1) ∨
    (b.bitLen.toNat ≤ b.inst.bitCap ∧ b.bitLen.toNat / 9 ≤ b.inst.textCap ∧
      ((b.strict = true ∧ b.bitLen.toNat % 9 ≠ 0 ∧
          dfrStage b = b.dfrFlags.fail .misalign (9 * (b.bitLen.toNat / 9))) ∨
       (b.strict = true ∧ b.bitLen.toNat % 9 = 0 ∧ ∃ k,
          firstFramingFault (b.firstBadStart (b.bitLen.toNat / 9)) (b.firstBadStop (b.bitLen.toNat / 9)) = some k ∧
          dfrStage b = b.dfrFlags.fail .framing k) ∨
       ((b.strict = false ∨ (b.bitLen.toNat % 9 = 0 ∧
            firstFramingFault (b.firstBadStart (b.bitLen.toNat / 9)) (b.firstBadStop (b.bitLen.toNat / 9)) = none)) ∧
          dfrStage b = b.dfrFlags.storeText ((b.groups (b.bitLen.toNat / 9)).map unframe)))) := by
  unfold dfrStage Block.dfrFlags Block.firstBadStart Block.firstBadStop
  dsimp only
  split
  · next h => exact .inl ⟨h, rfl⟩
  · next h =>
    split
    · next h2 => exact .inr (.inl ⟨by omega, h2, rfl⟩)
    · next h2 =>
      refine .inr (.inr ⟨by omega, by omega, ?_⟩)
      split
      · next h3 =>
        simp only [Bool.and_eq_true, bne_iff_ne] at h3
        exact .inl ⟨h3.1, h3.2, rfl⟩
      · next h3 =>
        simp only [Bool.and_eq_true, bne_iff_ne, not_and, not_not] at h3
        refine .inr ?_
        split
        · next k hs hk => exact .inl ⟨hs, h3 hs, k, hk, rfl⟩
        · next hn =>
          refine .inr ⟨?_, rfl⟩
          cases hs : b.strict with
          | false => exact .inl rfl
          | true =>
            refine .inr ⟨h3 hs, ?_⟩
            cases hz : firstFramingFault ((b.groups (b.bitLen.toNat / 9)).findIdx? badStart)
              ((b.groups (b.bitLen.toNat / 9)).findIdx? badStop) with
            | none => rfl
            | some k => exact absurd hz (hn k hs)

/-! ### Running stages (R170) -/

theorem runCommandStages_one (stage : Block → Block) (b : Block) :
    runCommandStages [stage] b = (stage b.clearStatus).setDone := by
  unfold runCommandStages runStages
  dsimp only
  split <;> rfl

theorem runCommandStages_two (first second : Block → Block) (b : Block) :
    runCommandStages [first, second] b =
      if (first b.clearStatus).err then (first b.clearStatus).setDone
      else (second (first b.clearStatus)).setDone := by
  unfold runCommandStages runStages runStages runStages
  dsimp only
  split
  · rfl
  · split <;> rfl

/-! ### exec and step -/

/-- Every instruction answers a next state whose pending events are the old ones and whose replies are one more: exec i is a
change of the block and a reply. -/
theorem exec_eq_complete (i : Instr) (s : State) : ∃ b r, exec i s = .next (s.complete b r) := by
  cases i <;> exact ⟨_, _, rfl⟩

/-- What a step can do. -/
theorem step_cases (s : State) :
    (s.pending = [] ∧ step s = .next s) ∨
    (∃ rest, s.pending = .hardwareReset :: rest ∧ step s = .next { s with block := s.block.reset, pending := rest }) ∨
    (∃ r rest i, s.pending = .bus r :: rest ∧ decode r = .instr i ∧ step s = exec i { s with pending := rest }) ∨
    (∃ r rest e, s.pending = .bus r :: rest ∧ decode r = .rejected e ∧ step s = .refused .malformedRequest) := by
  cases hp : s.pending with
  | nil => exact .inl ⟨rfl, by simp [step, hp]⟩
  | cons e rest =>
    cases e with
    | hardwareReset => exact .inr (.inl ⟨rest, rfl, by simp [step, hp]⟩)
    | bus r =>
      cases hd : decode r with
      | instr i => exact .inr (.inr (.inl ⟨r, rest, i, rfl, hd, by simp [step, hp, hd]⟩))
      | rejected e => exact .inr (.inr (.inr ⟨r, rest, e, rfl, hd, by simp [step, hp, hd]⟩))

end Sys2Proof.Machine
end

