-- ==== Sys2Proof/Machine/HostNotation.lean ====
section
/-! DEFINITION. The notation of host programs (spec/30_encoding.md R92, R93): targets and values, one line per transaction,
and the pseudo-instructions with their expansions. The notation's characters are not modelled, its terms are. -/

namespace Sys2Proof.Machine

/-- `<target>` of R92. -/
inductive Target where
  | reg (r : Reg)
  | txtIn (i : Nat)
  | bitBuf (i : Nat)
  | smp (i : Nat)
  | txtOut (i : Nat)
  | address (a : Word)
deriving DecidableEq, Repr

/-- `<value>` of R92: a number, a negative one being taken mod 2^32, or a character. -/
inductive Value where
  | num (n : Int)
  | char (c : Char)
deriving DecidableEq, Repr

/-- A line of a host program (R92); a read may note the data it expects. -/
inductive Line where
  | wr (t : Target) (v : Value)
  | rd (t : Target) (expected : Option Value)
deriving DecidableEq, Repr

/-- The pseudo-instructions of R93. -/
inductive Pseudo where
  | command (c : Command)
  | text (cs : List Char)
  | bits (bs : List Bit)
  | samples (vs : List Int)
  | config (baud mark space fs : Nat)
  | strict (on : Bool)
deriving DecidableEq, Repr

/-- The address of a register (R20, R81). -/
def regAddr : Reg → Word
  | .id      => 0x00000000#32
  | .ctrl    => 0x00000001#32
  | .cmd     => 0x00000002#32
  | .status  => 0x00000003#32
  | .errinfo => 0x00000004#32
  | .baudC   => 0x00000005#32
  | .markC   => 0x00000006#32
  | .spaceC  => 0x00000007#32
  | .fsC     => 0x00000008#32
  | .spb     => 0x00000009#32
  | .txtLen  => 0x0000000A#32
  | .bitLen  => 0x0000000B#32
  | .smpLen  => 0x0000000C#32
  | .outLen  => 0x0000000D#32
  | .capText => 0x0000000E#32
  | .capBit  => 0x0000000F#32
  | .capSamp => 0x00000010#32

/-- "A register name stands for its address ...; `BUF[i]` for the space base ... plus `i`." (R92) -/
def Target.addr : Target → Word
  | .reg r     => regAddr r
  | .txtIn i   => 0x10000000#32 + BitVec.ofNat 32 i
  | .bitBuf i  => 0x20000000#32 + BitVec.ofNat 32 i
  | .smp i     => 0x30000000#32 + BitVec.ofNat 32 i
  | .txtOut i  => 0x40000000#32 + BitVec.ofNat 32 i
  | .address a => a

/-- The data word of a value (R92). -/
def Value.word : Value → Word
  | .num n  => BitVec.ofInt 32 n
  | .char c => BitVec.ofNat 32 c.toNat

/-- The request of a line: the triple (rw, addr, data) of R80 (R92). -/
def Line.request : Line → Request
  | .wr t v => writeRequest t.addr v.word
  | .rd t _ => readRequest t.addr

/-- Does a reply meet what its line notes? -/
def Line.metBy : Line → Reply → Bool
  | .rd _ (some v), .read r d => r == .ok && d == v.word
  | .rd _ none, .read _ _ => true
  | .wr _ _, .write _ => true
  | .rd _ _, .write _ => false
  | .wr _ _, .read _ _ => false

/-- One write per entry, from entry 0 on, then the length register. -/
def loadBuffer (entry : Nat → Target) (len : Reg) (vs : List Value) : List Line :=
  (vs.zipIdx.map fun v => Line.wr (entry v.2) v.1) ++ [.wr (.reg len) (.num vs.length)]

/-- The expansions of R93. -/
def Pseudo.expand : Pseudo → List Line
  | .command c => [.wr (.reg .cmd) (.num c.word.toNat)]
  | .text cs => loadBuffer .txtIn .txtLen (cs.map .char)
  | .bits bs => loadBuffer .bitBuf .bitLen (bs.map fun b => .num b.toNat)
  | .samples vs => loadBuffer .smp .smpLen (vs.map .num)
  | .config baud mark space fs =>
    [.wr (.reg .baudC) (.num baud), .wr (.reg .markC) (.num mark), .wr (.reg .spaceC) (.num space), .wr (.reg .fsC) (.num fs)]
  | .strict on => [.wr (.reg .ctrl) (.num (if on then 1 else 0))]

/-- The host is to issue these lines next, in order. -/
def State.issue (s : State) (lines : List Line) : State :=
  { s with pending := lines.map (fun l => .bus l.request) ++ s.pending }

end Sys2Proof.Machine
end

