-- ==== Sys2Proof/Tests/Slice0.lean ====
section
/-! SUPPORT. The model's own tests. Expected values come from the spec: the opcode map (spec/30_encoding.md R80, R84), the
vectors and programs of spec/95_test_vectors.md (named V<n>, P<n>), and, for the witnesses, the rule a statement cites. The
small configuration is that of V50: `CONFIG 100, 100, 300, 800`, 8 samples per bit; the small instance is that of V20. -/

namespace Sys2Proof.Tests

open Sys2Proof.Machine Sys2Proof.Safety

/-! ### Helpers -/

/-- The small instance of V20. -/
def tiny : Config.Instance := { textCap := 4, bitCap := 27, sampCap := 100 }

/-- A reset block of an instance with the small configuration. -/
def small (inst : Config.Instance) : Block :=
  { Block.afterReset inst 0 with baudC := 100#32, markC := 100#32, spaceC := 300#32, fsC := 800#32 }

/-- A block with bits, samples or text loaded as the pseudo-instructions of R93 load them. -/
def withBits (b : Block) (bits : List Nat) : Block :=
  { b with bitBuf := Memory.entriesFrom 0 (bits.map (BitVec.ofNat 1)), bitLen := BitVec.ofNat 32 bits.length }
def withSamples (b : Block) (vs : List Int) : Block :=
  { b with smp := Memory.entriesFrom 0 (vs.map (BitVec.ofInt 16)), smpLen := BitVec.ofNat 32 vs.length }
def withText (b : Block) (cs : List Nat) : Block :=
  { b with txtIn := Memory.entriesFrom 0 (cs.map (BitVec.ofNat 32)), txtLen := BitVec.ofNat 32 cs.length }
def strict (b : Block) : Block := { b with ctrl := 1#32 }

/-- The state with a block and nothing on the host side. -/
def st (b : Block) : State := { block := b, pending := [], replies := [] }

/-- The block after a list of instructions. -/
def after : List Instr → Block → Option Block
  | [], b => some b
  | i :: is, b =>
    match exec i (st b) with
    | .next t => after is t.block
    | .fault _ => none
    | .refused _ => none

/-- The reply to one instruction. -/
def reply (i : Instr) (b : Block) : Option Reply :=
  match exec i (st b) with
  | .next t => t.replies.head?
  | .fault _ => none
  | .refused _ => none

/-- STATUS, ERRINFO. -/
def report (b : Block) : Nat × Nat := (b.status.toNat, b.errinfo.toNat)

/-- The content of BITBUF, SMP, TXT_OUT (R46). -/
def bitsOf (b : Block) : List Nat := (b.bits b.bitLen.toNat).map (·.toNat)
def samplesOf (b : Block) : List Int := b.window b.smpLen.toNat 0
def textOf (b : Block) : List Nat := (List.range b.outLen.toNat).map fun i => (b.txtOutAt i).toNat

/-- The two segments of the small configuration (section 2.4 of the vectors). -/
def segM : List Int := [0, 23170, 32767, 23170, 0, -23170, -32767, -23170]
def segS : List Int := [0, 23170, -32767, 23170, 0, -23170, 32767, -23170]
def segZ : List Int := [0, 0, 0, 0, 0, 0, 0, 0]

/-! ### Well-formedness: the one check refuses a WR that is a command -/

theorem test_wellFormed_refuses_command_as_wr : wellFormed (.wr 0x00000002#32 0x00000003#32) = false := by decide
theorem test_wellFormed_accepts_illegal_word_as_wr : wellFormed (.wr 0x00000002#32 0x00000005#32) = true := by decide

/-! ### Decoding: a word of every row of the opcode map, written out (R80, R84) -/

theorem test_decode_nop : decodeTableWord 32 0b00000000000000000000000000000000 = some .nop := by decide
theorem test_decode_frm : decodeTableWord 32 0b00000000000000000000000000000001 = some .frm := by decide
theorem test_decode_syn : decodeTableWord 32 0b00000000000000000000000000000010 = some .syn := by decide
theorem test_decode_enc : decodeTableWord 32 0b00000000000000000000000000000011 = some .enc := by decide
theorem test_decode_cls : decodeTableWord 32 0b00000000000000000000000000000100 = some .cls := by decide
theorem test_decode_dfr : decodeTableWord 32 0b00000000000000000000000000001000 = some .dfr := by decide
theorem test_decode_dec : decodeTableWord 32 0b00000000000000000000000000001100 = some .dec := by decide
theorem test_decode_clr : decodeTableWord 32 0b00000000000000000000000000010000 = some .clr := by decide
theorem test_decode_rst : decodeTableWord 32 0b00000000000000000000000000100000 = some .rst := by decide

/-- rw = 0, space 3, index 0x3C9 (P1: RD SMP[969]); the row's 33 bits may come as whole bytes. -/
theorem test_decode_rd : decodeTableWord 33 0b0_0011_0000000000000000001111001001 = some (.rd 0x300003C9#32) ∧
    decodeTableWord 40 0b0_0011_0000000000000000001111001001 = some (.rd 0x300003C9#32) := by decide

/-- rw = 1, address 0x0000000A, data 2 (P2: WR TXT_LEN, 2). -/
theorem test_decode_wr :
    decodeTableWord 65 0b1_0000_0000000000000000000000001010_00000000000000000000000000000010 =
      some (.wr 0x0000000A#32 0x00000002#32) := by decide

/-- A request whose rw bit contradicts its length is rejected by name, an illegal command word is a WR. -/
theorem test_decode_rejects : decode (.busRd 0x100000000#33) = .rejected .readFormatSaysWrite ∧
    decode (.busWr 0x00000000200000001#65) = .rejected .writeFormatSaysRead ∧
    decodeTableWord 32 0x00000005 = some (.wr 0x00000002#32 0x00000005#32) ∧
    decodeTableWord 40 0x200000000 = none := by decide

/-- P1 writes ENC as `W 00000002 00000003`. -/
theorem test_encode_enc : encode .enc = .busWr 0x10000000200000003#65 := by decide

/-! ### Numerics -/

/-- V1 to V9i. -/
theorem test_spb_vectors :
    [(4410000, 4545), (500, 200), (700, 200), (300, 200), (100, 200), (101, 200), (99, 200), (100, 0), (0, 100), (800, 100),
      (4410000, 4410000), (4410000, 30000), (4800000, 5000), (2205000, 4545), (800000, 4545), (4294967295, 1), (800, 1600),
      (800, 1599)].map (fun c => samplesPerBit c.1 c.2) =
    [970, 2, 4, 2, 0, 1, 0, 0, 0, 8, 1, 147, 960, 485, 176, 4294967295, 0, 1] := by decide

/-- V30 to V39f. -/
theorem test_sinq_vectors :
    [(0, 8), (1, 8), (2, 8), (4, 8), (5, 8), (6, 8), (1, 12), (7, 12), (100, 1200), (1, 3), (212500, 4410000),
      (229500, 4410000), (1, 4410000), (1102500, 4410000), (1, 65536), (1, 1000)].map (fun c => num.sinq c.1 c.2) =
    [0, 23170, 32767, 0, -23170, -32767, 16384, -16384, 16384, 28377, 9770, 10524, 0, 32767, 3, 206] := by decide +kernel

/-- V42 to V49b: the exact ties among them (V47 five bins, V49 two bins) go to the lowest bin. -/
theorem test_peakBin_vectors :
    [segM, segS, [0, 32767, 0, -32767, 0, 32767, 0, -32767], segZ, List.replicate 8 1000, [0, 0, 0, 5, 0, 0, 0, 0],
      [100, -100, 100, -100, 100, -100, 100, -100], [0, 23170, 0, 23170, 0, -23170, 0, -23170],
      [0, 1, 1, 1, 0, -1, -1, -1], [0, 11585, 16383, 11585, 0, -11585, -16384, -11585]].map num.peakBin =
    [1, 3, 2, 0, 0, 0, 4, 1, 1, 1] := by decide +kernel

/-! ### One step of each instruction -/

/-- V94. -/
theorem test_nop_keeps_status :
    (after [.nop] { small tiny with status := 0x13#32, errinfo := 1#32 }).map report = some (0x13, 1) := by decide

/-- V95. -/
theorem test_clr_clears_status :
    (after [.clr] { small tiny with status := 0x13#32, errinfo := 1#32 }).map report = some (0, 0) := by decide

/-- V97. -/
theorem test_rst_restores_configuration :
    (after [.rst] { strict (small tiny) with txtLen := 3#32 }).map
      (fun b => [b.ctrl.toNat, b.baudC.toNat, b.markC.toNat, b.spaceC.toNat, b.fsC.toNat, b.spb, b.txtLen.toNat]) =
    some [0, 4545, 212500, 229500, 4410000, 970, 0] := by decide

/-- V11. -/
theorem test_frm_frames_Hi : (after [.frm] (withText (small tiny) [0x48, 0x69])).map (fun b => (report b, bitsOf b)) =
    some ((1, 0), [0, 1, 0, 0, 1, 0, 0, 0, 1, 0, 1, 1, 0, 1, 0, 0, 1, 1]) := by decide +kernel

/-- V24: capacity before content; V19: the index of the first offender. -/
theorem test_frm_errors :
    (after [.frm] { withText (small tiny) [0x80] with txtLen := 5#32 }).map report = some (0x53, 1) ∧
    (after [.frm] (withText (small tiny) [0x7F, 0x41, 0xFFFFFFFF])).map report = some (0x13, 2) := by decide +kernel

/-- V50: mark then space. -/
theorem test_syn_small : (after [.syn] (withBits (small tiny) [1, 0])).map (fun b => (report b, samplesOf b)) =
    some ((1, 0), segM ++ segS) := by decide +kernel

/-- V56: a mark tone above half the sample rate is its alias; V59b: one bit too many for SMP. -/
theorem test_syn_alias_and_capacity :
    (after [.syn] (withBits { small tiny with markC := 700#32 } [1])).map samplesOf =
      some [0, -23170, -32767, -23170, 0, 23170, 32767, 23170] ∧
    (after [.syn] (withBits (small tiny) (List.replicate 13 1))).map report = some (0x53, 3) := by decide +kernel

/-- V59e: FRM ran, then CONFIG; V59f: ENCODING wins over CONFIG. -/
theorem test_enc_errors :
    (after [.enc] (withText { small tiny with baudC := 0#32 } [0x41])).map (fun b => (report b, bitsOf b, b.smpLen)) =
      some ((0x43, 0), [0, 1, 0, 0, 0, 0, 0, 1, 1], 0#32) ∧
    (after [.enc] (withText { small tiny with baudC := 0#32 } [0x80])).map (fun b => (report b, b.bitLen)) =
      some ((0x13, 0), 0#32) := by decide +kernel

/-- V84 (lenient) and V85 (strict): M, a silent window, S. -/
theorem test_cls_silent_window :
    (after [.cls] (withSamples (small tiny) (segM ++ segZ ++ segS))).map (fun b => (report b, bitsOf b)) =
      some ((0x1001, 0), [1, 1, 0]) ∧
    (after [.cls] (withSamples (withBits (strict (small tiny)) [1, 1, 0, 0]) (segM ++ segZ ++ segS))).map
      (fun b => (report b, bitsOf b)) = some ((0x1023, 1), [1, 1, 0, 0]) := by decide +kernel

/-- V81: three trailing samples; V88: windows that straddle two segments tie exactly between bins 1 and 3. -/
theorem test_cls_trailing_and_straddling :
    (after [.cls] (withSamples (small tiny) (segM ++ segS ++ [1, 2, 3]))).map (fun b => (report b, bitsOf b)) =
      some ((0x101, 0), [1, 0]) ∧
    (after [.cls] (withSamples (small tiny) ((segM ++ segS ++ segM).drop 3))).map (fun b => (report b, bitsOf b)) =
      some ((0x101, 0), [1, 1]) := by decide +kernel

/-- V67. -/
theorem test_dfr_lenient : (after [.dfr] (withBits (small tiny) [1, 0, 1, 0, 1, 0, 1, 0, 0, 1, 1])).map
    (fun b => (report b, textOf b)) = some ((0xE01, 0), [0x2A]) := by decide +kernel

/-- V77 and V76a. -/
theorem test_dfr_strict :
    (after [.dfr] (withBits (strict (small tiny)) [1, 0, 1, 0, 1, 0, 1, 0, 0, 1, 1])).map report = some (0xE23, 9) ∧
    (after [.dfr] (withBits (strict (small tiny))
      [0, 1, 0, 0, 0, 0, 0, 1, 1, 0, 1, 0, 0, 0, 0, 1, 0, 0, 1, 1, 0, 0, 0, 0, 0, 1, 1])).map report =
      some (0xC33, 17) := by decide +kernel

/-- P5: "A" encoded and decoded, then decoded with the tones exchanged. -/
theorem test_dec_small_configuration :
    (after [.enc, .dec] (withText (small tiny) [0x41])).map (fun b => (report b, textOf b)) = some ((1, 0), [0x41]) ∧
    (after [.enc, .wr 0x00000006#32 300#32, .wr 0x00000007#32 100#32, .dec] (withText (small tiny) [0x41])).map
      (fun b => (report b, bitsOf b, textOf b)) = some ((0xC01, 0), [1, 0, 1, 1, 1, 1, 1, 0, 0], [0x3E]) := by
  decide +kernel

/-- V98, V99, V100, V101. -/
theorem test_rd_registers_and_unmapped :
    reply (.rd 0x00000000#32) State.reset.block = some (.read .ok 0x46534B39#32) ∧
    reply (.rd 0x00000002#32) State.reset.block = some (.read .ok 0#32) ∧
    reply (.rd 0x00000011#32) State.reset.block = some (.read .err 0#32) ∧
    reply (.rd 0x50000000#32) State.reset.block = some (.read .err 0#32) := by decide

/-- V105, V106: a sample reads sign-extended, a bit zero-extended. -/
theorem test_rd_width_conversion :
    (after [.wr 0x30000000#32 0x12348000#32, .wr 0x20000000#32 0x00000002#32] State.reset.block).map
      (fun b => (reply (.rd 0x30000000#32) b, reply (.rd 0x20000000#32) b)) =
    some (some (.read .ok 0xFFFF8000#32), some (.read .ok 0#32)) := by decide

/-- V102, V103, V104, V107. -/
theorem test_wr_masks_and_ignores :
    reply (.wr 0x10000040#32 1#32) State.reset.block = some (.write .err) ∧
    (after [.wr 0x00000009#32 5#32, .wr 0x00000001#32 0xFFFFFFFF#32, .wr 0x40000000#32 0x41#32] State.reset.block).map
      (fun b => (b.spb, b.ctrl, b.txtOut)) = some (970, 1#32, []) := by decide

/-- V93 and V96: an illegal word clears the old flags first. -/
theorem test_wr_illegal_command :
    (after [.wr 0x00000002#32 0x80000001#32] State.reset.block).map report = some (0x63, 0x80000001) ∧
    (after [.wr 0x00000002#32 6#32] { small tiny with status := 0xC01#32 }).map report = some (0x63, 6) := by decide

/-- R93: TEXT "A" is one write of the character and one of TXT_LEN, as P1 writes them out. -/
theorem test_pseudo_text : (Pseudo.text ['A']).expand.map Line.request =
    [.busWr 0x11000000000000041#65, .busWr 0x10000000A00000001#65] := by decide

/-- The first request after reset is fetched and executed: FRM of the empty text (V14), RD of a register (V98). -/
theorem test_step_runs_fetched_word :
    (match step (State.reset.withFetchWord 32 1) with
      | .next t => some (report t.block, t.pending, t.replies)
      | .fault _ => none
      | .refused _ => none) = some ((1, 0), [], [.write .ok]) ∧
    (match step (State.reset.withFetchWord 40 0) with
      | .next t => some t.replies
      | .fault _ => none
      | .refused _ => none) = some [.read .ok 0x46534B39#32] := by decide

/-! ### Witnesses: concrete states that meet the hypotheses of each statement, clause by clause, at the ends of their ranges -/

/-- A state of the tiny instance that a strict DFR of V76a leaves, DFR to be issued again. -/
def framed : State :=
  { block := { withBits (strict (small tiny)) [0, 1, 0, 0, 0, 0, 0, 1, 1, 0, 1, 0, 0, 0, 0, 1, 0, 0, 1, 1, 0, 0, 0, 0, 0, 1, 1] with
      status := 0xC33#32, errinfo := 17#32 }
    pending := [.bus (writeRequest 0x00000002#32 0x00000008#32)]
    replies := [] }

theorem witness_StepKeepsTheInvariant : Inv framed ∧ ∃ t, step framed = .next t := ⟨by decide +kernel, _, rfl⟩

theorem witness_StepRunsTheDecodedInstruction :
    (framed.pending = [.bus (writeRequest 0x00000002#32 0x00000008#32)] ∧
      decode (writeRequest 0x00000002#32 0x00000008#32) = .instr .dfr) ∧
    decode (.busRd 0x100000000#33) = .rejected .readFormatSaysWrite ∧ (∃ t, exec .dfr framed = .next t) :=
  ⟨⟨rfl, by decide⟩, by decide, _, rfl⟩

theorem witness_IdleStepHoldsTheState : State.reset.pending = [] := rfl

theorem witness_EachTransactionIsAnsweredOnce :
    framed.pending = .bus (writeRequest 0x00000002#32 0x00000008#32) :: [] ∧ ∃ t, step framed = .next t := ⟨rfl, _, rfl⟩

theorem witness_DecodeOfEncodeIsTheInstruction :
    wellFormed (.rd 0xFFFFFFFF#32) = true ∧ wellFormed (.wr 0x00000002#32 0xFFFFFFFF#32) = true ∧
      wellFormed (.wr 0x00000003#32 0x00000001#32) = true := by decide

theorem witness_DecodedRequestIsTheEncoding : decode (.busWr 0x1000000020000000C#65) = .instr .dec := by decide

theorem witness_IllegalCommandWordRaisesIllcmd :
    0x05#32 ∉ [0x00#32, 0x01#32, 0x02#32, 0x03#32, 0x04#32, 0x08#32, 0x0C#32, 0x10#32, 0x20#32] ∧
    0x80000001#32 ∉ [0x00#32, 0x01#32, 0x02#32, 0x03#32, 0x04#32, 0x08#32, 0x0C#32, 0x10#32, 0x20#32] := by decide

theorem witness_HardwareResetEqualsRst : ({ framed with pending := [.hardwareReset] } : State).pending =
    .hardwareReset :: [] := rfl

theorem witness_StatusDescribesTheLastCommandOnly : Command.clr ≠ .nop ∧ Command.dec ≠ .nop := by decide

theorem witness_ReadAnswersTheMappedWord :
    2 ^ 28 - 1 < 2 ^ 28 ∧ 3 < 2 ^ 28 ∧ 3 < (small tiny).inst.textCap ∧ 26 < (small tiny).inst.bitCap ∧
      99 < (small tiny).inst.sampCap ∧ Unmapped (small tiny).inst 0x50000000#32 := by decide

theorem witness_WriteToBufferStoresOneEntry :
    99 < 2 ^ 28 ∧ 0 < (small tiny).inst.textCap ∧ 26 < (small tiny).inst.bitCap ∧ 99 < (small tiny).inst.sampCap := by
  decide

/-- The first and the last unmapped address of every clause. -/
theorem witness_UnmappedAccessAnswersErr (a : Word)
    (h : a ∈ [0x00000011#32, 0x0FFFFFFF#32, 0x10000004#32, 0x1FFFFFFF#32, 0x2000001B#32, 0x2FFFFFFF#32, 0x30000064#32,
      0x3FFFFFFF#32, 0x40000004#32, 0x4FFFFFFF#32, 0x50000000#32, 0xFFFFFFFF#32]) : Unmapped tiny a := by
  simp only [List.mem_cons, List.not_mem_nil, or_false] at h
  rcases h with rfl | rfl | rfl | rfl | rfl | rfl | rfl | rfl | rfl | rfl | rfl | rfl <;> simp [Unmapped, tiny]

theorem witness_ReadReturnsTheLatestWrite :
    (3 < (small tiny).inst.textCap ∧ 26 < (small tiny).inst.bitCap ∧ 99 < (small tiny).inst.sampCap) ∧
      ((1, 2) : Nat × Nat) ≠ (1, 3) ∧
      (∃ t, exec (.wr (addrOf 1 3) 7#32) framed = .next t ∧ ∃ v, exec (.rd (addrOf 1 2)) t = .next v) ∧
      ∃ u, exec (.rd (addrOf 1 2)) framed = .next u :=
  ⟨by decide, by decide, ⟨_, rfl, _, rfl⟩, _, rfl⟩

theorem witness_CapacitiesNeverChange : ∃ t, step framed = .next t := ⟨_, rfl⟩

theorem witness_SpbIsTheRoundedQuotient :
    (Block.afterReset tiny 0).baudC ≠ 0#32 ∧ ({ small tiny with baudC := 0#32 } : Block).baudC = 0#32 ∧
    ({ small tiny with baudC := 200#32, fsC := 500#32 } : Block).baudC ≠ 0#32 := by decide

theorem witness_ZeroSpbRaisesConfig :
    ({ small tiny with baudC := 1600#32 } : Block).spb = 0 ∧
      ∃ t, exec .frm (st { small tiny with baudC := 1600#32 }) = .next t ∧ t.block.err = false :=
  ⟨by decide, _, rfl, by decide +kernel⟩

/-- TXT_LEN = 5 of 4; 36 bits of 27; a third character 128; three characters, the last 127. -/
theorem witness_FrmWritesFramesOrFailsWhole :
    (let b := { small tiny with txtLen := 5#32 }; b.inst.textCap < b.txtLen.toNat) ∧
    (let b := withText (small tiny) [97, 98, 99, 100]
     b.txtLen.toNat ≤ b.inst.textCap ∧ b.inst.bitCap < 9 * b.txtLen.toNat) ∧
    (let b := withText (small tiny) [0, 127, 128]
     b.txtLen.toNat ≤ b.inst.textCap ∧ 9 * b.txtLen.toNat ≤ b.inst.bitCap ∧ 2 < b.txtLen.toNat ∧
       127 < (b.txtInAt 2).toNat ∧ ∀ i < 2, (b.txtInAt i).toNat ≤ 127) ∧
    (let b := withText (small tiny) [0, 65, 127]
     b.txtLen.toNat ≤ b.inst.textCap ∧ 9 * b.txtLen.toNat ≤ b.inst.bitCap ∧
       ∀ i < b.txtLen.toNat, (b.txtInAt i).toNat ≤ 127) := by decide +kernel

theorem witness_SinqIsTheRoundedSine : 4294967294 < 4294967295 ∧ 4294967295 < 2 ^ 32 := by decide

theorem witness_DecidedSinqIsExact :
    64 ≤ 64 ∧ 0 < 8 ∧ 4 ≤ 8 ∧ sinqDecided 32767 64 4 8 = some 23170 := by decide +kernel

theorem witness_SinqAtItsSymmetriesPeaksAndTies :
    0 < 12 ∧ 12 % 2 = 0 ∧ 4 * 3 = 12 ∧ 4 * 9 = 3 * 12 ∧ 12 * 1 = 12 ∧ 12 * 5 = 5 * 12 ∧ 12 * 7 = 7 * 12 ∧
      12 * 11 = 11 * 12 := by decide

theorem witness_SampleIsWithinHalfOfTheSine :
    (4294967294 < 4294967295 ∧ 4294967295 < 2 ^ 32) ∧ 0 < 4294967295 ∧ 0 < 1 ∧ 1 < 2 ^ 32 := by decide

/-- V36 and V37 and the two ties between. -/
theorem witness_SinqTieTestIsExact :
    (1 < 12 ∧ 12 * 1 = 12) ∧ (5 < 12 ∧ 12 * 5 = 5 * 12) ∧ (7 < 12 ∧ 12 * 7 = 7 * 12) ∧ 11 < 12 ∧ 12 * 11 = 11 * 12 := by
  decide

/-- SPB = 0; 28 bits of 27; 104 samples of 100; 96 of 100. -/
theorem witness_SynWritesSegmentsOrFailsWhole :
    ({ small tiny with baudC := 0#32 } : Block).spb = 0 ∧
    (let b := { small tiny with bitLen := 28#32 }; b.spb ≠ 0 ∧ b.inst.bitCap < b.bitLen.toNat) ∧
    (let b := { small tiny with bitLen := 13#32 }
     b.spb ≠ 0 ∧ b.bitLen.toNat ≤ b.inst.bitCap ∧ b.inst.sampCap < b.bitLen.toNat * b.spb) ∧
    (let b := { small tiny with bitLen := 12#32 }
     b.spb ≠ 0 ∧ b.bitLen.toNat ≤ b.inst.bitCap ∧ b.bitLen.toNat * b.spb ≤ b.inst.sampCap) := by decide +kernel

theorem witness_EncIsFrmThenSyn :
    (∃ t, exec .frm (st (withText (small tiny) [128])) = .next t ∧ t.block.err = true) ∧
    (∃ t, exec .frm (st (withText (small tiny) [65])) = .next t ∧ t.block.err = false) :=
  ⟨⟨_, rfl, by decide +kernel⟩, _, rfl, by decide +kernel⟩

theorem witness_EncWritesTheTonesOfTheText :
    let b := withText (small tiny) [65]
    b.inst.Legal ∧ b.txtLen.toNat ≤ b.inst.textCap ∧ 9 * b.txtLen.toNat ≤ b.inst.bitCap ∧
      (∀ i < b.txtLen.toNat, (b.txtInAt i).toNat ≤ 127) ∧ b.spb ≠ 0 ∧ 9 * b.txtLen.toNat * b.spb ≤ b.inst.sampCap := by
  decide +kernel

theorem witness_PeakBinIsTheLeastStrongestBin :
    segM ++ [-32768] ≠ [] ∧ (segM ++ [-32768]).length ≤ 2 ^ 28 ∧ ∀ v ∈ segM ++ [-32768], -32768 ≤ v ∧ v ≤ 32767 := by
  decide

theorem witness_DecidedPeakBinIsExact : segM ≠ [] ∧ 64 ≤ 64 ∧ peakDecided segM 64 = some 1 := by decide +kernel

theorem witness_SamePowerIsExact : segM ≠ [] := by decide

theorem witness_PeakBinHasRangeZeroAndOne : ∀ v ∈ segZ, v = 0 := by decide

/-- Two blocks that agree on window 1 of two samples and on no other entry; a window and its negative double. -/
theorem witness_PeakBinDependsOnTheWindowUpToScale :
    (let a := withSamples (small tiny) [1, 2, 3, 4, 5]
     let b := withSamples (small tiny) [6, 7, 3, 4, 8]
     (∀ j < 2, a.smpAt (1 * 2 + j) = b.smpAt (1 * 2 + j)) ∧ a.smp ≠ b.smp) ∧
    (-2 : ℝ) ≠ 0 ∧ (([-2, -4] : List Int).map fun v => (v : ℝ)) = ([1, 2] : List Int).map fun v => (-2 : ℝ) * (v : ℝ) :=
  ⟨by decide, by norm_num, by norm_num⟩

/-- An impulse, and four samples that are exactly 3 * sin(2 pi n/4). -/
theorem witness_PeakBinOfConstantImpulseAndTone :
    (-1 : Int) ≠ 0 ∧ (3 : ℝ) ≠ 0 ∧ 0 < 1 ∧ 2 * 1 < ([0, 3, 0, -3] : List Int).length ∧
      ∀ n < ([0, 3, 0, -3] : List Int).length, (([0, 3, 0, -3] : List Int).getD n 0 : ℝ) =
        3 * Real.sin (2 * Real.pi * (1 : Nat) * n / ([0, 3, 0, -3] : List Int).length) := by
  have h1 : Real.sin (2 * Real.pi / 4) = 1 := by
    rw [show 2 * Real.pi / 4 = Real.pi / 2 by ring, Real.sin_pi_div_two]
  have h2 : Real.sin (2 * Real.pi * 2 / 4) = 0 := by
    rw [show 2 * Real.pi * 2 / 4 = Real.pi by ring, Real.sin_pi]
  have h3 : Real.sin (2 * Real.pi * 3 / 4) = -1 := by
    rw [show 2 * Real.pi * 3 / 4 = Real.pi / 2 + Real.pi by ring, Real.sin_add_pi, Real.sin_pi_div_two]
  refine ⟨by decide, by norm_num, by decide, by decide, fun n hn => ?_⟩
  simp only [List.length_cons, List.length_nil] at hn ⊢
  interval_cases n <;> norm_num [h1, h2, h3]

theorem witness_BitIsTheNearerTone : 0 < (small tiny).spb := by decide

theorem witness_BitIsAThresholdOnThePeakBin :
    0 < (small tiny).spb ∧ (small tiny).markC.toNat < (small tiny).spaceC.toNat ∧
      (let b := { small tiny with markC := 301#32 }; b.spaceC.toNat < b.markC.toNat) ∧
      (let b := { small tiny with markC := 300#32 }; b.markC.toNat = b.spaceC.toNat) := by decide

theorem witness_ZeroWindowReadsMarkIffMarkIsLower : 0 < 1 := by decide

/-- A peak in bin 1 is not equidistant from 1 Hz and 3 Hz, a peak in bin 2 is (V42, V44). -/
theorem witness_SwappingTonesComplementsTheBit :
    num.peakBin segM = 1 ∧ num.peakBin [0, 32767, 0, -32767, 0, 32767, 0, -32767] = 2 ∧
      |(1 * 800 : Int) - 8 * 100| ≠ |(1 * 800 : Int) - 8 * 300| ∧ |(2 * 800 : Int) - 8 * 100| = |(2 * 800 : Int) - 8 * 300| := by
  decide +kernel

/-- SPB = 0; 101 samples of 100; 28 windows of 27; a second window silent, strict; the same lenient; none silent, strict. -/
theorem witness_ClsClassifiesWindowsOrFailsWhole :
    ({ small tiny with baudC := 1600#32 } : Block).spb = 0 ∧
    (let b := { small tiny with smpLen := 101#32 }; b.spb ≠ 0 ∧ b.inst.sampCap < b.smpLen.toNat) ∧
    (let b := { small tiny with smpLen := 28#32, baudC := 1599#32 }
     b.spb ≠ 0 ∧ b.smpLen.toNat ≤ b.inst.sampCap ∧ b.inst.bitCap < b.smpLen.toNat / b.spb) ∧
    (let b := withSamples (strict (small tiny)) (segM ++ segZ ++ segZ)
     b.spb ≠ 0 ∧ b.smpLen.toNat ≤ b.inst.sampCap ∧ b.smpLen.toNat / b.spb ≤ b.inst.bitCap ∧ b.ctrl.getLsbD 0 = true ∧
       1 < b.smpLen.toNat / b.spb ∧ SilentWindow b b.spb 1 ∧ ∀ v < 1, ¬ SilentWindow b b.spb v) ∧
    (let b := withSamples (small tiny) (segM ++ segZ ++ [1])
     b.spb ≠ 0 ∧ b.smpLen.toNat ≤ b.inst.sampCap ∧ b.smpLen.toNat / b.spb ≤ b.inst.bitCap ∧ b.ctrl.getLsbD 0 = false) ∧
    (let b := withSamples (strict (small tiny)) (segM ++ segS)
     b.spb ≠ 0 ∧ b.smpLen.toNat ≤ b.inst.sampCap ∧ b.smpLen.toNat / b.spb ≤ b.inst.bitCap ∧
       ∀ w < b.smpLen.toNat / b.spb, ¬ SilentWindow b b.spb w) := by decide +kernel

theorem witness_UnframeOfFrameIsTheCharacter : (127#32).toNat ≤ 127 ∧ (0#32).toNat ≤ 127 := by decide

/-- 28 bits of 27; two characters of one (V79); strict with 13 bits (V72); strict with a wrong stop bit at index 8 (V74);
lenient; strict and clean. -/
theorem witness_DfrDecodesGroupsOrFailsWhole :
    (let b := { small tiny with bitLen := 28#32 }; b.inst.bitCap < b.bitLen.toNat) ∧
    (let b := withBits (small { tiny with textCap := 1 }) [0, 1, 0, 0, 0, 0, 0, 1, 1, 0, 1, 0, 0, 0, 0, 0, 1, 1]
     b.bitLen.toNat ≤ b.inst.bitCap ∧ b.inst.textCap < b.bitLen.toNat / 9) ∧
    (let b := withBits (strict (small tiny)) [0, 1, 0, 0, 0, 0, 0, 1, 1, 0, 1, 1, 0]
     b.bitLen.toNat ≤ b.inst.bitCap ∧ b.bitLen.toNat / 9 ≤ b.inst.textCap ∧ b.ctrl.getLsbD 0 = true ∧
       b.bitLen.toNat % 9 ≠ 0) ∧
    (let b := withBits (strict (small tiny)) (List.replicate 9 0)
     b.bitLen.toNat ≤ b.inst.bitCap ∧ b.bitLen.toNat / 9 ≤ b.inst.textCap ∧ b.ctrl.getLsbD 0 = true ∧
       b.bitLen.toNat % 9 = 0 ∧ WrongFramingBit b (b.bitLen.toNat / 9) 8 ∧
       ∀ j < 8, ¬ WrongFramingBit b (b.bitLen.toNat / 9) j) ∧
    (let b := withBits (small tiny) (List.replicate 13 1)
     b.bitLen.toNat ≤ b.inst.bitCap ∧ b.bitLen.toNat / 9 ≤ b.inst.textCap ∧ b.ctrl.getLsbD 0 = false) := by
  decide +kernel

/-- The strict and clean case of the last clause. -/
theorem witness_DfrDecodesGroupsOrFailsWhole_strict :
    let b := withBits (strict (small tiny)) [0, 1, 0, 0, 0, 0, 0, 1, 1]
    b.bitLen.toNat ≤ b.inst.bitCap ∧ b.bitLen.toNat / 9 ≤ b.inst.textCap ∧ b.bitLen.toNat % 9 = 0 ∧
      ∀ k, ¬ WrongFramingBit b (b.bitLen.toNat / 9) k := by
  refine ⟨by decide, by decide, by decide, fun k hk => ?_⟩
  obtain ⟨g, hg, h⟩ := hk
  have hg0 : g = 0 := by
    have : g < 1 := hg
    omega
  subst hg0
  rcases h with ⟨rfl, h⟩ | ⟨rfl, h⟩
  · exact h (by decide)
  · exact h (by decide)

theorem witness_StrictDfrAcceptsOnlyCleanFrames : (strict (small tiny)).ctrl.getLsbD 0 = true := by decide

theorem witness_DfrInvertsFrm :
    (small tiny).inst.Legal ∧ ∃ t, exec .frm (st (withText (small tiny) [65])) = .next t ∧ t.block.err = false :=
  ⟨by decide, _, rfl, by decide +kernel⟩

/-- A group of nine 0s and a group with start and stop bit 1 agree on their middle bits. -/
theorem witness_LenientTextIgnoresFramingBits :
    let a := withBits (small tiny) [0, 0, 0, 0, 0, 0, 0, 0, 0]
    let b := withBits (small tiny) [1, 0, 0, 0, 0, 0, 0, 0, 1]
    a.ctrl.getLsbD 0 = false ∧ b.ctrl.getLsbD 0 = false ∧ a.inst = b.inst ∧ a.bitLen = b.bitLen ∧
      a.bitLen.toNat ≤ a.inst.bitCap ∧ a.bitLen.toNat / 9 ≤ a.inst.textCap ∧
      ∀ g < a.bitLen.toNat / 9, ∀ j < 8, 1 ≤ j → a.bitAt (9 * g + j) = b.bitAt (9 * g + j) := by decide +kernel

theorem witness_DecIsClsThenDfr :
    (∃ t, exec .cls (st (withSamples (strict (small tiny)) segZ)) = .next t ∧ t.block.err = true) ∧
    (∃ t, exec .cls (st (withSamples (small tiny) segZ)) = .next t ∧ t.block.err = false) :=
  ⟨⟨_, rfl, by decide +kernel⟩, _, rfl, by decide +kernel⟩

theorem witness_LenientDecodeNeverRaises :
    let b := withSamples (withBits (small tiny) [1, 1]) (segM ++ [5])
    b.ctrl.getLsbD 0 = false ∧ b.spb ≠ 0 ∧ b.smpLen.toNat ≤ b.inst.sampCap ∧ b.smpLen.toNat / b.spb ≤ b.inst.bitCap ∧
      b.bitLen.toNat ≤ b.inst.bitCap ∧ b.bitLen.toNat / 9 ≤ b.inst.textCap ∧
      b.smpLen.toNat / b.spb / 9 ≤ b.inst.textCap := by decide +kernel

/-- The small configuration is discriminating (V42, V43) and ENC of "A" succeeds in it (P5). -/
theorem witness_DecInvertsEnc :
    (small tiny).inst.Legal ∧ Discriminating num (withText (small tiny) [65]) ∧
      ∃ t, exec .enc (st (withText (small tiny) [65])) = .next t ∧ t.block.err = false ∧ t.block.smpLen = 72#32 :=
  ⟨by decide, by decide +kernel, _, rfl, by decide +kernel, by decide +kernel⟩

theorem witness_CommandsAfterResetGiveEmptyResults : State.reset.block = Block.afterReset Config.recommended 0 := rfl

theorem witness_FailedCommandWritesNoOutput :
    (∃ t, exec .cls (st { small tiny with baudC := 0#32 }) = .next t ∧ t.block.err = true) ∧
    (∃ t, exec .enc (st { small tiny with baudC := 0#32 }) = .next t ∧ t.block.err = true) :=
  ⟨⟨_, rfl, by decide +kernel⟩, _, rfl, by decide +kernel⟩

theorem witness_EachCommandRaisesOnlyItsErrors :
    ∀ i ∈ [Instr.frm, .syn, .enc, .cls, .dfr, .dec, .clr, .rst], ∃ t, exec i framed = .next t := by
  intro i _
  cases i <;> exact ⟨_, rfl⟩

theorem witness_CommandsAreIdempotent :
    Command.dec ≠ .rst ∧ (∃ t, exec .dec framed = .next t ∧ ∃ u, exec .dec t = .next u) ∧
      ∃ t, exec .rst framed = .next t ∧ ∃ u, exec .rst t = .next u :=
  ⟨by decide, ⟨_, rfl, _, rfl⟩, _, rfl, _, rfl⟩

/-- Two blocks that differ in an entry beyond BIT_LEN, 0 in one and unwritten in the other. -/
theorem witness_CommandsReadOnlyRegistersAndContents :
    let a := { withBits (small tiny) [1, 0, 0] with bitLen := 2#32 }
    let b := withBits (small tiny) [1, 0]
    Command.syn ≠ .rst ∧ SameRegisters a b ∧ SameContents a b ∧ a.bitBuf ≠ b.bitBuf := by decide +kernel

end Sys2Proof.Tests
end

section
/-! PROOFS. The invariant of the block and the laws of a step (spec/00_scope.md). `BlockInv` is cut into the part that does
not read STATUS or ERRINFO (`StorageInv`) and the part that does. Inside a command DONE is still 0, so the stages keep the
weaker `StageStatus`; setting DONE at the end turns it into the laws of R26. -/

namespace Sys2Proof.Safety

open Sys2Proof.Machine

/-! ### One buffer -/

/-- A buffer in canonical form whose entries lie below its capacity. -/
def BufferOk {w : Nat} (m : Buffer w) (cap : Nat) : Prop := Memory.wf m ∧ Within m cap

theorem BufferOk.write {w : Nat} {m : Buffer w} {cap i : Nat} (h : BufferOk m cap) (v : BitVec w) (hi : i < cap) :
    BufferOk (Memory.write m i v) cap := by
  refine ⟨Memory.write_keeps_wf i v h.1, fun c hc => ?_⟩
  rcases Memory.mem_write hc with rfl | hm
  · exact hi
  · exact h.2 c hm

theorem BufferOk.writeFirst {w : Nat} {m : Buffer w} {cap : Nat} (h : BufferOk m cap) {vs : List (BitVec w)}
    (hvs : vs.length ≤ cap) : BufferOk (Memory.writeFirst m vs) cap := by
  refine ⟨Memory.writeFirst_keeps_wf vs h.1, fun c hc => ?_⟩
  rcases Memory.mem_writeFirst hc with hlt | hm
  · exact Nat.lt_of_lt_of_le hlt hvs
  · exact h.2 c hm

/-! ### The two parts of the invariant -/

/-- The part of `BlockInv` that reads neither STATUS nor ERRINFO. -/
def StorageInv (b : Block) : Prop :=
  b.inst.Legal ∧ b.ctrl &&& 0xFFFFFFFE#32 = 0#32 ∧ b.outLen.toNat ≤ b.inst.textCap ∧
    BufferOk b.txtIn b.inst.textCap ∧ BufferOk b.bitBuf b.inst.bitCap ∧ BufferOk b.smp b.inst.sampCap ∧
    BufferOk b.txtOut b.inst.textCap

/-- What holds of STATUS and ERRINFO while a command runs: the laws of R24, R26 and R27 that do not mention DONE. -/
def StageStatus (b : Block) : Prop :=
  b.status &&& statusReserved = 0#32 ∧ b.ecode.toNat ≤ 6 ∧ (b.err = false ↔ b.ecode = 0#4) ∧
    (b.err = false → b.errinfo = 0#32)

/-- What holds of the block before and after every stage of a command. -/
def StageInv (b : Block) : Prop := StorageInv b ∧ StageStatus b

/-- A stage that keeps the invariant of stages. -/
def KeepsStageInv (stage : Block → Block) : Prop := ∀ b, StageInv b → StageInv (stage b)

theorem blockInv_iff (b : Block) :
    BlockInv b ↔ StorageInv b ∧ StatusLegal b ∧ (b.err = false → b.errinfo = 0#32) := by
  unfold BlockInv StorageInv BufferOk
  tauto

theorem BlockInv.storage {b : Block} (h : BlockInv b) : StorageInv b := ((blockInv_iff b).1 h).1

/-- A change that leaves STATUS and ERRINFO alone keeps the invariant if it keeps the storage part. -/
theorem BlockInv.of_storage {b b' : Block} (h : BlockInv b) (hs : b'.status = b.status) (he : b'.errinfo = b.errinfo)
    (hb : StorageInv b') : BlockInv b' := by
  have hst := ((blockInv_iff b).1 h).2
  refine (blockInv_iff b').2 ⟨hb, ?_⟩
  simpa only [StatusLegal, Block.err, Block.ecode, hs, he] using hst

/-! ### The storage part under writes -/

theorem StorageInv.storeBits {b : Block} (h : StorageInv b) {vs : List Bit} (hvs : vs.length ≤ b.inst.bitCap) :
    StorageInv (b.storeBits vs) := by
  obtain ⟨hl, hc, ho, hti, hbb, hsm, hto⟩ := h
  exact ⟨hl, hc, ho, hti, hbb.writeFirst hvs, hsm, hto⟩

theorem StorageInv.storeSamples {b : Block} (h : StorageInv b) {vs : List Sample} (hvs : vs.length ≤ b.inst.sampCap) :
    StorageInv (b.storeSamples vs) := by
  obtain ⟨hl, hc, ho, hti, hbb, hsm, hto⟩ := h
  exact ⟨hl, hc, ho, hti, hbb, hsm.writeFirst hvs, hto⟩

/-- OUT_LEN is the text's length or, were that 2^32 or more, less. -/
theorem StorageInv.storeText {b : Block} (h : StorageInv b) {vs : List Ordinal} (hvs : vs.length ≤ b.inst.textCap) :
    StorageInv (b.storeText vs) := by
  obtain ⟨hl, hc, -, hti, hbb, hsm, hto⟩ := h
  refine ⟨hl, hc, ?_, hti, hbb, hsm, hto.writeFirst hvs⟩
  rw [Block.storeText_outLen, BitVec.toNat_ofNat]
  exact (Nat.mod_le _ _).trans hvs

/-! ### STATUS while a command runs -/

/-- A mask that holds no reserved bit of STATUS, nor ERR, nor a bit of ECODE. -/
abbrev PlainMask (m : Word) : Prop := m &&& statusReserved = 0#32 ∧ m.getLsbD 1 = false ∧ m.extractLsb' 4 4 = 0#4

theorem StageStatus.clearStatus (b : Block) : StageStatus b.clearStatus := by
  simp [StageStatus, Block.ecode]

theorem StageStatus.raiseFlag {b : Block} (h : StageStatus b) {m : Word} (hm : PlainMask m) (c : Bool) :
    StageStatus (b.raiseFlag m c) := by
  obtain ⟨hres, herr, hecode⟩ := hm
  cases c with
  | false => exact h
  | true =>
    have he : (b.raiseFlag m true).ecode = b.ecode := by
      simp [Block.ecode, BitVec.extractLsb'_or, hecode]
    have hr : (b.raiseFlag m true).status &&& statusReserved = b.status &&& statusReserved := by
      simp [BitVec.and_or_distrib_right, hres]
    simpa only [StageStatus, he, hr, b.raiseFlag_err_of true herr, Block.raiseFlag_errinfo] using h

/-- An error leaves its code in ECODE, whatever STATUS held (R199). -/
@[simp] theorem fail_ecode (b : Block) (e : ErrorCode) (n : Nat) : (b.fail e n).ecode = e.ecode.setWidth 4 := by
  have hmask : (~~~maskEcode).extractLsb' 4 4 = 0#4 := by decide
  have herr : maskErr.extractLsb' 4 4 = 0#4 := by decide
  have hcode : (e.ecode <<< 4).extractLsb' 4 4 = e.ecode.setWidth 4 := by cases e <;> decide
  simp [Block.ecode, statusWithError, BitVec.extractLsb'_or, BitVec.extractLsb'_and, hmask, herr, hcode]

/-- An error sets no reserved bit of STATUS (R24). -/
theorem statusWithError_reserved {st : Word} (h : st &&& statusReserved = 0#32) (e : ErrorCode) :
    statusWithError st e &&& statusReserved = 0#32 := by
  have hold : (st &&& ~~~maskEcode) &&& statusReserved = 0#32 := by
    rw [BitVec.and_assoc, BitVec.and_comm (~~~maskEcode), ← BitVec.and_assoc, h, BitVec.zero_and]
  have herr : maskErr &&& statusReserved = 0#32 := by decide
  have hcode : (e.ecode <<< 4) &&& statusReserved = 0#32 := by cases e <;> decide
  simp only [statusWithError, BitVec.and_or_distrib_right, hold, herr, hcode, BitVec.or_zero]

/-- The codes of R191 are 1 to 6. -/
theorem ecode_range (e : ErrorCode) : (e.ecode.setWidth 4).toNat ≤ 6 ∧ e.ecode.setWidth 4 ≠ 0#4 := by
  cases e <;> decide

theorem StageStatus.fail {b : Block} (h : StageStatus b) (e : ErrorCode) (n : Nat) : StageStatus (b.fail e n) := by
  obtain ⟨hres, -, -, -⟩ := h
  obtain ⟨hle, hne⟩ := ecode_range e
  refine ⟨statusWithError_reserved hres e, ?_, ?_, ?_⟩
  · rwa [fail_ecode]
  · simp [hne]
  · simp

/-! ### What stages keep -/

theorem StageInv.clearStatus {b : Block} (h : StorageInv b) : StageInv b.clearStatus := ⟨h, .clearStatus b⟩

theorem StageInv.fail {b : Block} (h : StageInv b) (e : ErrorCode) (n : Nat) : StageInv (b.fail e n) :=
  ⟨h.1, h.2.fail e n⟩

theorem StageInv.raiseFlag {b : Block} (h : StageInv b) {m : Word} (hm : PlainMask m) (c : Bool) :
    StageInv (b.raiseFlag m c) :=
  ⟨h.1, h.2.raiseFlag hm c⟩

theorem StageInv.storeBits {b : Block} (h : StageInv b) {vs : List Bit} (hvs : vs.length ≤ b.inst.bitCap) :
    StageInv (b.storeBits vs) :=
  ⟨h.1.storeBits hvs, h.2⟩

theorem StageInv.storeSamples {b : Block} (h : StageInv b) {vs : List Sample} (hvs : vs.length ≤ b.inst.sampCap) :
    StageInv (b.storeSamples vs) :=
  ⟨h.1.storeSamples hvs, h.2⟩

theorem StageInv.storeText {b : Block} (h : StageInv b) {vs : List Ordinal} (hvs : vs.length ≤ b.inst.textCap) :
    StageInv (b.storeText vs) :=
  ⟨h.1.storeText hvs, h.2⟩

/-- Setting DONE ends a command: the laws of R26 on DONE hold since DONE is now 1. -/
theorem StageInv.setDone {b : Block} (h : StageInv b) : BlockInv b.setDone := by
  have hdone : b.setDone.status.getLsbD 0 = true := by
    rw [Block.setDone_status, BitVec.getLsbD_or, show maskDone.getLsbD 0 = true by decide, Bool.or_true]
  obtain ⟨hres, hle, hiff, hinfo⟩ : StageStatus b.setDone := h.2.raiseFlag (m := maskDone) (by decide) true
  exact (blockInv_iff _).2 ⟨h.1, ⟨hres, hle, hiff, fun _ => hdone, fun h0 => absurd (hdone.symm.trans h0) (by decide)⟩, hinfo⟩

/-! ### The four stages -/

theorem length_flatMap_frame (cs : List Word) : (cs.flatMap frame).length = 9 * cs.length := by
  simp [List.length_flatMap, frame, Nat.mul_comm]

theorem length_flatMap_segment (nm : Config.Num) (b : Block) (n : Nat) (vs : List Bit) :
    (vs.flatMap (b.segment nm n)).length = vs.length * n := by
  simp [List.length_flatMap, Block.segment]

theorem frmStage_keeps : KeepsStageInv frmStage := by
  intro b h
  obtain ⟨-, heq⟩ | ⟨-, -, heq⟩ | ⟨-, -, bad, -, -, -, heq⟩ | ⟨-, hcap, -, heq⟩ := frmStage_cases b <;> rw [heq]
  · exact h.fail _ _
  · exact h.fail _ _
  · exact h.fail _ _
  · exact h.storeBits (by simpa only [length_flatMap_frame, Block.text, List.length_map, List.length_range] using hcap)

theorem synStage_keeps (nm : Config.Num) : KeepsStageInv (synStage nm) := by
  intro b h
  obtain ⟨-, heq⟩ | ⟨-, -, heq⟩ | ⟨-, -, -, heq⟩ | ⟨-, -, hcap, heq⟩ := synStage_cases nm b <;> rw [heq]
  · exact h.fail _ _
  · exact h.fail _ _
  · exact h.fail _ _
  · exact h.storeSamples (by simpa only [length_flatMap_segment, Block.bits, List.length_map, List.length_range] using hcap)

theorem StageInv.clsFlags {b : Block} (h : StageInv b) (z : Option Nat) : StageInv (b.clsFlags z) :=
  (h.raiseFlag (m := maskTrailSmp) (by decide) _).raiseFlag (m := maskAmbig) (by decide) _

theorem clsStage_keeps (nm : Config.Num) : KeepsStageInv (clsStage nm) := by
  intro b h
  obtain ⟨-, heq⟩ | ⟨-, -, heq⟩ | ⟨-, -, -, heq⟩ | ⟨-, -, hcap, za, -, ⟨-, w, -, heq⟩ | ⟨-, heq⟩⟩ :=
    clsStage_cases nm b <;> rw [heq]
  · exact h.fail _ _
  · exact h.fail _ _
  · exact h.fail _ _
  · exact (h.clsFlags za).fail _ _
  · exact (h.clsFlags za).storeBits (by simpa [Block.windows, Block.clsFlags] using hcap)

theorem StageInv.dfrFlags {b : Block} (h : StageInv b) : StageInv b.dfrFlags :=
  ((h.raiseFlag (m := maskTrailBit) (by decide) _).raiseFlag (m := maskStart) (by decide) _).raiseFlag
    (m := maskStop) (by decide) _

theorem dfrStage_keeps : KeepsStageInv dfrStage := by
  intro b h
  obtain ⟨-, heq⟩ | ⟨-, -, heq⟩ | ⟨-, hcap, ⟨-, -, heq⟩ | ⟨-, -, k, -, heq⟩ | ⟨-, heq⟩⟩ := dfrStage_cases b <;> rw [heq]
  · exact h.fail _ _
  · exact h.fail _ _
  · exact h.dfrFlags.fail _ _
  · exact h.dfrFlags.fail _ _
  · exact h.dfrFlags.storeText (by simpa [Block.groups, Block.dfrFlags] using hcap)

/-! ### Commands -/

theorem runStages_keeps {stages : List (Block → Block)} (hst : ∀ f ∈ stages, KeepsStageInv f)
    {b : Block} (h : StageInv b) : StageInv (runStages stages b) := by
  induction stages generalizing b with
  | nil => exact h
  | cons f rest ih =>
    have hf : StageInv (f b) := hst f List.mem_cons_self b h
    unfold runStages
    dsimp only
    split
    · exact hf
    · exact ih (fun g hg => hst g (List.mem_cons_of_mem _ hg)) hf

theorem runCommandStages_keeps {stages : List (Block → Block)} (hst : ∀ f ∈ stages, KeepsStageInv f)
    {b : Block} (h : BlockInv b) : BlockInv (runCommandStages stages b) :=
  (runStages_keeps hst (.clearStatus h.storage)).setDone

/-- The invariant holds after a reset, whatever the legal capacities (R45). -/
theorem afterReset_inv {inst : Config.Instance} (h : inst.Legal) (e : Nat) : BlockInv (Block.afterReset inst e) := by
  refine ⟨h, ?_⟩
  simp [Block.afterReset, StatusLegal, Block.err, Block.ecode, Memory.wf, Within]

theorem BlockInv.reset {b : Block} (h : BlockInv b) : BlockInv b.reset := afterReset_inv h.storage.1 _

/-- CLR leaves STATUS = 0 and ERRINFO = 0, which meets every law of R26 and R27. -/
theorem BlockInv.clearStatus {b : Block} (h : BlockInv b) : BlockInv b.clearStatus := by
  refine (blockInv_iff _).2 ⟨h.storage, ?_⟩
  simp [StatusLegal, Block.ecode]

/-- Every word written to CMD, a command or not, keeps the invariant. -/
theorem writeCmd_keeps {b : Block} (h : BlockInv b) (w : Word) : BlockInv (writeCmd b w) := by
  cases hc : commandOf w with
  | none =>
    simp only [writeCmd, hc]
    exact ((StageInv.clearStatus h.storage).fail _ _).setDone
  | some c =>
    simp only [writeCmd, hc]
    cases c with
    | nop => exact h
    | clr => exact h.clearStatus
    | rst => exact h.reset
    | frm => exact runCommandStages_keeps (by simp [frmStage_keeps]) h
    | syn => exact runCommandStages_keeps (by simp [synStage_keeps]) h
    | enc => exact runCommandStages_keeps (by simp [frmStage_keeps, synStage_keeps]) h
    | cls => exact runCommandStages_keeps (by simp [clsStage_keeps]) h
    | dfr => exact runCommandStages_keeps (by simp [dfrStage_keeps]) h
    | dec => exact runCommandStages_keeps (by simp [clsStage_keeps, dfrStage_keeps]) h

/-! ### Reads and writes -/

/-- A place that lies within the capacities. -/
def InRange (inst : Config.Instance) : Place → Prop
  | .txtIn i  => i < inst.textCap
  | .bitBuf i => i < inst.bitCap
  | .smp i    => i < inst.sampCap
  | .txtOut i => i < inst.textCap
  | .reg _    => True
  | .unmapped => True

theorem inRange_ite {inst : Config.Instance} {c : Prop} [Decidable c] {p : Place} (h : c → InRange inst p) :
    InRange inst (if c then p else .unmapped) := by
  split
  · next hc => exact h hc
  · trivial

/-- The address map names no entry at or above a capacity (R62, R67). -/
theorem placeOf_inRange (inst : Config.Instance) (addr : Word) : InRange inst (placeOf inst addr) := by
  unfold placeOf
  dsimp only
  split
  · split <;> trivial
  · exact inRange_ite id
  · exact inRange_ite id
  · exact inRange_ite id
  · exact inRange_ite id
  · trivial

/-- CTRL keeps bit 0 of the word written (R22). -/
theorem ctrlWord_reserved (x : BitVec 1) : x.setWidth 32 &&& 0xFFFFFFFE#32 = 0#32 := by decide +revert

theorem writeReg_keeps {b : Block} (h : BlockInv b) (d : Word) (r : Reg) : BlockInv (writeReg b d r) := by
  cases r with
  | ctrl =>
    obtain ⟨hl, -, hrest⟩ := h.storage
    exact h.of_storage rfl rfl ⟨hl, ctrlWord_reserved _, hrest⟩
  | cmd => exact writeCmd_keeps h d
  | baudC | markC | spaceC | fsC | txtLen | bitLen | smpLen => exact h
  | id | status | errinfo | spb | outLen | capText | capBit | capSamp => exact h

theorem writePlace_keeps {b : Block} (h : BlockInv b) (d : Word) {p : Place} (hp : InRange b.inst p) :
    BlockInv (writePlace b d p) := by
  obtain ⟨hl, hc, ho, hti, hbb, hsm, hto⟩ := h.storage
  cases p with
  | reg r => exact writeReg_keeps h d r
  | txtIn i => exact h.of_storage rfl rfl ⟨hl, hc, ho, hti.write _ hp, hbb, hsm, hto⟩
  | bitBuf i => exact h.of_storage rfl rfl ⟨hl, hc, ho, hti, hbb.write _ hp, hsm, hto⟩
  | smp i => exact h.of_storage rfl rfl ⟨hl, hc, ho, hti, hbb, hsm.write _ hp, hto⟩
  | txtOut i => exact h
  | unmapped => exact h

/-! ### Instructions and steps -/

/-- The instructions are the nine commands, the read and the write. -/
theorem instr_cases (i : Instr) :
    (∃ c : Command, i = c.instr) ∨ (∃ addr, i = .rd addr) ∨ ∃ addr data, i = .wr addr data := by
  cases i with
  | nop => exact .inl ⟨.nop, rfl⟩
  | frm => exact .inl ⟨.frm, rfl⟩
  | syn => exact .inl ⟨.syn, rfl⟩
  | enc => exact .inl ⟨.enc, rfl⟩
  | cls => exact .inl ⟨.cls, rfl⟩
  | dfr => exact .inl ⟨.dfr, rfl⟩
  | dec => exact .inl ⟨.dec, rfl⟩
  | clr => exact .inl ⟨.clr, rfl⟩
  | rst => exact .inl ⟨.rst, rfl⟩
  | rd addr => exact .inr (.inl ⟨addr, rfl⟩)
  | wr addr data => exact .inr (.inr ⟨addr, data, rfl⟩)

/-- A command does to the block what writing its word to CMD does (R84, R170). -/
theorem exec_command (c : Command) (s : State) :
    exec c.instr s = .next (s.complete (writeCmd s.block c.word) (.write .ok)) := by
  unfold writeCmd
  rw [commandOf_word]
  cases c <;> rfl

theorem exec_keeps {s t : State} (h : Inv s) {i : Instr} (ht : exec i s = .next t) : Inv t := by
  obtain ⟨c, rfl⟩ | ⟨addr, rfl⟩ | ⟨addr, data, rfl⟩ := instr_cases i
  · cases (exec_command c s).symm.trans ht
    exact writeCmd_keeps h c.word
  · cases ht
    exact h
  · cases ht
    exact writePlace_keeps h data (placeOf_inRange s.block.inst addr)

theorem step_request {s : State} {r : Request} {rest : List HostEvent} {i : Instr} (hp : s.pending = .bus r :: rest)
    (hd : decode r = .instr i) : step s = exec i { s with pending := rest } := by
  simp only [step, hp, hd]

theorem step_rejected {s : State} {r : Request} {rest : List HostEvent} {e : DecodeError}
    (hp : s.pending = .bus r :: rest) (hd : decode r = .rejected e) : step s = .refused .malformedRequest := by
  simp only [step, hp, hd]

theorem exec_hostSide {i : Instr} {s t : State} (h : exec i s = .next t) :
    t.pending = s.pending ∧ ∃ reply, t.replies = reply :: s.replies := by
  obtain ⟨b, r, heq⟩ := exec_eq_complete i s
  cases heq.symm.trans h
  exact ⟨rfl, r, rfl⟩

/-! ### The obligations -/

/-- Settles O3, by the cases of a step: idling, a reset, an instruction, a refusal. -/
theorem stepKeepsTheInvariant : Obligations.StepKeepsTheInvariant := by
  intro s t h ht
  obtain ⟨-, heq⟩ | ⟨rest, -, heq⟩ | ⟨r, rest, i, -, -, heq⟩ | ⟨r, rest, e, -, -, heq⟩ := step_cases s <;> rw [heq] at ht
  · cases ht
    exact h
  · cases ht
    exact BlockInv.reset h
  · exact exec_keeps (s := { s with pending := rest }) h ht
  · cases ht

/-- Settles O2: the recommended capacities are legal. -/
theorem resetStateSatisfiesTheInvariant : Obligations.ResetStateSatisfiesTheInvariant :=
  afterReset_inv (by decide) 0

/-- Settles O4: a request by what it decodes to, and the pending events by the host side of `exec`. -/
theorem stepRunsTheDecodedInstruction : Obligations.StepRunsTheDecodedInstruction :=
  ⟨fun _ _ _ _ => step_request, fun _ _ _ _ => step_rejected, fun _ _ _ h => (exec_hostSide h).1⟩

/-- Settles O6: the request decodes, since the step answers, and its instruction leaves one reply. -/
theorem eachTransactionIsAnsweredOnce : Obligations.EachTransactionIsAnsweredOnce := by
  intro s t r rest hp ht
  cases hd : decode r with
  | instr i => exact exec_hostSide ((step_request hp hd).symm.trans ht)
  | rejected e => cases (step_rejected hp hd).symm.trans ht

/-- Settles O56: every arm of the dispatch is a change of the block and a reply. -/
theorem everyInstructionCompletes : Obligations.EveryInstructionCompletes := fun i s =>
  let ⟨_, _, heq⟩ := exec_eq_complete i s
  ⟨_, heq⟩

end Sys2Proof.Safety
end

section
/-! PROOFS. The registers on the bus and what a command leaves unchanged (spec/10_state.md): reading and writing a register
by its address, the frame of the four stages (R199), and the rounding of SPB (R32). -/

namespace Sys2Proof.Safety

open Sys2Proof.Machine

/-! ### Registers by their addresses -/

/-- The address map gives every register its place (R20, R62). -/
@[simp] theorem placeOf_regAddr (inst : Config.Instance) (r : Reg) : placeOf inst (regAddr r) = .reg r := by
  cases r <;> rfl

theorem exec_rd_reg (r : Reg) (s : State) : exec (.rd (regAddr r)) s = .next (hasRead s (readReg s.block r)) := by
  simp [exec, execRd, State.complete, readPlace]

theorem exec_wr_reg (r : Reg) (d : Word) (s : State) :
    exec (.wr (regAddr r) d) s = .next (answered s (writeReg s.block d r)) := by
  simp [exec, execWr, State.complete, writePlace, writeResp]

/-- The registers that ignore host writes, CMD aside (R64). -/
def readOnlyRegs : List Reg := [.id, .status, .errinfo, .spb, .outLen, .capText, .capBit, .capSamp]

theorem writeReg_readOnly (b : Block) (d : Word) : ∀ r ∈ readOnlyRegs, writeReg b d r = b := by
  simp [readOnlyRegs, writeReg]

theorem exec_wr_readOnly {a : Word} (ha : a ∈ readOnlyRegs.map regAddr) (d : Word) (s : State) :
    exec (.wr a d) s = .next (answered s s.block) := by
  obtain ⟨r, hr, rfl⟩ := List.mem_map.1 ha
  rw [exec_wr_reg, writeReg_readOnly s.block d r hr]

/-- A write of a command's word to CMD is the command (R84, R170). -/
theorem exec_wr_word (c : Command) (s : State) : exec (.wr cmdAddr c.word) s = exec c.instr s :=
  (exec_wr_reg .cmd c.word s).trans (exec_command c s).symm

/-- CTRL keeps bit 0 of the word (R22). -/
theorem lowBit_eq_and_one (d : Word) : (d.extractLsb' 0 1).setWidth 32 = d &&& 1#32 := by
  rw [BitVec.and_one_eq_setWidth_ofBool_getLsbD]
  congr 1
  ext i hi
  simp [show i = 0 by omega]

/-! ### What a stage leaves unchanged -/

/-- What a stage with the output operation `store` can do (R199): fail, with nothing but STATUS and ERRINFO written, or set
flags, leave ERR and ERRINFO alone and store its whole output. -/
def StageOutcome {α : Type} (store : Block → List α → Block) (stage : Block → Block) : Prop :=
  ∀ b, (∃ st ei, stage b = withStatus b st ei) ∨
    ∃ st vs, stage b = store (withStatus b st b.errinfo) vs ∧ (stage b).err = b.err

theorem frmStage_outcome : StageOutcome Block.storeBits frmStage := by
  intro b
  obtain ⟨-, heq⟩ | ⟨-, -, heq⟩ | ⟨-, -, bad, -, -, -, heq⟩ | ⟨-, -, -, heq⟩ := frmStage_cases b
  · exact .inl ⟨_, _, heq⟩
  · exact .inl ⟨_, _, heq⟩
  · exact .inl ⟨_, _, heq⟩
  · exact .inr ⟨b.status, _, heq, by rw [heq]; rfl⟩

theorem synStage_outcome (nm : Config.Num) : StageOutcome Block.storeSamples (synStage nm) := by
  intro b
  obtain ⟨-, heq⟩ | ⟨-, -, heq⟩ | ⟨-, -, -, heq⟩ | ⟨-, -, -, heq⟩ := synStage_cases nm b
  · exact .inl ⟨_, _, heq⟩
  · exact .inl ⟨_, _, heq⟩
  · exact .inl ⟨_, _, heq⟩
  · exact .inr ⟨b.status, _, heq, by rw [heq]; rfl⟩

theorem clsFlags_err (b : Block) (z : Option Nat) : (b.clsFlags z).err = b.err := by simp [Block.clsFlags]

theorem clsStage_outcome (nm : Config.Num) : StageOutcome Block.storeBits (clsStage nm) := by
  intro b
  obtain ⟨-, heq⟩ | ⟨-, -, heq⟩ | ⟨-, -, -, heq⟩ | ⟨-, -, -, za, -, ⟨-, w, -, heq⟩ | ⟨-, heq⟩⟩ := clsStage_cases nm b
  · exact .inl ⟨_, _, heq⟩
  · exact .inl ⟨_, _, heq⟩
  · exact .inl ⟨_, _, heq⟩
  · exact .inl ⟨_, _, heq⟩
  · exact .inr ⟨(b.clsFlags za).status, _, heq, (congrArg Block.err heq).trans (clsFlags_err b za)⟩

theorem dfrFlags_err (b : Block) : b.dfrFlags.err = b.err := by simp [Block.dfrFlags]

theorem dfrStage_outcome : StageOutcome Block.storeText dfrStage := by
  intro b
  obtain ⟨-, heq⟩ | ⟨-, -, heq⟩ | ⟨-, -, ⟨-, -, heq⟩ | ⟨-, -, k, -, heq⟩ | ⟨-, heq⟩⟩ := dfrStage_cases b
  · exact .inl ⟨_, _, heq⟩
  · exact .inl ⟨_, _, heq⟩
  · exact .inl ⟨_, _, heq⟩
  · exact .inl ⟨_, _, heq⟩
  · exact .inr ⟨b.dfrFlags.status, _, heq, (congrArg Block.err heq).trans (dfrFlags_err b)⟩

section
variable {α : Type} {store : Block → List α → Block} {stage first second : Block → Block} {b : Block}

/-- A stage that raises an error has written nothing but STATUS and ERRINFO. -/
theorem StageOutcome.of_err (h : StageOutcome store stage) (hb : b.err = false) (he : (stage b).err = true) :
    ∃ st ei, stage b = withStatus b st ei := by
  obtain hfail | ⟨st, vs, -, herr⟩ := h b
  · exact hfail
  · exact absurd (hb.symm.trans (herr.symm.trans he)) (by decide)

/-- A stage that stores bits changes nothing but STATUS, ERRINFO, BITBUF and BIT_LEN. -/
theorem StageOutcome.bits_frame (h : StageOutcome Block.storeBits stage) (b : Block) :
    ∃ st ei bits len, stage b = { b with status := st, errinfo := ei, bitBuf := bits, bitLen := len } := by
  obtain ⟨st, ei, heq⟩ | ⟨st, vs, heq, -⟩ := h b
  · exact ⟨st, ei, b.bitBuf, b.bitLen, heq⟩
  · exact ⟨st, b.errinfo, _, _, heq⟩

theorem StageOutcome.inst (h : StageOutcome store stage) (hstore : ∀ b vs, (store b vs).inst = b.inst) (b : Block) :
    (stage b).inst = b.inst := by
  obtain ⟨st, ei, heq⟩ | ⟨st, vs, heq, -⟩ := h b
  · rw [heq]
  · rw [heq, hstore]

variable {c : Block}

/-- A failed command of one stage changes STATUS and ERRINFO only (R199). -/
theorem failed_one (h : StageOutcome store stage) (hc : c = runCommandStages [stage] b) (he : c.err = true) :
    c = withStatus b c.status c.errinfo := by
  rw [runCommandStages_one] at hc
  subst hc
  obtain ⟨st, ei, heq⟩ := h.of_err b.clearStatus_err (by simpa using he)
  rw [heq]
  rfl

/-- A failed command whose first stage stores bits changes besides at most BITBUF and BIT_LEN (R228). -/
theorem failed_two (h1 : StageOutcome Block.storeBits first) (h2 : StageOutcome store second)
    (hc : c = runCommandStages [first, second] b) (he : c.err = true) :
    c = { b with status := c.status, errinfo := c.errinfo, bitBuf := c.bitBuf, bitLen := c.bitLen } := by
  obtain ⟨st, ei, bits, len, hfirst⟩ := h1.bits_frame b.clearStatus
  rw [runCommandStages_two] at hc
  split at hc
  · rw [hc, hfirst]
    rfl
  · next h =>
    subst hc
    obtain ⟨st', ei', hsecond⟩ := h2.of_err (by simpa using h) (by simpa using he)
    rw [hsecond, hfirst]
    rfl

end

/-- A command clears STATUS and ERRINFO before its first stage (R170), so it does not read them. -/
theorem runCommandStages_withStatus (stages : List (Block → Block)) (b : Block) (st ei : Word) :
    runCommandStages stages (withStatus b st ei) = runCommandStages stages b := rfl

/-! ### The capacities -/

theorem runStages_inst {stages : List (Block → Block)} (hst : ∀ f ∈ stages, ∀ b, (f b).inst = b.inst) (b : Block) :
    (runStages stages b).inst = b.inst := by
  induction stages generalizing b with
  | nil => rfl
  | cons f rest ih =>
    have hf : (f b).inst = b.inst := hst f List.mem_cons_self b
    unfold runStages
    dsimp only
    split
    · exact hf
    · exact (ih (fun g hg => hst g (List.mem_cons_of_mem _ hg)) (f b)).trans hf

theorem frmStage_inst : ∀ b, (frmStage b).inst = b.inst := frmStage_outcome.inst Block.storeBits_inst
theorem synStage_inst (nm : Config.Num) : ∀ b, (synStage nm b).inst = b.inst :=
  (synStage_outcome nm).inst Block.storeSamples_inst
theorem clsStage_inst (nm : Config.Num) : ∀ b, (clsStage nm b).inst = b.inst :=
  (clsStage_outcome nm).inst Block.storeBits_inst
theorem dfrStage_inst : ∀ b, (dfrStage b).inst = b.inst := dfrStage_outcome.inst Block.storeText_inst

theorem runCommandStages_inst {stages : List (Block → Block)} (hst : ∀ f ∈ stages, ∀ b, (f b).inst = b.inst)
    (b : Block) : (runCommandStages stages b).inst = b.inst :=
  runStages_inst hst b.clearStatus

theorem writeCmd_inst (b : Block) (w : Word) : (writeCmd b w).inst = b.inst := by
  cases hc : commandOf w with
  | none => simp [writeCmd, hc]
  | some c =>
    simp only [writeCmd, hc]
    cases c with
    | nop | clr | rst => rfl
    | frm => exact runCommandStages_inst (by simp [frmStage_inst]) b
    | syn => exact runCommandStages_inst (by simp [synStage_inst]) b
    | enc => exact runCommandStages_inst (by simp [frmStage_inst, synStage_inst]) b
    | cls => exact runCommandStages_inst (by simp [clsStage_inst]) b
    | dfr => exact runCommandStages_inst (by simp [dfrStage_inst]) b
    | dec => exact runCommandStages_inst (by simp [clsStage_inst, dfrStage_inst]) b

theorem writeReg_inst (b : Block) (d : Word) (r : Reg) : (writeReg b d r).inst = b.inst := by
  cases r with
  | cmd => exact writeCmd_inst b d
  | ctrl | baudC | markC | spaceC | fsC | txtLen | bitLen | smpLen => rfl
  | id | status | errinfo | spb | outLen | capText | capBit | capSamp => rfl

theorem writePlace_inst (b : Block) (d : Word) (p : Place) : (writePlace b d p).inst = b.inst := by
  cases p with
  | reg r => exact writeReg_inst b d r
  | txtIn | bitBuf | smp | txtOut | unmapped => rfl

theorem exec_inst {i : Instr} {s t : State} (h : exec i s = .next t) : t.block.inst = s.block.inst := by
  obtain ⟨c, rfl⟩ | ⟨addr, rfl⟩ | ⟨addr, data, rfl⟩ := instr_cases i
  · cases (exec_command c s).symm.trans h
    exact writeCmd_inst s.block c.word
  · cases h
    rfl
  · cases h
    exact writePlace_inst s.block data _

theorem step_inst {s t : State} (h : step s = .next t) : t.block.inst = s.block.inst := by
  obtain ⟨-, heq⟩ | ⟨rest, -, heq⟩ | ⟨r, rest, i, -, -, heq⟩ | ⟨r, rest, e, -, -, heq⟩ := step_cases s <;> rw [heq] at h
  · cases h
    rfl
  · cases h
    rfl
  · exact exec_inst (s := { s with pending := rest }) h
  · cases h

/-! ### SPB -/

/-- The integer form of R10: within half of the quotient, and even at exactly half. -/
theorem roundHalfEven_spec (a : Nat) {b : Nat} (hb : 0 < b) :
    2 * (b * roundHalfEven a b) ≤ 2 * a + b ∧ 2 * a ≤ 2 * (b * roundHalfEven a b) + b ∧
      (2 * (b * roundHalfEven a b) = 2 * a + b ∨ 2 * a = 2 * (b * roundHalfEven a b) + b →
        roundHalfEven a b % 2 = 0) := by
  have hdiv : b * (a / b) + a % b = a := Nat.div_add_mod a b
  have hmod : a % b < b := Nat.mod_lt a hb
  have hup : b * (a / b + 1) = b * (a / b) + b := Nat.mul_succ b (a / b)
  unfold roundHalfEven
  split
  · omega
  · split
    · rw [hup]; omega
    · split
      · omega
      · rw [hup]; omega

/-- Rounding up needs a remainder, so the rounded quotient never exceeds the dividend. -/
theorem roundHalfEven_le (a : Nat) {b : Nat} (hb : 0 < b) : roundHalfEven a b ≤ a := by
  have hmod : a % b < b := Nat.mod_lt a hb
  have hfloor : a / b ≤ a := Nat.div_le_self a b
  have hup : b ≤ 2 * (a % b) → a / b + 1 ≤ a := fun h => by
    have hdiv : b * (a / b) + a % b = a := Nat.div_add_mod a b
    have hmul : 1 * (a / b) ≤ b * (a / b) := Nat.mul_le_mul_right _ hb
    omega
  unfold roundHalfEven
  split
  · exact hfloor
  · split
    · exact hup (by omega)
    · split
      · exact hfloor
      · exact hup (by omega)

/-- R10: the rounding of the exact quotient, to nearest with ties to even. -/
theorem roundHalfEven_rat (a : Nat) {b : Nat} (hb : 0 < b) :
    |(roundHalfEven a b : ℚ) - a / b| ≤ 1 / 2 ∧
      (|(roundHalfEven a b : ℚ) - a / b| = 1 / 2 → roundHalfEven a b % 2 = 0) := by
  obtain ⟨hlo, hhi, htie⟩ := roundHalfEven_spec a hb
  generalize roundHalfEven a b = q at *
  have hb' : (0 : ℚ) < b := by exact_mod_cast hb
  have hdist : (q : ℚ) - a / b = (b * q - a) / b := by field_simp
  have hlo' : 2 * ((b : ℚ) * q) ≤ 2 * a + b := by exact_mod_cast hlo
  have hhi' : 2 * (a : ℚ) ≤ 2 * (b * q) + b := by exact_mod_cast hhi
  rw [hdist, abs_div, abs_of_pos hb']
  refine ⟨?_, fun h => htie ?_⟩
  · rw [div_le_iff₀ hb', abs_le]
    constructor <;> linarith
  · rw [div_eq_iff hb'.ne'] at h
    obtain h | h := eq_or_eq_neg_of_abs_eq h
    · refine .inl ?_
      have : 2 * ((b : ℚ) * q) = 2 * a + b := by linarith
      exact_mod_cast this
    · refine .inr ?_
      have : 2 * (a : ℚ) = 2 * (b * q) + b := by linarith
      exact_mod_cast this

theorem spb_of_baud_zero {b : Block} (h : b.baudC = 0#32) : b.spb = 0 := by
  simp [Block.spb, samplesPerBit, h]

theorem spb_of_baud_ne_zero {b : Block} (h : 0 < b.baudC.toNat) : b.spb = roundHalfEven b.fsC.toNat b.baudC.toNat :=
  if_neg h.ne'

theorem spb_lt (b : Block) (h : 0 < b.baudC.toNat) : b.spb < 2 ^ 32 := by
  rw [spb_of_baud_ne_zero h]
  exact (roundHalfEven_le _ h).trans_lt b.fsC.isLt

/-! ### The obligations -/

/-- Settles O22: a step by what it can do, the registers by their addresses. -/
theorem capacitiesNeverChange : Obligations.CapacitiesNeverChange := by
  refine ⟨fun _ _ => step_inst, fun s => ⟨exec_rd_reg .capText s, exec_rd_reg .capBit s, exec_rd_reg .capSamp s, ?_⟩⟩
  intro d a ha
  have hcaps : [0x0E#32, 0x0F#32, 0x10#32] ⊆ readOnlyRegs.map regAddr := by decide
  exact exec_wr_readOnly (hcaps ha) d s

/-- Settles O23: SPB fits its word, so the word read is the rounded quotient itself. -/
theorem spbIsTheRoundedQuotient : Obligations.SpbIsTheRoundedQuotient := by
  intro s
  refine ⟨BitVec.ofNat 32 s.block.spb, exec_rd_reg .spb s, fun h => by rw [spb_of_baud_zero h], fun h => ?_,
    fun v => exec_wr_readOnly (by decide : 0x09#32 ∈ readOnlyRegs.map regAddr) v s⟩
  have hbaud : 0 < s.block.baudC.toNat := Nat.pos_of_ne_zero fun h0 => h (BitVec.eq_of_toNat_eq h0)
  rw [BitVec.toNat_ofNat, Nat.mod_eq_of_lt (spb_lt s.block hbaud), spb_of_baud_ne_zero hbaud]
  exact roundHalfEven_rat _ hbaud

/-- Settles O57: one stage by `failed_one`, two by `failed_two`. -/
theorem failedCommandWritesNoOutput : Obligations.FailedCommandWritesNoOutput := by
  intro s t he
  simp only [List.forall_mem_cons, List.not_mem_nil, false_implies, implies_true, and_true]
  exact ⟨⟨fun ht => failed_one frmStage_outcome (by cases ht; rfl) he,
      fun ht => failed_one (synStage_outcome num) (by cases ht; rfl) he,
      fun ht => failed_one (clsStage_outcome num) (by cases ht; rfl) he,
      fun ht => failed_one dfrStage_outcome (by cases ht; rfl) he⟩,
    fun ht => failed_two frmStage_outcome (synStage_outcome num) (by cases ht; rfl) he,
    fun ht => failed_two (clsStage_outcome num) dfrStage_outcome (by cases ht; rfl) he⟩

/-- Settles O1, the reads by `exec_rd_reg`. -/
theorem resetStateHoldsTheSpecsValues : Obligations.ResetStateHoldsTheSpecsValues := by
  have hspb : State.reset.block.spb = 970 := by decide
  refine ⟨⟨rfl, rfl, rfl, rfl, rfl, rfl, rfl, rfl, rfl, rfl, rfl⟩, fun i => ⟨rfl, rfl, rfl, rfl⟩,
    exec_rd_reg .id _, ?_, exec_rd_reg .capText _, exec_rd_reg .capBit _, exec_rd_reg .capSamp _, exec_rd_reg .cmd _⟩
  exact (exec_rd_reg .spb _).trans (by rw [readReg, hspb])

/-- Settles O11, command by command from `exec_wr_word`. -/
theorem writeToCmdRunsTheCommand : Obligations.WriteToCmdRunsTheCommand := fun s =>
  ⟨exec_wr_word .nop s, exec_wr_word .frm s, exec_wr_word .syn s, exec_wr_word .enc s, exec_wr_word .cls s,
    exec_wr_word .dfr s, exec_wr_word .dec s, exec_wr_word .clr s, exec_wr_word .rst s⟩

/-- Settles O16: every command but NOP clears STATUS and ERRINFO before it reads anything (R170). -/
theorem statusDescribesTheLastCommandOnly : Obligations.StatusDescribesTheLastCommandOnly := by
  intro c s st ei hc
  refine ⟨_, _, exec_command c s, exec_command c _, ?_⟩
  simp only [State.complete_block, writeCmd, commandOf_word]
  cases c with
  | nop => exact absurd rfl hc
  | clr | rst => rfl
  | frm | syn | enc | cls | dfr | dec => exact (runCommandStages_withStatus _ s.block st ei).symm

/-- Settles O18, register by register from `exec_wr_reg`. -/
theorem writeToRegisterStoresOrIsIgnored : Obligations.WriteToRegisterStoresOrIsIgnored := by
  intro s d
  refine ⟨?_, exec_wr_reg .baudC d s, exec_wr_reg .markC d s, exec_wr_reg .spaceC d s, exec_wr_reg .fsC d s,
    exec_wr_reg .txtLen d s, exec_wr_reg .bitLen d s, exec_wr_reg .smpLen d s, fun a ha => exec_wr_readOnly ha d s⟩
  exact (exec_wr_reg .ctrl d s).trans (by rw [writeReg, lowBit_eq_and_one])

end Sys2Proof.Safety
end

section
/-! PROOFS. What a command reads (spec/10_state.md R46, spec/20_memory.md R75): a relation between two blocks that every
stage keeps. Blocks that agree on the registers and below the length registers give a stage the same operands, so both take
the same branch and store the same output. -/

namespace Sys2Proof.Safety

open Sys2Proof.Machine

/-- The same registers, and the same buffer entries below the length registers (R46). -/
def Agree (a b : Block) : Prop := SameRegisters a b ∧ SameContents a b

/-- A stage that takes blocks that agree to blocks that agree. -/
def KeepsAgreement (stage : Block → Block) : Prop := ∀ a b, Agree a b → Agree (stage a) (stage b)

theorem Agree.ite {c : Prop} [Decidable c] {x x' y y' : Block} (ht : Agree x x') (he : Agree y y') :
    Agree (if c then x else y) (if c then x' else y') := by
  split
  · exact ht
  · exact he

/-- A length register reaches no entry beyond those written: it holds their number or, were that 2^32 or more, less. -/
theorem lt_of_lt_lengthWord {i n : Nat} (hi : i < (BitVec.ofNat 32 n).toNat) : i < n := by
  rw [BitVec.toNat_ofNat] at hi
  exact hi.trans_le (Nat.mod_le _ _)

section
variable {a b : Block} (h : Agree a b)
include h

/-! ### What agreeing blocks share -/

theorem Agree.inst : a.inst = b.inst := by
  obtain ⟨⟨hinst, -⟩, -⟩ := h
  exact hinst

theorem Agree.status : a.status = b.status := by
  obtain ⟨⟨-, -, hst, -⟩, -⟩ := h
  exact hst

theorem Agree.errinfo : a.errinfo = b.errinfo := by
  obtain ⟨⟨-, -, -, hei, -⟩, -⟩ := h
  exact hei

theorem Agree.txtLen : a.txtLen = b.txtLen := by
  obtain ⟨⟨-, -, -, -, -, -, -, -, htl, -⟩, -⟩ := h
  exact htl

theorem Agree.bitLen : a.bitLen = b.bitLen := by
  obtain ⟨⟨-, -, -, -, -, -, -, -, -, hbl, -⟩, -⟩ := h
  exact hbl

theorem Agree.smpLen : a.smpLen = b.smpLen := by
  obtain ⟨⟨-, -, -, -, -, -, -, -, -, -, hsl, -⟩, -⟩ := h
  exact hsl

theorem Agree.err : a.err = b.err := by simp only [Block.err, h.status]

theorem Agree.strict : a.strict = b.strict := by
  obtain ⟨⟨-, hctrl, -⟩, -⟩ := h
  simp only [Block.strict, hctrl]

theorem Agree.config : a.baudC = b.baudC ∧ a.markC = b.markC ∧ a.spaceC = b.spaceC ∧ a.fsC = b.fsC := by
  obtain ⟨⟨-, -, -, -, hbaud, hmark, hspace, hfs, -⟩, -⟩ := h
  exact ⟨hbaud, hmark, hspace, hfs⟩

theorem Agree.spb : a.spb = b.spb := by
  obtain ⟨hbaud, -, -, hfs⟩ := h.config
  simp only [Block.spb, hbaud, hfs]

theorem Agree.segment (nm : Config.Num) : a.segment nm = b.segment nm := by
  obtain ⟨-, hmark, hspace, hfs⟩ := h.config
  funext n bit
  simp only [Block.segment, Block.tone, hmark, hspace, hfs]

theorem Agree.classify (nm : Config.Num) : a.classify nm = b.classify nm := by
  obtain ⟨-, hmark, hspace, hfs⟩ := h.config
  funext n x
  simp only [Block.classify, hmark, hspace, hfs]

/-! ### The operands of the stages -/

theorem Agree.txtInAt {i : Nat} (hi : i < a.txtLen.toNat) : a.txtInAt i = b.txtInAt i := by
  obtain ⟨-, hti, -⟩ := h
  exact hti i hi

theorem Agree.bitAt {i : Nat} (hi : i < a.bitLen.toNat) : a.bitAt i = b.bitAt i := by
  obtain ⟨-, -, hbb, -⟩ := h
  exact hbb i hi

theorem Agree.smpAt {i : Nat} (hi : i < a.smpLen.toNat) : a.smpAt i = b.smpAt i := by
  obtain ⟨-, -, -, hsm, -⟩ := h
  exact hsm i hi

theorem Agree.text : a.text a.txtLen.toNat = b.text b.txtLen.toNat := by
  rw [← h.txtLen]
  exact List.map_congr_left fun i hi => h.txtInAt (List.mem_range.1 hi)

theorem Agree.bits : a.bits a.bitLen.toNat = b.bits b.bitLen.toNat := by
  rw [← h.bitLen]
  exact List.map_congr_left fun i hi => h.bitAt (List.mem_range.1 hi)

/-- The complete groups lie below BIT_LEN. -/
theorem Agree.groups : a.groups (a.bitLen.toNat / 9) = b.groups (b.bitLen.toNat / 9) := by
  rw [← h.bitLen]
  refine List.map_congr_left fun g hg => List.map_congr_left fun j hj => h.bitAt ?_
  have hg' : g < a.bitLen.toNat / 9 := List.mem_range.1 hg
  have hj' : j < 9 := List.mem_range.1 hj
  omega

/-- The complete windows lie below SMP_LEN. -/
theorem Agree.windows : a.windows a.spb (a.smpLen.toNat / a.spb) = b.windows b.spb (b.smpLen.toNat / b.spb) := by
  rw [← h.spb, ← h.smpLen]
  refine List.map_congr_left fun w hw => List.map_congr_left fun j hj => congrArg BitVec.toInt (h.smpAt ?_)
  have hj' : j < a.spb := List.mem_range.1 hj
  calc w * a.spb + j < (w + 1) * a.spb := by rw [Nat.succ_mul]; omega
    _ ≤ a.smpLen.toNat / a.spb * a.spb := Nat.mul_le_mul_right _ (List.mem_range.1 hw)
    _ ≤ a.smpLen.toNat := Nat.div_mul_le_self _ _

/-! ### The updates of a command -/

theorem Agree.withStatus {st st' ei ei' : Word} (hst : st = st') (hei : ei = ei') :
    Agree (withStatus a st ei) (withStatus b st' ei') := by
  obtain ⟨⟨hinst, hctrl, -, -, hregs⟩, hc⟩ := h
  exact ⟨⟨hinst, hctrl, hst, hei, hregs⟩, hc⟩

theorem Agree.fail (e : ErrorCode) (n : Nat) : Agree (a.fail e n) (b.fail e n) :=
  h.withStatus (congrArg (statusWithError · e) h.status) rfl

theorem Agree.raiseFlag (m : Word) (c : Bool) : Agree (a.raiseFlag m c) (b.raiseFlag m c) :=
  h.withStatus (congrArg (fun st => if c then st ||| m else st) h.status) h.errinfo

theorem Agree.clearStatus : Agree a.clearStatus b.clearStatus := h.withStatus rfl rfl

theorem Agree.setDone : Agree a.setDone b.setDone := h.withStatus (congrArg (· ||| maskDone) h.status) h.errinfo

theorem Agree.storeBits (vs : List Bit) : Agree (a.storeBits vs) (b.storeBits vs) := by
  obtain ⟨⟨hinst, hctrl, hst, hei, hbaud, hmark, hspace, hfs, htl, -, hsl, hol⟩, hti, -, hsm, hto⟩ := h
  refine ⟨⟨hinst, hctrl, hst, hei, hbaud, hmark, hspace, hfs, htl, rfl, hsl, hol⟩, hti, fun i hi => ?_, hsm, hto⟩
  have hlt : i < vs.length := lt_of_lt_lengthWord hi
  rw [Block.storeBits_bitAt, Block.storeBits_bitAt, dif_pos hlt, dif_pos hlt]

theorem Agree.storeSamples (vs : List Sample) : Agree (a.storeSamples vs) (b.storeSamples vs) := by
  obtain ⟨⟨hinst, hctrl, hst, hei, hbaud, hmark, hspace, hfs, htl, hbl, -, hol⟩, hti, hbb, -, hto⟩ := h
  refine ⟨⟨hinst, hctrl, hst, hei, hbaud, hmark, hspace, hfs, htl, hbl, rfl, hol⟩, hti, hbb, fun i hi => ?_, hto⟩
  have hlt : i < vs.length := lt_of_lt_lengthWord hi
  rw [Block.storeSamples_smpAt, Block.storeSamples_smpAt, dif_pos hlt, dif_pos hlt]

theorem Agree.storeText (vs : List Ordinal) : Agree (a.storeText vs) (b.storeText vs) := by
  obtain ⟨⟨hinst, hctrl, hst, hei, hbaud, hmark, hspace, hfs, htl, hbl, hsl, -⟩, hti, hbb, hsm, -⟩ := h
  refine ⟨⟨hinst, hctrl, hst, hei, hbaud, hmark, hspace, hfs, htl, hbl, hsl, rfl⟩, hti, hbb, hsm, fun i hi => ?_⟩
  have hlt : i < vs.length := lt_of_lt_lengthWord hi
  rw [Block.storeText_txtOutAt, Block.storeText_txtOutAt, dif_pos hlt, dif_pos hlt]

end

/-! ### The four stages -/

theorem frmStage_agree : KeepsAgreement frmStage := by
  intro a b h
  unfold frmStage
  dsimp only
  rw [h.text, h.inst, h.txtLen]
  refine .ite (h.fail _ _) (.ite (h.fail _ _) ?_)
  cases (b.text b.txtLen.toNat).findIdx? fun c => decide (127 < c.toNat) with
  | some bad => exact h.fail _ _
  | none => exact h.storeBits _

theorem synStage_agree (nm : Config.Num) : KeepsAgreement (synStage nm) := by
  intro a b h
  unfold synStage
  dsimp only
  rw [h.bits, h.inst, h.spb, h.bitLen, h.segment nm]
  exact .ite (h.fail _ _) (.ite (h.fail _ _) (.ite (h.fail _ _) (h.storeSamples _)))

theorem clsStage_agree (nm : Config.Num) : KeepsAgreement (clsStage nm) := by
  intro a b h
  unfold clsStage
  dsimp only
  rw [h.windows, h.inst, h.spb, h.smpLen, h.strict, h.classify nm]
  refine .ite (h.fail _ _) (.ite (h.fail _ _) (.ite (h.fail _ _) ?_))
  have hflags (c z : Bool) := (h.raiseFlag maskTrailSmp c).raiseFlag maskAmbig z
  cases b.strict with
  | false => exact (hflags _ _).storeBits _
  | true =>
    cases (b.windows b.spb (b.smpLen.toNat / b.spb)).findIdx? ambiguous with
    | some w => exact (hflags _ _).fail _ _
    | none => exact (hflags _ _).storeBits _

theorem dfrStage_agree : KeepsAgreement dfrStage := by
  intro a b h
  unfold dfrStage
  dsimp only
  rw [h.groups, h.inst, h.bitLen, h.strict]
  have hflags (c sb pb : Bool) := ((h.raiseFlag maskTrailBit c).raiseFlag maskStart sb).raiseFlag maskStop pb
  refine .ite (h.fail _ _) (.ite (h.fail _ _) (.ite ((hflags _ _ _).fail _ _) ?_))
  cases b.strict with
  | false => exact (hflags _ _ _).storeText _
  | true =>
    cases firstFramingFault ((b.groups (b.bitLen.toNat / 9)).findIdx? badStart)
      ((b.groups (b.bitLen.toNat / 9)).findIdx? badStop) with
    | some k => exact (hflags _ _ _).fail _ _
    | none => exact (hflags _ _ _).storeText _

/-! ### Commands -/

/-- Agreeing blocks have the same ERR, so both stop at the same stage. -/
theorem runStages_agree {stages : List (Block → Block)} (hst : ∀ f ∈ stages, KeepsAgreement f) {a b : Block}
    (h : Agree a b) : Agree (runStages stages a) (runStages stages b) := by
  induction stages generalizing a b with
  | nil => exact h
  | cons f rest ih =>
    have hf : Agree (f a) (f b) := hst f List.mem_cons_self a b h
    unfold runStages
    dsimp only
    rw [hf.err]
    exact .ite hf (ih (fun g hg => hst g (List.mem_cons_of_mem _ hg)) hf)

theorem runCommandStages_agree {stages : List (Block → Block)} (hst : ∀ f ∈ stages, KeepsAgreement f) {a b : Block}
    (h : Agree a b) : Agree (runCommandStages stages a) (runCommandStages stages b) :=
  (runStages_agree hst h.clearStatus).setDone

theorem writeCmd_agree {c : Command} (hc : c ≠ .rst) {a b : Block} (h : Agree a b) :
    Agree (writeCmd a c.word) (writeCmd b c.word) := by
  simp only [writeCmd, commandOf_word]
  cases c with
  | nop => exact h
  | clr => exact h.clearStatus
  | rst => exact absurd rfl hc
  | frm => exact runCommandStages_agree (by simp [frmStage_agree]) h
  | syn => exact runCommandStages_agree (by simp [synStage_agree]) h
  | enc => exact runCommandStages_agree (by simp [frmStage_agree, synStage_agree]) h
  | cls => exact runCommandStages_agree (by simp [clsStage_agree]) h
  | dfr => exact runCommandStages_agree (by simp [dfrStage_agree]) h
  | dec => exact runCommandStages_agree (by simp [clsStage_agree, dfrStage_agree]) h

/-- Settles O60: every command but RST keeps agreement. -/
theorem commandsReadOnlyRegistersAndContents : Obligations.CommandsReadOnlyRegistersAndContents := by
  intro c s s' hc hregs hcont
  obtain ⟨hregs', hcont'⟩ := writeCmd_agree hc ⟨hregs, hcont⟩
  exact ⟨_, _, exec_command c s, exec_command c s', hregs', hcont'⟩

end Sys2Proof.Safety
end

section
/-! PROOFS. The bus (spec/20_memory.md R61 to R67, R72): which place a bus address names, and reading and writing a buffer
entry by its address. -/

namespace Sys2Proof.Safety

open Sys2Proof.Machine

/-! ### Addresses -/

/-- The space is addr[31:28], the index addr[27:0] (R61). -/
theorem addrSpace_eq_div (a : Word) : addrSpace a = a.toNat / 2 ^ 28 := by
  rw [addrSpace, BitVec.extractLsb'_toNat, Nat.shiftRight_eq_div_pow]
  have := a.isLt
  omega

theorem addrIndex_eq_mod (a : Word) : addrIndex a = a.toNat % 2 ^ 28 := by
  rw [addrIndex, BitVec.extractLsb'_toNat, Nat.shiftRight_zero]

theorem addrOf_toNat {space i : Nat} (hs : space < 16) (hi : i < 2 ^ 28) :
    (addrOf space i).toNat = space * 2 ^ 28 + i := by
  rw [BitVec.toNat_ofNat]
  omega

theorem addrSpace_addrOf {space i : Nat} (hs : space < 16) (hi : i < 2 ^ 28) :
    addrSpace (addrOf space i) = space := by
  rw [addrSpace_eq_div, addrOf_toNat hs hi]
  omega

theorem addrIndex_addrOf {space i : Nat} (hs : space < 16) (hi : i < 2 ^ 28) :
    addrIndex (addrOf space i) = i := by
  rw [addrIndex_eq_mod, addrOf_toNat hs hi]
  omega

/-! ### The address map (R62, R67) -/

section
variable {inst : Config.Instance} {i : Nat} (hi : i < 2 ^ 28)
include hi

theorem placeOf_txtIn (hcap : i < inst.textCap) : placeOf inst (addrOf 1 i) = .txtIn i := by
  rw [placeOf, addrSpace_addrOf (by decide) hi, addrIndex_addrOf (by decide) hi]
  exact if_pos hcap

theorem placeOf_bitBuf (hcap : i < inst.bitCap) : placeOf inst (addrOf 2 i) = .bitBuf i := by
  rw [placeOf, addrSpace_addrOf (by decide) hi, addrIndex_addrOf (by decide) hi]
  exact if_pos hcap

theorem placeOf_smp (hcap : i < inst.sampCap) : placeOf inst (addrOf 3 i) = .smp i := by
  rw [placeOf, addrSpace_addrOf (by decide) hi, addrIndex_addrOf (by decide) hi]
  exact if_pos hcap

theorem placeOf_txtOut (hcap : i < inst.textCap) : placeOf inst (addrOf 4 i) = .txtOut i := by
  rw [placeOf, addrSpace_addrOf (by decide) hi, addrIndex_addrOf (by decide) hi]
  exact if_pos hcap

end

/-- No register lies above 0x10 (R36). -/
theorem regAt_eq_none {i : Nat} (h : 0x10 < i) : regAt i = none := by
  obtain ⟨k, rfl⟩ : ∃ k, i = k + 0x11 := ⟨i - 0x11, by omega⟩
  rfl

theorem placeOf_unmapped {inst : Config.Instance} {a : Word} (h : Unmapped inst a) : placeOf inst a = .unmapped := by
  unfold placeOf
  simp only [addrSpace_eq_div, addrIndex_eq_mod]
  split
  · next hs => rw [regAt_eq_none (by omega)]
  · next hs => exact if_neg (by omega)
  · next hs => exact if_neg (by omega)
  · next hs => exact if_neg (by omega)
  · next hs => exact if_neg (by omega)
  · rfl

/-- The space and index of the buffer entry that a place is (R60). -/
def entryOf : Place → Option (Nat × Nat)
  | .txtIn i  => some (1, i)
  | .bitBuf i => some (2, i)
  | .smp i    => some (3, i)
  | .txtOut i => some (4, i)
  | .reg _    => none
  | .unmapped => none

theorem entryOf_of_ite {c : Prop} [Decidable c] {p : Place} {e : Nat × Nat}
    (h : entryOf (if c then p else .unmapped) = some e) : entryOf p = some e := by
  split at h
  · exact h
  · cases h

/-- An entry is found at its own address only. -/
theorem entryOf_placeOf {inst : Config.Instance} {a : Word} {e : Nat × Nat} (h : entryOf (placeOf inst a) = some e) :
    (addrSpace a, addrIndex a) = e := by
  unfold placeOf at h
  dsimp only at h
  split at h
  · split at h <;> cases h
  · next hs => rw [hs]; exact Option.some.inj (entryOf_of_ite h)
  · next hs => rw [hs]; exact Option.some.inj (entryOf_of_ite h)
  · next hs => rw [hs]; exact Option.some.inj (entryOf_of_ite h)
  · next hs => rw [hs]; exact Option.some.inj (entryOf_of_ite h)
  · cases h

/-- An entry that the host may write, within its capacity, is the place of its address. -/
theorem entryOf_placeOf_addrOf {inst : Config.Instance} {space i : Nat} (hi : i < 2 ^ 28)
    (h : (space = 1 ∧ i < inst.textCap) ∨ (space = 2 ∧ i < inst.bitCap) ∨ (space = 3 ∧ i < inst.sampCap)) :
    entryOf (placeOf inst (addrOf space i)) = some (space, i) := by
  obtain ⟨rfl, hcap⟩ | ⟨rfl, hcap⟩ | ⟨rfl, hcap⟩ := h
  · rw [placeOf_txtIn hi hcap, entryOf]
  · rw [placeOf_bitBuf hi hcap, entryOf]
  · rw [placeOf_smp hi hcap, entryOf]

/-- Another entry's address is another place, be it an entry or unmapped. -/
theorem placeOf_addrOf_ne {inst : Config.Instance} {sp j : Nat} {e : Nat × Nat} {p : Place} (hsp : sp < 16)
    (hj : j < 2 ^ 28) (hp : entryOf p = some e) (hne : (sp, j) ≠ e) : placeOf inst (addrOf sp j) ≠ p := by
  rintro rfl
  have haddr := entryOf_placeOf hp
  rw [addrSpace_addrOf hsp hj, addrIndex_addrOf hsp hj] at haddr
  exact hne haddr

/-! ### Reading and writing by a place -/

theorem exec_rd_place {p : Place} {a : Word} {s : State} (h : placeOf s.block.inst a = p) :
    exec (.rd a) s = .next { s with replies := readPlace s.block p :: s.replies } := by
  subst h
  rfl

theorem exec_wr_place {p : Place} {a : Word} {s : State} (h : placeOf s.block.inst a = p) (d : Word) :
    exec (.wr a d) s =
      .next { s with block := writePlace s.block d p, replies := .write (writeResp p) :: s.replies } := by
  subst h
  rfl

/-- A read after a write is read in the block the write left, by the same map: no write changes the capacities (R35). -/
theorem exec_rd_after_wr {a a' d : Word} {s t : State} (h : exec (.wr a d) s = .next t) :
    exec (.rd a') t = .next { t with
      replies := readPlace (writePlace s.block d (placeOf s.block.inst a)) (placeOf s.block.inst a') :: t.replies } := by
  cases (exec_wr_place rfl d).symm.trans h
  exact exec_rd_place (congrArg (placeOf · a') (writePlace_inst _ _ _))

theorem exec_rd_unmapped {a : Word} {s : State} (h : Unmapped s.block.inst a) :
    exec (.rd a) s = .next { s with replies := .read .err 0#32 :: s.replies } :=
  exec_rd_place (placeOf_unmapped h)

section
variable (b : Block) (d : Word) (i j : Nat)

theorem writePlace_txtInAt : (writePlace b d (.txtIn i)).txtInAt j = if j = i then d else b.txtInAt j :=
  Memory.read_write _ _ _ _ _

theorem writePlace_bitAt : (writePlace b d (.bitBuf i)).bitAt j = if j = i then d.extractLsb' 0 1 else b.bitAt j :=
  Memory.read_write _ _ _ _ _

theorem writePlace_smpAt : (writePlace b d (.smp i)).smpAt j = if j = i then d.extractLsb' 0 16 else b.smpAt j :=
  Memory.read_write _ _ _ _ _

end

/-- A write to a buffer entry changes the reading of no other place (R66, R72). -/
theorem readPlace_writePlace_of_ne (b : Block) (d : Word) {p q : Place} {e : Nat × Nat} (hp : entryOf p = some e)
    (hne : q ≠ p) : readPlace (writePlace b d p) q = readPlace b q := by
  cases p with
  | reg r => cases hp
  | unmapped => cases hp
  | txtOut i => rfl
  | txtIn i => cases q with
    | txtIn j =>
      have hj : j ≠ i := fun h => hne (h ▸ rfl)
      simp only [readPlace, writePlace_txtInAt, if_neg hj]
    | reg r => cases r <;> rfl
    | bitBuf | smp | txtOut | unmapped => rfl
  | bitBuf i => cases q with
    | bitBuf j =>
      have hj : j ≠ i := fun h => hne (h ▸ rfl)
      simp only [readPlace, writePlace_bitAt, if_neg hj]
    | reg r => cases r <;> rfl
    | txtIn | smp | txtOut | unmapped => rfl
  | smp i => cases q with
    | smp j =>
      have hj : j ≠ i := fun h => hne (h ▸ rfl)
      simp only [readPlace, writePlace_smpAt, if_neg hj]
    | reg r => cases r <;> rfl
    | txtIn | bitBuf | txtOut | unmapped => rfl

theorem lowBit_eq_ofBool (d : Word) : d.extractLsb' 0 1 = BitVec.ofBool (d.getLsbD 0) := by
  ext i hi
  simp [show i = 0 by omega]

theorem low16_eq_truncate (d : Word) : d.extractLsb' 0 16 = d.truncate 16 :=
  (BitVec.setWidth_eq_extractLsb' (by decide)).symm

/-! ### The obligations -/

/-- Settles O20, both accesses at the place `unmapped`. -/
theorem unmappedAccessAnswersErr : Obligations.UnmappedAccessAnswersErr := fun _ _ h =>
  ⟨exec_rd_unmapped h, exec_wr_place (placeOf_unmapped h)⟩

/-- Settles O17, the registers by `exec_rd_reg`, the entries by the place of their address. -/
theorem readAnswersTheMappedWord : Obligations.ReadAnswersTheMappedWord := fun s =>
  ⟨exec_rd_reg .id s, exec_rd_reg .ctrl s, exec_rd_reg .cmd s, exec_rd_reg .status s, exec_rd_reg .errinfo s,
    exec_rd_reg .baudC s, exec_rd_reg .markC s, exec_rd_reg .spaceC s, exec_rd_reg .fsC s, exec_rd_reg .spb s,
    exec_rd_reg .txtLen s, exec_rd_reg .bitLen s, exec_rd_reg .smpLen s, exec_rd_reg .outLen s, exec_rd_reg .capText s,
    exec_rd_reg .capBit s, exec_rd_reg .capSamp s,
    fun _ hi => ⟨fun hcap => exec_rd_place (placeOf_txtIn hi hcap), fun hcap => exec_rd_place (placeOf_bitBuf hi hcap),
      fun hcap => exec_rd_place (placeOf_smp hi hcap), fun hcap => exec_rd_place (placeOf_txtOut hi hcap)⟩,
    fun _ h => exec_rd_unmapped h⟩

/-- Settles O19: the written buffer is the one of `writePlace`, and its reads are the buffers' reads after a write. -/
theorem writeToBufferStoresOneEntry : Obligations.WriteToBufferStoresOneEntry := by
  intro s d i hi
  refine ⟨fun hcap => ⟨_, exec_wr_place (placeOf_txtIn hi hcap) d, ?_, fun j hj => ?_⟩,
    fun hcap => ⟨_, exec_wr_place (placeOf_bitBuf hi hcap) d, ?_, fun j hj => ?_⟩,
    fun hcap => ⟨_, exec_wr_place (placeOf_smp hi hcap) d, ?_, fun j hj => ?_⟩,
    fun hcap => exec_wr_place (placeOf_txtOut hi hcap) d⟩
  · exact (writePlace_txtInAt s.block d i i).trans (if_pos rfl)
  · exact (writePlace_txtInAt s.block d i j).trans (if_neg hj)
  · exact (writePlace_bitAt s.block d i i).trans ((if_pos rfl).trans (lowBit_eq_ofBool d))
  · exact (writePlace_bitAt s.block d i j).trans (if_neg hj)
  · exact (writePlace_smpAt s.block d i i).trans ((if_pos rfl).trans (low16_eq_truncate d))
  · exact (writePlace_smpAt s.block d i j).trans (if_neg hj)

/-- Settles O21: the entry written by the buffers' reads after a write, every other entry by `readPlace_writePlace_of_ne`. -/
theorem readReturnsTheLatestWrite : Obligations.ReadReturnsTheLatestWrite := by
  intro s t d space i j hi hj hmapped ht
  refine ⟨?_, ?_, ?_, fun sp hsp hne u v hu hv => ?_⟩
  · rintro rfl
    have hcap : i < s.block.inst.textCap := by simpa using hmapped
    rw [exec_rd_after_wr ht, placeOf_txtIn hi hcap, readPlace, writePlace_txtInAt, if_pos rfl]
  · rintro rfl
    have hcap : i < s.block.inst.bitCap := by simpa using hmapped
    rw [exec_rd_after_wr ht, placeOf_bitBuf hi hcap, readPlace, writePlace_bitAt, if_pos rfl, lowBit_eq_and_one]
  · rintro rfl
    have hcap : i < s.block.inst.sampCap := by simpa using hmapped
    rw [exec_rd_after_wr ht, placeOf_smp hi hcap, readPlace, writePlace_smpAt, if_pos rfl, low16_eq_truncate,
      BitVec.signExtend]
  · have hsp16 : sp < 16 := (by decide : ∀ sp ∈ [1, 2, 3, 4], sp < 16) sp hsp
    have hentry := entryOf_placeOf_addrOf hi hmapped
    cases (exec_rd_place rfl).symm.trans hu
    cases (exec_rd_after_wr ht).symm.trans hv
    exact congrArg some (readPlace_writePlace_of_ne _ d hentry (placeOf_addrOf_ne hsp16 hj hentry hne)).symm

end Sys2Proof.Safety
end

section
/-! PROOFS. Issuing a command twice (spec/20_memory.md R70). A stage does not read what it stores, and the second stage of
ENC or DEC stores where the first neither reads nor writes; so running a command again repeats every stage's result. -/

namespace Sys2Proof.Safety

open Sys2Proof.Machine

/-! ### Storing the same output again -/

/-- A whole output hides any earlier one that is no longer. -/
theorem writeFirst_writeFirst {w : Nat} (m : Buffer w) {vs vs' : List (BitVec w)} (h : vs'.length ≤ vs.length) :
    Memory.writeFirst (Memory.writeFirst m vs') vs = Memory.writeFirst m vs := by
  have hold : (Memory.entriesFrom 0 vs').filter (fun c => decide (vs.length ≤ c.1)) = [] := by
    rw [List.filter_eq_nil_iff]
    intro c hc
    have := (Memory.mem_entriesFrom hc).2
    simp only [decide_eq_true_eq]
    omega
  have hrest (c : Nat × BitVec w) :
      (decide (vs.length ≤ c.1) && decide (vs'.length ≤ c.1)) = decide (vs.length ≤ c.1) := by
    rw [← Bool.decide_and, decide_eq_decide]
    omega
  simp only [Memory.writeFirst, List.filter_append, hold, List.nil_append, List.filter_filter, hrest]

theorem storeBits_storeBits (b : Block) (vs : List Bit) : (b.storeBits vs).storeBits vs = b.storeBits vs := by
  simp only [Block.storeBits, writeFirst_writeFirst b.bitBuf (Nat.le_refl vs.length)]

theorem storeSamples_storeSamples (b : Block) (vs : List Sample) :
    (b.storeSamples vs).storeSamples vs = b.storeSamples vs := by
  simp only [Block.storeSamples, writeFirst_writeFirst b.smp (Nat.le_refl vs.length)]

theorem storeText_storeText (b : Block) (vs : List Ordinal) : (b.storeText vs).storeText vs = b.storeText vs := by
  simp only [Block.storeText, writeFirst_writeFirst b.txtOut (Nat.le_refl vs.length)]

/-! ### When a stage succeeds -/

theorem frmStage_success {b : Block} (htext : b.txtLen.toNat ≤ b.inst.textCap) (hcap : 9 * b.txtLen.toNat ≤ b.inst.bitCap)
    (hascii : ∀ i < b.txtLen.toNat, (b.txtInAt i).toNat ≤ 127) :
    frmStage b = b.storeBits ((b.text b.txtLen.toNat).flatMap frame) := by
  obtain ⟨h, -⟩ | ⟨-, h, -⟩ | ⟨-, -, bad, hbad, h, -⟩ | ⟨-, -, -, heq⟩ := frmStage_cases b
  · omega
  · omega
  · have := hascii bad hbad
    omega
  · exact heq

theorem synStage_success {nm : Config.Num} {b : Block} (hspb : b.spb ≠ 0) (hlen : b.bitLen.toNat ≤ b.inst.bitCap)
    (hcap : b.bitLen.toNat * b.spb ≤ b.inst.sampCap) :
    synStage nm b = b.storeSamples ((b.bits b.bitLen.toNat).flatMap (b.segment nm b.spb)) := by
  obtain ⟨h, -⟩ | ⟨-, h, -⟩ | ⟨-, -, h, -⟩ | ⟨-, -, -, heq⟩ := synStage_cases nm b
  · exact absurd h hspb
  · omega
  · omega
  · exact heq

theorem clsStage_success {nm : Config.Num} {b : Block} {za : Option Nat} (hspb : b.spb ≠ 0)
    (hlen : b.smpLen.toNat ≤ b.inst.sampCap) (hcap : b.smpLen.toNat / b.spb ≤ b.inst.bitCap)
    (hza : (b.windows b.spb (b.smpLen.toNat / b.spb)).findIdx? ambiguous = za) (hok : b.strict = false ∨ za = none) :
    clsStage nm b =
      (b.clsFlags za).storeBits ((b.windows b.spb (b.smpLen.toNat / b.spb)).map (b.classify nm b.spb)) := by
  subst hza
  obtain ⟨h, -⟩ | ⟨-, h, -⟩ | ⟨-, -, h, -⟩ | ⟨-, -, -, _, rfl, ⟨hs, w, hw, -⟩ | ⟨-, heq⟩⟩ := clsStage_cases nm b
  · exact absurd h hspb
  · omega
  · omega
  · simp [hs, hw] at hok
  · exact heq

theorem dfrStage_success {b : Block} (hlen : b.bitLen.toNat ≤ b.inst.bitCap) (hcap : b.bitLen.toNat / 9 ≤ b.inst.textCap)
    (hok : b.strict = false ∨ (b.bitLen.toNat % 9 = 0 ∧
      firstFramingFault (b.firstBadStart (b.bitLen.toNat / 9)) (b.firstBadStop (b.bitLen.toNat / 9)) = none)) :
    dfrStage b = b.dfrFlags.storeText ((b.groups (b.bitLen.toNat / 9)).map unframe) := by
  obtain ⟨h, -⟩ | ⟨-, h, -⟩ | ⟨-, -, ⟨hs, h, -⟩ | ⟨hs, -, k, hk, -⟩ | ⟨-, heq⟩⟩ := dfrStage_cases b
  · omega
  · omega
  · simp [hs, h] at hok
  · simp [hs, hk] at hok
  · exact heq

/-! ### A stage run again -/

/-- A stage that, run again from the STATUS and ERRINFO it started with, leaves the same block. One that failed is given
the very block it had, since it wrote nothing else; one that stored its output computes the same output again. -/
def Repeatable (stage : Block → Block) : Prop := ∀ b, stage (withStatus (stage b) b.status b.errinfo) = stage b

theorem frmStage_repeatable : Repeatable frmStage := by
  intro b
  obtain ⟨-, heq⟩ | ⟨-, -, heq⟩ | ⟨-, -, bad, -, -, -, heq⟩ | ⟨htext, hcap, hascii, heq⟩ := frmStage_cases b <;> rw [heq]
  · exact heq
  · exact heq
  · exact heq
  · exact (frmStage_success (b := b.storeBits _) htext hcap hascii).trans (storeBits_storeBits b _)

theorem synStage_repeatable (nm : Config.Num) : Repeatable (synStage nm) := by
  intro b
  obtain ⟨-, heq⟩ | ⟨-, -, heq⟩ | ⟨-, -, -, heq⟩ | ⟨hspb, hlen, hcap, heq⟩ := synStage_cases nm b <;> rw [heq]
  · exact heq
  · exact heq
  · exact heq
  · exact (synStage_success (b := b.storeSamples _) hspb hlen hcap).trans (storeSamples_storeSamples b _)

theorem clsStage_repeatable (nm : Config.Num) : Repeatable (clsStage nm) := by
  intro b
  obtain ⟨-, heq⟩ | ⟨-, -, heq⟩ | ⟨-, -, -, heq⟩ | ⟨hspb, hlen, hcap, za, hza, ⟨-, w, -, heq⟩ | ⟨hok, heq⟩⟩ :=
    clsStage_cases nm b <;> rw [heq]
  · exact heq
  · exact heq
  · exact heq
  · exact heq
  · exact (clsStage_success (b := b.storeBits _) hspb hlen hcap hza hok).trans (storeBits_storeBits (b.clsFlags za) _)

theorem dfrStage_repeatable : Repeatable dfrStage := by
  intro b
  obtain ⟨-, heq⟩ | ⟨-, -, heq⟩ | ⟨hlen, hcap, ⟨-, -, heq⟩ | ⟨-, -, k, -, heq⟩ | ⟨hok, heq⟩⟩ := dfrStage_cases b <;> rw [heq]
  · exact heq
  · exact heq
  · exact heq
  · exact heq
  · exact (dfrStage_success (b := b.storeText _) hlen hcap hok).trans (storeText_storeText b.dfrFlags _)

/-! ### A stage before the other's output -/

/-- FRM neither reads nor writes what SYN stores. -/
theorem frmStage_storeSamples (b : Block) (vs : List Sample) :
    frmStage (b.storeSamples vs) = (frmStage b).storeSamples vs := by
  unfold frmStage
  simp only [Block.storeSamples_inst, Block.storeSamples_txtLen, Block.storeSamples_text,
    apply_ite (Block.storeSamples · vs)]
  refine if_congr Iff.rfl rfl (if_congr Iff.rfl rfl ?_)
  cases (b.text b.txtLen.toNat).findIdx? fun c => decide (127 < c.toNat) with
  | some bad => rfl
  | none => rfl

/-- CLS neither reads nor writes what DFR stores. -/
theorem clsStage_storeText (nm : Config.Num) (b : Block) (vs : List Ordinal) :
    clsStage nm (b.storeText vs) = (clsStage nm b).storeText vs := by
  unfold clsStage
  simp only [Block.storeText_inst, Block.storeText_smpLen, Block.storeText_spb, Block.storeText_windows,
    Block.storeText_strict, apply_ite (Block.storeText · vs)]
  refine if_congr Iff.rfl rfl (if_congr Iff.rfl rfl (if_congr Iff.rfl rfl ?_))
  cases b.strict with
  | false => rfl
  | true =>
    cases (b.windows b.spb (b.smpLen.toNat / b.spb)).findIdx? ambiguous with
    | some w => rfl
    | none => rfl

/-! ### Commands -/

/-- A command of one stage, run again, starts its stage from the same STATUS and ERRINFO (R170). -/
theorem runCommandStages_one_again {stage : Block → Block} (h : Repeatable stage) (b : Block) :
    runCommandStages [stage] (runCommandStages [stage] b) = runCommandStages [stage] b := by
  simp only [runCommandStages_one]
  exact congrArg Block.setDone (h b.clearStatus)

section
variable {α : Type} {store : Block → List α → Block} {first second : Block → Block}

/-- The first stage, run again under the output of the second, gives the second the block it had but for that output. -/
theorem first_again_after_second (hsecond : StageOutcome store second)
    (hfirst : ∀ b vs, first (store b vs) = store (first b) vs)
    (hstatus : ∀ b vs st ei, withStatus (store b vs) st ei = store (withStatus b st ei) vs)
    {b : Block} (h : first b.clearStatus = b) :
    first (second b).clearStatus = withStatus (second b) b.status b.errinfo := by
  obtain ⟨st, ei, heq⟩ | ⟨st, vs, heq, -⟩ := hsecond b
  · rw [heq]
    exact h
  · have hclear : (second b).clearStatus = store b.clearStatus vs := by
      rw [heq]
      exact hstatus _ vs 0#32 0#32
    rw [hclear, hfirst, h, heq, hstatus]

/-- A command of two stages whose second stores where the first neither reads nor writes. -/
theorem runCommandStages_two_again (h1 : Repeatable first) (h2 : Repeatable second) (hsecond : StageOutcome store second)
    (hfirst : ∀ b vs, first (store b vs) = store (first b) vs)
    (hstatus : ∀ b vs st ei, withStatus (store b vs) st ei = store (withStatus b st ei) vs) (b : Block) :
    runCommandStages [first, second] (runCommandStages [first, second] b) = runCommandStages [first, second] b := by
  have h1b : first (first b.clearStatus).clearStatus = first b.clearStatus := h1 b.clearStatus
  have hclear (x : Block) : x.setDone.clearStatus = x.clearStatus := rfl
  rw [runCommandStages_two first second b]
  split
  · next herr => rw [runCommandStages_two, hclear, h1b, if_pos herr]
  · next herr =>
    rw [runCommandStages_two, hclear, first_again_after_second hsecond hfirst hstatus h1b, h2]
    exact if_neg herr

end

theorem writeCmd_again {c : Command} (hc : c ≠ .rst) (b : Block) :
    writeCmd (writeCmd b c.word) c.word = writeCmd b c.word := by
  simp only [writeCmd, commandOf_word]
  cases c with
  | nop | clr => rfl
  | rst => exact absurd rfl hc
  | frm => exact runCommandStages_one_again frmStage_repeatable b
  | syn => exact runCommandStages_one_again (synStage_repeatable num) b
  | cls => exact runCommandStages_one_again (clsStage_repeatable num) b
  | dfr => exact runCommandStages_one_again dfrStage_repeatable b
  | enc =>
    exact runCommandStages_two_again frmStage_repeatable (synStage_repeatable num) (synStage_outcome num)
      frmStage_storeSamples (fun _ _ _ _ => rfl) b
  | dec =>
    exact runCommandStages_two_again (clsStage_repeatable num) dfrStage_repeatable dfrStage_outcome
      (clsStage_storeText num) (fun _ _ _ _ => rfl) b

/-- Settles O59: a command other than RST by `writeCmd_again`; a reset reads only the capacities and the epoch. -/
theorem commandsAreIdempotent : Obligations.CommandsAreIdempotent := by
  refine ⟨fun c s t u hc ht hu => ?_, fun s t u ht hu => ?_⟩
  · cases (exec_command c s).symm.trans ht
    cases (exec_command c _).symm.trans hu
    exact writeCmd_again hc s.block
  · cases ht
    cases hu
    rfl

end Sys2Proof.Safety
end

section
/-! PROOFS. The encoding (spec/30_encoding.md): decoding and encoding are inverse to each other on the well-formed
instructions (R80 to R84), a word that is no command raises ILLCMD (R85), and the character frame (R86 to R88). -/

namespace Sys2Proof.Safety

open Sys2Proof.Machine

/-! ### A request is its fields (R80) -/

/-- One bit of a request as a field. -/
theorem extractLsb'_one {w : Nat} (bits : BitVec w) (k : Nat) :
    bits.extractLsb' k 1 = BitVec.ofBool (bits.getLsbD k) := by
  ext i hi
  simp [show i = 0 by omega]

/-- A 33-bit request whose rw bit is 0 is the read of its address field. -/
theorem readRequest_addr {bits : BitVec 33} (hrw : bits.getLsbD 32 = false) :
    readRequest (bits.extractLsb' 0 32) = .busRd bits := by
  have hbit : bits.extractLsb' 32 1 = 0#1 := (extractLsb'_one bits 32).trans (by rw [hrw]; rfl)
  have hfields : bits.extractLsb' 32 1 ++ bits.extractLsb' 0 32 = bits := BitVec.extractLsb'_append_extractLsb'
  rw [hbit] at hfields
  exact congrArg Request.busRd hfields

/-- A 65-bit request whose rw bit is 1 is the write of its data field to its address field. -/
theorem writeRequest_addr_data {bits : BitVec 65} (hrw : bits.getLsbD 64 = true) :
    writeRequest (bits.extractLsb' 32 32) (bits.extractLsb' 0 32) = .busWr bits := by
  have hbit : bits.extractLsb' 64 1 = 1#1 := (extractLsb'_one bits 64).trans (by rw [hrw]; rfl)
  have hupper : bits.extractLsb' 64 1 ++ bits.extractLsb' 32 32 = bits.extractLsb' 32 33 :=
    BitVec.extractLsb'_append_extractLsb'_eq_extractLsb' rfl
  have hfields : bits.extractLsb' 32 33 ++ bits.extractLsb' 0 32 = bits := BitVec.extractLsb'_append_extractLsb'
  rw [← hupper, hbit] at hfields
  exact congrArg Request.busWr hfields

/-- What a request that decodes is: the read of an address, or the write of a word to an address. -/
theorem decode_eq_instr_cases {r : Request} {i : Instr} (h : decode r = .instr i) :
    (∃ addr, r = readRequest addr ∧ i = .rd addr) ∨
      ∃ addr data, r = writeRequest addr data ∧ i = decodeWrite addr data := by
  cases r with
  | busRd bits =>
    cases hrw : bits.getLsbD 32 with
    | true =>
      have hrejected : decode (.busRd bits) = .rejected .readFormatSaysWrite := if_pos hrw
      cases hrejected.symm.trans h
    | false =>
      rw [← readRequest_addr hrw, decode_readRequest] at h
      exact .inl ⟨_, (readRequest_addr hrw).symm, (Decoded.instr.inj h).symm⟩
  | busWr bits =>
    cases hrw : bits.getLsbD 64 with
    | false =>
      have hrejected : decode (.busWr bits) = .rejected .writeFormatSaysRead := if_neg (Bool.eq_false_iff.1 hrw)
      cases hrejected.symm.trans h
    | true =>
      rw [← writeRequest_addr_data hrw, decode_writeRequest] at h
      exact .inr ⟨_, _, (writeRequest_addr_data hrw).symm, (Decoded.instr.inj h).symm⟩

/-! ### Commands and writes (R82, R84) -/

theorem encode_command (c : Command) : encode c.instr = writeRequest cmdAddr c.word := by cases c <;> rfl

theorem wellFormed_command (c : Command) : wellFormed c.instr = true := by cases c <;> rfl

theorem decode_commandWord (c : Command) : decode (writeRequest cmdAddr c.word) = .instr c.instr := by
  rw [decode_writeRequest, decodeWrite_command]

theorem wellFormed_wr_iff {addr data : Word} :
    wellFormed (.wr addr data) = true ↔ (addr = cmdAddr → commandOf data = none) := by
  simp [wellFormed, isCommandWord, imp_iff_not_or]

/-- A well-formed write is decoded as itself. -/
theorem decodeWrite_of_wellFormed {addr data : Word} (h : wellFormed (.wr addr data) = true) :
    decodeWrite addr data = .wr addr data := by
  unfold decodeWrite
  split
  · next haddr => rw [wellFormed_wr_iff.1 h haddr]
  · rfl

/-- A write that is not well-formed is that of a command's word to CMD. -/
theorem eq_command_of_not_wellFormed {addr data : Word} (h : ¬ wellFormed (.wr addr data) = true) :
    ∃ c : Command, addr = cmdAddr ∧ data = c.word := by
  rw [wellFormed_wr_iff, Classical.not_imp] at h
  obtain ⟨haddr, hdata⟩ := h
  obtain ⟨c, hc⟩ := Option.ne_none_iff_exists'.1 hdata
  exact ⟨c, haddr, (word_of_commandOf hc).symm⟩

/-! ### Illegal command words (R85) -/

/-- The nine words of R84 are all that name a command. -/
theorem commandOf_eq_none {w : Word} (h : w ∉ allCommands.map Command.word) : commandOf w = none := by
  cases hc : commandOf w with
  | none => rfl
  | some c => exact absurd (List.mem_map.2 ⟨c, List.mem_of_find?_eq_some hc, word_of_commandOf hc⟩) h

/-- An error on a cleared STATUS, once DONE is set, leaves the error's word and its information (R199). -/
theorem clearStatus_fail_setDone (b : Block) (e : ErrorCode) (n : Nat) :
    (b.clearStatus.fail e n).setDone = withStatus b (errorWord e) (BitVec.ofNat 32 n) := by
  rw [← statusWithError_zero]
  rfl

/-- A word that names no command raises ILLCMD with ERRINFO = the word (R197). -/
theorem writeCmd_illegal {w : Word} (h : commandOf w = none) (b : Block) :
    writeCmd b w = withStatus b (errorWord .illcmd) w := by
  rw [writeCmd, h, clearStatus_fail_setDone, BitVec.ofNat_toNat, BitVec.setWidth_eq]

/-! ### The character frame (R87, R88) -/

/-- The middle seven bits of a frame are the low seven of the character. -/
@[simp] theorem unframe_frame (c : Word) : unframe (frame c) = c.setWidth 7 := by
  have hbit (j : Nat) : (BitVec.ofBool (c.getLsbD j)).toNat = c.toNat / 2 ^ j % 2 := by
    rw [BitVec.toNat_ofBool, BitVec.getLsbD, Nat.toNat_testBit]
  apply BitVec.eq_of_toNat_eq
  simp only [unframe, frame, List.range, List.range.loop, List.map_cons, List.map_nil, List.sum_cons, List.sum_nil,
    List.getD_cons_succ, List.getD_cons_zero, hbit, BitVec.toNat_ofNat, BitVec.toNat_setWidth]
  omega

/-! ### The obligations -/

/-- Settles O8: a command by its word, a read and a well-formed write by their fields. -/
theorem decodeOfEncodeIsTheInstruction : Obligations.DecodeOfEncodeIsTheInstruction := by
  intro i hwf
  obtain ⟨c, rfl⟩ | ⟨addr, rfl⟩ | ⟨addr, data, rfl⟩ := instr_cases i
  · rw [encode_command, decode_commandWord]
  · exact decode_readRequest addr
  · rw [encode, decode_writeRequest, decodeWrite_of_wellFormed hwf]

/-- Settles O9: the request is a read, a write that stands for a command, or a well-formed write. -/
theorem decodedRequestIsTheEncoding : Obligations.DecodedRequestIsTheEncoding := by
  intro r i h
  obtain ⟨addr, rfl, rfl⟩ | ⟨addr, data, rfl, rfl⟩ := decode_eq_instr_cases h
  · exact ⟨rfl, rfl⟩
  · by_cases hwf : wellFormed (.wr addr data) = true
    · rw [decodeWrite_of_wellFormed hwf]
      exact ⟨hwf, rfl⟩
    · obtain ⟨c, rfl, rfl⟩ := eq_command_of_not_wellFormed hwf
      rw [decodeWrite_command]
      exact ⟨wellFormed_command c, encode_command c⟩

/-- Settles O10: the write to CMD by `exec_wr_reg`, the block it leaves by `writeCmd_illegal`. -/
theorem illegalCommandWordRaisesIllcmd : Obligations.IllegalCommandWordRaisesIllcmd := by
  intro s w hw
  have hnone : commandOf w = none := commandOf_eq_none hw
  exact (exec_wr_reg .cmd w s).trans (by rw [writeReg, writeCmd_illegal hnone, errorWord])

/-- Settles O7: the spec's words are the requests of the commands, the read and the write. -/
theorem specWordsDecodeToTheirInstructions : Obligations.SpecWordsDecodeToTheirInstructions :=
  ⟨decode_commandWord .nop, decode_commandWord .frm, decode_commandWord .syn, decode_commandWord .enc,
    decode_commandWord .cls, decode_commandWord .dfr, decode_commandWord .dec, decode_commandWord .clr,
    decode_commandWord .rst, decode_readRequest 0x30000001#32, decode_writeRequest 0x10000000#32 0x00000041#32⟩

/-- Settles O47: a character fits the seven bits that `unframe_frame` gives back. -/
theorem unframeOfFrameIsTheCharacter : Obligations.UnframeOfFrameIsTheCharacter := by
  intro c hc
  apply BitVec.eq_of_toNat_eq
  rw [unframe_frame, BitVec.zeroExtend, BitVec.toNat_setWidth, BitVec.toNat_setWidth]
  omega

end Sys2Proof.Safety
end

section
/-! PROOFS. The frame serializer (spec/40_framer.md R100): when FRM fails and with which error, the block it leaves when it
succeeds, and where the bit stream holds the bits of each character. -/

namespace Sys2Proof.Safety

open Sys2Proof.Machine

/-! ### A command of one stage (R170, R199) -/

/-- A command whose stage fails leaves the error's word and its information. -/
theorem runCommandStages_one_fail {stage : Block → Block} {b : Block} {e : ErrorCode} {info : Nat}
    (h : stage b.clearStatus = b.clearStatus.fail e info) :
    runCommandStages [stage] b = withStatus b (errorWord e) (BitVec.ofNat 32 info) := by
  rw [runCommandStages_one, h, clearStatus_fail_setDone]

/-- A command whose stage stores bits and sets no flag leaves STATUS = 1. -/
theorem runCommandStages_one_storeBits {stage : Block → Block} {b : Block} {bits : List Bit}
    (h : stage b.clearStatus = b.clearStatus.storeBits bits) :
    runCommandStages [stage] b = (withStatus b 0x01#32 0#32).storeBits bits := by
  have hdone : 0#32 ||| maskDone = 0x01#32 := by decide
  rw [runCommandStages_one, h, ← hdone]
  rfl

theorem exec_frm (s : State) : exec .frm s = .next (answered s (runCommandStages [frmStage] s.block)) := rfl

theorem exec_frm_fail {s : State} {e : ErrorCode} {info : Nat}
    (h : frmStage s.block.clearStatus = s.block.clearStatus.fail e info) :
    exec .frm s = .next (answered s (withStatus s.block (errorWord e) (BitVec.ofNat 32 info))) := by
  rw [exec_frm, runCommandStages_one_fail h]

/-! ### When FRM fails -/

section
variable {b : Block}

theorem frmStage_textCapacity (h : b.inst.textCap < b.txtLen.toNat) : frmStage b = b.fail .capacity 1 := by
  obtain ⟨-, heq⟩ | ⟨htext, -⟩ | ⟨htext, -⟩ | ⟨htext, -⟩ := frmStage_cases b
  · exact heq
  · omega
  · omega
  · omega

theorem frmStage_bitCapacity (htext : b.txtLen.toNat ≤ b.inst.textCap) (h : b.inst.bitCap < 9 * b.txtLen.toNat) :
    frmStage b = b.fail .capacity 2 := by
  obtain ⟨hlt, -⟩ | ⟨-, -, heq⟩ | ⟨-, hcap, -⟩ | ⟨-, hcap, -⟩ := frmStage_cases b
  · omega
  · exact heq
  · omega
  · omega

/-- The index reported is the one given, since both are the first above 127. -/
theorem frmStage_encoding (htext : b.txtLen.toNat ≤ b.inst.textCap) (hcap : 9 * b.txtLen.toNat ≤ b.inst.bitCap) {bad : Nat}
    (hbad : bad < b.txtLen.toNat) (hhigh : 127 < (b.txtInAt bad).toNat)
    (hfirst : ∀ i < bad, (b.txtInAt i).toNat ≤ 127) : frmStage b = b.fail .encoding bad := by
  obtain ⟨hlt, -⟩ | ⟨-, hlt, -⟩ | ⟨-, -, bad', -, hhigh', hfirst', heq⟩ | ⟨-, -, hascii, -⟩ := frmStage_cases b
  · omega
  · omega
  · obtain hlt | rfl | hlt := Nat.lt_trichotomy bad bad'
    · exact absurd (hfirst' bad hlt) (Nat.not_le.2 hhigh)
    · exact heq
    · exact absurd (hfirst bad' hlt) (Nat.not_le.2 hhigh')
  · exact absurd (hascii bad hbad) (Nat.not_le.2 hhigh)

end

/-! ### The bit stream (R87) -/

/-- Bit j of frame i of a stream of frames. -/
theorem getElem?_flatMap_frame (cs : List Word) (i : Nat) {j : Nat} (hj : j < 9) :
    (cs.flatMap frame)[9 * i + j]? = cs[i]?.bind fun c => (frame c)[j]? := by
  induction cs generalizing i with
  | nil => rfl
  | cons c cs ih =>
    have hlen : (frame c).length = 9 := rfl
    rw [List.flatMap_cons]
    cases i with
    | zero => rw [Nat.mul_zero, Nat.zero_add, List.getElem?_append_left (by omega)]; rfl
    | succ i =>
      rw [List.getElem?_append_right (by omega), show 9 * (i + 1) + j - (frame c).length = 9 * i + j by omega, ih i,
        List.getElem?_cons_succ]

/-- The seven middle bits of a frame are the character's, from bit 6 down. -/
theorem frame_middle (c : Word) {j : Nat} (hj : j ≤ 6) : (frame c)[1 + j]? = some (BitVec.ofBool (c.getLsbD (6 - j))) := by
  interval_cases j <;> rfl

/-- Below the length of a stored stream an entry reads as the stream's bit. -/
theorem storeBits_bitAt_of_getElem? (b : Block) {bits : List Bit} {k : Nat} {v : Bit} (h : bits[k]? = some v) :
    (b.storeBits bits).bitAt k = v := by
  obtain ⟨hk, rfl⟩ := List.getElem?_eq_some_iff.1 h
  rw [Block.storeBits_bitAt, dif_pos hk]

/-- From the length of a stored stream on the entries are the old ones (R46). -/
theorem storeBits_bitAt_of_length_le (b : Block) {bits : List Bit} {k : Nat} (h : bits.length ≤ k) :
    (b.storeBits bits).bitAt k = b.bitAt k := by
  rw [Block.storeBits_bitAt, dif_neg (Nat.not_lt.2 h)]

/-! ### The bit stream of a block's text -/

/-- The bits that FRM stores for the block's text. -/
def framedText (b : Block) : List Bit := (b.text b.txtLen.toNat).flatMap frame

theorem length_framedText (b : Block) : (framedText b).length = 9 * b.txtLen.toNat := by
  rw [framedText, length_flatMap_frame, Block.text, List.length_map, List.length_range]

theorem getElem?_framedText (b : Block) {i j : Nat} (hi : i < b.txtLen.toNat) (hj : j < 9) :
    (framedText b)[9 * i + j]? = (frame (b.txtInAt i))[j]? := by
  have htext : (b.text b.txtLen.toNat)[i]? = some (b.txtInAt i) := by simp [Block.text, hi]
  rw [framedText, getElem?_flatMap_frame _ i hj, htext, Option.bind_some]

/-! ### The obligation -/

/-- Settles O26: FRM's stage by its four outcomes, the entries of BITBUF by their places in the frames. -/
theorem frmWritesFramesOrFailsWhole : Obligations.FrmWritesFramesOrFailsWhole := by
  intro s b n
  refine ⟨fun h => exec_frm_fail (frmStage_textCapacity h), fun htext h => exec_frm_fail (frmStage_bitCapacity htext h),
    fun htext hcap bad hbad hhigh hfirst =>
      exec_frm_fail (frmStage_encoding (b := b.clearStatus) htext hcap hbad hhigh hfirst), fun htext hcap hascii => ?_⟩
  have hblock : runCommandStages [frmStage] b = (withStatus b 0x01#32 0#32).storeBits (framedText b) :=
    runCommandStages_one_storeBits (frmStage_success htext hcap hascii)
  have hlen : (framedText b).length = 9 * n := length_framedText b
  refine ⟨Memory.writeFirst b.bitBuf (framedText b), ?_, fun i hi => ⟨?_, fun j hj => ?_, ?_⟩, fun k hk => ?_⟩
  · rw [exec_frm, hblock, Block.storeBits, hlen]
  · exact storeBits_bitAt_of_getElem? b (getElem?_framedText b (j := 0) hi (by omega))
  · rw [Nat.add_assoc]
    exact storeBits_bitAt_of_getElem? b ((getElem?_framedText b hi (by omega)).trans (frame_middle _ hj))
  · exact storeBits_bitAt_of_getElem? b (getElem?_framedText b hi (by omega))
  · exact storeBits_bitAt_of_length_le b (hlen.trans_le hk)

end Sys2Proof.Safety
end

section
/-! PROOFS. The tone synthesizer (spec/41_synth.md R112, R118 to R121): when SPB is 0, when SYN fails and with which error,
where the sample sequence holds each sample of each segment, and ENC as FRM followed by SYN. -/

namespace Sys2Proof.Safety

open Sys2Proof.Machine

/-! ### When SPB is 0 (R112) -/

/-- A quotient of at most one half rounds to 0: half is a tie, and 0 is even. -/
theorem roundHalfEven_eq_zero_iff (a : Nat) {b : Nat} (hb : 0 < b) : roundHalfEven a b = 0 ↔ 2 * a ≤ b := by
  obtain ⟨hlo, hhi, heven⟩ := roundHalfEven_spec a hb
  constructor
  · intro h
    rw [h] at hhi
    omega
  · intro h
    obtain h0 | h1 | h2 : roundHalfEven a b = 0 ∨ roundHalfEven a b = 1 ∨ 2 ≤ roundHalfEven a b := by omega
    · exact h0
    · rw [h1] at hlo heven
      omega
    · have hmul : b * 2 ≤ b * roundHalfEven a b := Nat.mul_le_mul_left b h2
      omega

theorem toNat_pos_of_ne_zero {w : Word} (h : w ≠ 0#32) : 0 < w.toNat :=
  Nat.pos_of_ne_zero fun h0 => h (BitVec.eq_of_toNat_eq h0)

/-- Settles O24: FS_C = 0 is a case of 2 * FS_C <= BAUD_C. -/
theorem spbIsZeroExactlyWhen : Obligations.SpbIsZeroExactlyWhen := by
  intro b
  by_cases hbaud : b.baudC = 0#32
  · simp only [hbaud, spb_of_baud_zero hbaud, true_or]
  · have hpos : 0 < b.baudC.toNat := toNat_pos_of_ne_zero hbaud
    have hfs : b.fsC = 0#32 → 2 * b.fsC.toNat ≤ b.baudC.toNat := fun h => by simp [h]
    rw [spb_of_baud_ne_zero hpos, roundHalfEven_eq_zero_iff _ hpos, or_iff_right hbaud, or_iff_right_of_imp hfs]

/-! ### When SYN fails -/

theorem exec_syn (s : State) : exec .syn s = .next (answered s (runCommandStages [synStage num] s.block)) := rfl

theorem exec_enc (s : State) : exec .enc s = .next (answered s (runCommandStages [frmStage, synStage num] s.block)) := rfl

theorem exec_syn_fail {s : State} {e : ErrorCode} {info : Nat}
    (h : synStage num s.block.clearStatus = s.block.clearStatus.fail e info) :
    exec .syn s = .next (answered s (withStatus s.block (errorWord e) (BitVec.ofNat 32 info))) := by
  rw [exec_syn, runCommandStages_one_fail h]

section
variable {nm : Config.Num} {b : Block}

theorem synStage_config (h : b.spb = 0) : synStage nm b = b.fail .config 0 := by
  obtain ⟨-, heq⟩ | ⟨hspb, -⟩ | ⟨hspb, -⟩ | ⟨hspb, -⟩ := synStage_cases nm b
  · exact heq
  · exact absurd h hspb
  · exact absurd h hspb
  · exact absurd h hspb

theorem synStage_bitCapacity (hspb : b.spb ≠ 0) (h : b.inst.bitCap < b.bitLen.toNat) :
    synStage nm b = b.fail .capacity 2 := by
  obtain ⟨h0, -⟩ | ⟨-, -, heq⟩ | ⟨-, hle, -⟩ | ⟨-, hle, -⟩ := synStage_cases nm b
  · exact absurd h0 hspb
  · exact heq
  · omega
  · omega

theorem synStage_sampleCapacity (hspb : b.spb ≠ 0) (hlen : b.bitLen.toNat ≤ b.inst.bitCap)
    (h : b.inst.sampCap < b.bitLen.toNat * b.spb) : synStage nm b = b.fail .capacity 3 := by
  obtain ⟨h0, -⟩ | ⟨-, hlt, -⟩ | ⟨-, -, -, heq⟩ | ⟨-, -, hle, -⟩ := synStage_cases nm b
  · exact absurd h0 hspb
  · omega
  · exact heq
  · omega

end

/-! ### The sample sequence (R110, R118) -/

/-- Element j of block i of a list of blocks of one length. -/
theorem getElem?_flatMap_of_length {α β : Type} {f : α → List β} {n : Nat} (hf : ∀ x, (f x).length = n) (xs : List α)
    (i : Nat) {j : Nat} (hj : j < n) : (xs.flatMap f)[i * n + j]? = xs[i]?.bind fun x => (f x)[j]? := by
  induction xs generalizing i with
  | nil => rfl
  | cons x xs ih =>
    have hlen : (f x).length = n := hf x
    rw [List.flatMap_cons]
    cases i with
    | zero => rw [Nat.zero_mul, Nat.zero_add, List.getElem?_append_left (by omega)]; rfl
    | succ i =>
      have hi : (i + 1) * n + j = n + (i * n + j) := by rw [Nat.succ_mul]; omega
      rw [hi, ← hlen, List.getElem?_append_right (by omega), Nat.add_sub_cancel_left, hlen, ih i, List.getElem?_cons_succ]

/-- The samples that SYN stores for the block's bit stream. -/
def synthesizedBits (nm : Config.Num) (b : Block) : List Sample := (b.bits b.bitLen.toNat).flatMap (b.segment nm b.spb)

theorem length_synthesizedBits (nm : Config.Num) (b : Block) :
    (synthesizedBits nm b).length = b.bitLen.toNat * b.spb := by
  rw [synthesizedBits, length_flatMap_segment, Block.bits, List.length_map, List.length_range]

/-- Sample j of segment i is sample j of the tone of bit i. -/
theorem getElem?_synthesizedBits (nm : Config.Num) (b : Block) {i j : Nat} (hi : i < b.bitLen.toNat) (hj : j < b.spb) :
    (synthesizedBits nm b)[i * b.spb + j]? = some (toneSample nm (b.tone (b.bitAt i)) b.fsC.toNat j) := by
  have hsegment (bit : Bit) : (b.segment nm b.spb bit).length = b.spb := by simp [Block.segment]
  have hbit : (b.bits b.bitLen.toNat)[i]? = some (b.bitAt i) := by simp [Block.bits, hi]
  rw [synthesizedBits, getElem?_flatMap_of_length hsegment _ i hj, hbit, Option.bind_some]
  simp [Block.segment, hj]

/-- Below the length of a stored sequence an entry reads as the sequence's sample. -/
theorem storeSamples_smpAt_of_getElem? (b : Block) {vs : List Sample} {k : Nat} {v : Sample} (h : vs[k]? = some v) :
    (b.storeSamples vs).smpAt k = v := by
  obtain ⟨hk, rfl⟩ := List.getElem?_eq_some_iff.1 h
  rw [Block.storeSamples_smpAt, dif_pos hk]

/-- From the length of a stored sequence on the entries are the old ones (R46). -/
theorem storeSamples_smpAt_of_length_le (b : Block) {vs : List Sample} {k : Nat} (h : vs.length ≤ k) :
    (b.storeSamples vs).smpAt k = b.smpAt k := by
  rw [Block.storeSamples_smpAt, dif_neg (Nat.not_lt.2 h)]

/-- A command whose stage stores samples and sets no flag leaves STATUS = 1. -/
theorem runCommandStages_one_storeSamples {stage : Block → Block} {b : Block} {vs : List Sample}
    (h : stage b.clearStatus = b.clearStatus.storeSamples vs) :
    runCommandStages [stage] b = (withStatus b 0x01#32 0#32).storeSamples vs := by
  have hdone : 0#32 ||| maskDone = 0x01#32 := by decide
  rw [runCommandStages_one, h, ← hdone]
  rfl

/-- Settles O33: SYN's stage by its four outcomes, the entries of SMP by their places in the segments. -/
theorem synWritesSegmentsOrFailsWhole : Obligations.SynWritesSegmentsOrFailsWhole := by
  intro s b n len fs
  refine ⟨fun h => exec_syn_fail (synStage_config h), fun hspb h => exec_syn_fail (synStage_bitCapacity hspb h),
    fun hspb hlen h => exec_syn_fail (synStage_sampleCapacity hspb hlen h), fun hspb hlen hcap => ?_⟩
  have hblock : runCommandStages [synStage num] b = (withStatus b 0x01#32 0#32).storeSamples (synthesizedBits num b) :=
    runCommandStages_one_storeSamples (synStage_success hspb hlen hcap)
  have hlength : (synthesizedBits num b).length = len * n := length_synthesizedBits num b
  refine ⟨Memory.writeFirst b.smp (synthesizedBits num b), ?_, fun i hi j hj => ?_, fun k hk => ?_⟩
  · rw [exec_syn, hblock, Block.storeSamples, hlength]
  · exact storeSamples_smpAt_of_getElem? b (getElem?_synthesizedBits num b hi hj)
  · exact storeSamples_smpAt_of_length_le b (hlength.trans_le hk)

/-! ### ENC (R120, R121) -/

/-- FRM sets no flag: when it succeeds from a cleared STATUS, STATUS and ERRINFO are still clear. -/
theorem frmStage_clearStatus_of_ok {b : Block} (h : (frmStage b.clearStatus).err = false) :
    (frmStage b.clearStatus).clearStatus = frmStage b.clearStatus := by
  have hfail {e : ErrorCode} {info : Nat} (heq : frmStage b.clearStatus = b.clearStatus.fail e info) :
      (frmStage b.clearStatus).err = true := by rw [heq, Block.fail_err]
  obtain ⟨-, heq⟩ | ⟨-, -, heq⟩ | ⟨-, -, bad, -, -, -, heq⟩ | ⟨-, -, -, heq⟩ := frmStage_cases b.clearStatus
  · exact absurd (hfail heq) (Bool.eq_false_iff.1 h)
  · exact absurd (hfail heq) (Bool.eq_false_iff.1 h)
  · exact absurd (hfail heq) (Bool.eq_false_iff.1 h)
  · rw [heq]
    rfl

/-- Settles O34: the SYN that follows FRM clears a STATUS and an ERRINFO that FRM left clear but for DONE. -/
theorem encIsFrmThenSyn : Obligations.EncIsFrmThenSyn := by
  intro s
  have henc := exec_enc s
  rw [runCommandStages_two] at henc
  refine ⟨_, exec_frm s, fun herr => ?_, fun herr => ⟨_, exec_syn _, ?_⟩⟩
  all_goals simp only [runCommandStages_one, Block.setDone_err] at herr ⊢
  · rw [henc, if_pos herr]
  · have hclear : (frmStage s.block.clearStatus).setDone.clearStatus = frmStage s.block.clearStatus :=
      frmStage_clearStatus_of_ok herr
    rw [henc, if_neg (Bool.eq_false_iff.1 herr), hclear]

/-- Bit j of a frame is 1 for the stop bit and for the character's bits that are 1 (R87). -/
theorem frame_bit_eq_one_iff (c : Word) {j : Nat} (hj : j < 9) {bit : Bit} (h : (frame c)[j]? = some bit) :
    bit = 1#1 ↔ j = 8 ∨ (1 ≤ j ∧ c.getLsbD (7 - j) = true) := by
  have hbool (x : Bool) : BitVec.ofBool x = 1#1 ↔ x = true := by cases x <;> decide
  interval_cases j <;> cases h <;> simp [hbool]

/-- What ENC leaves when both stages succeed: FRM's bits, SYN's samples and STATUS = 1. -/
theorem runCommandStages_enc_success {b : Block} {bits : List Bit} {vs : List Sample}
    (hfrm : frmStage b.clearStatus = b.clearStatus.storeBits bits)
    (hsyn : synStage num (b.clearStatus.storeBits bits) = (b.clearStatus.storeBits bits).storeSamples vs) :
    runCommandStages [frmStage, synStage num] b = ((withStatus b 0x01#32 0#32).storeBits bits).storeSamples vs := by
  have herr : (b.clearStatus.storeBits bits).err = false := by rw [Block.storeBits_err, Block.clearStatus_err]
  have hdone : 0#32 ||| maskDone = 0x01#32 := by decide
  rw [runCommandStages_two, hfrm, if_neg (Bool.eq_false_iff.1 herr), hsyn, ← hdone]
  rfl

/-- The block that SYN finds in ENC: the text's bits are in BITBUF. -/
def framedBlock (b : Block) : Block := b.clearStatus.storeBits (framedText b)

theorem framedBlock_bitLen {b : Block} (h : 9 * b.txtLen.toNat < 2 ^ 32) :
    (framedBlock b).bitLen.toNat = 9 * b.txtLen.toNat := by
  rw [framedBlock, Block.storeBits_bitLen, length_framedText, BitVec.toNat_ofNat, Nat.mod_eq_of_lt h]

theorem framedBlock_bitAt (b : Block) {i j : Nat} (hi : i < b.txtLen.toNat) (hj : j < 9) :
    (frame (b.txtInAt i))[j]? = some ((framedBlock b).bitAt (9 * i + j)) := by
  obtain ⟨bit, hbit⟩ : ∃ bit, (frame (b.txtInAt i))[j]? = some bit := ⟨_, List.getElem?_eq_getElem (h := hj)⟩
  rw [hbit, framedBlock, storeBits_bitAt_of_getElem? _ ((getElem?_framedText b hi hj).trans hbit)]

/-- Settles O35: the samples are those of the bits that FRM stored, the bits those of the frames. -/
theorem encWritesTheTonesOfTheText : Obligations.EncWritesTheTonesOfTheText := by
  intro s b n spb fs hlegal htext hcap hascii hspb hsamp
  obtain ⟨-, ⟨-, hbitCap⟩, -, hsampCap⟩ := hlegal
  have hbitLen : (framedBlock b).bitLen.toNat = 9 * n := framedBlock_bitLen (by omega)
  have hlength : (synthesizedBits num (framedBlock b)).length = 9 * n * spb := by
    rw [length_synthesizedBits, hbitLen]
    rfl
  have hsyn : synStage num (framedBlock b) = (framedBlock b).storeSamples (synthesizedBits num (framedBlock b)) :=
    synStage_success hspb (by rwa [hbitLen]) (by rwa [hbitLen])
  refine ⟨_, exec_enc s, ?_⟩
  rw [runCommandStages_enc_success (frmStage_success (b := b.clearStatus) htext hcap hascii) hsyn]
  refine ⟨rfl, hbitLen, ?_, fun i hi j hj k hk => ?_⟩
  · rw [Block.storeSamples_smpLen, hlength, BitVec.toNat_ofNat, Nat.mod_eq_of_lt (by omega)]
  · have hsample := getElem?_synthesizedBits num (framedBlock b) (i := 9 * i + j) (j := k) (by omega) hk
    refine (storeSamples_smpAt_of_getElem? _ hsample).trans ?_
    rw [toneSample, phase, Block.tone, if_congr (frame_bit_eq_one_iff _ hj (framedBlock_bitAt b hi hj)) rfl rfl]
    rfl

end Sys2Proof.Safety
end

section
/-! PROOFS. The fixed-point sine (spec/41_synth.md R116, log entry 9): `arctanTail` and `sineTail` add up an alternating
series from the inside out, so their error is the sum of the errors of the terms they add and of the remainder they leave
out. With the guard bits of `sineQuarter` all of this stays below one unit of the result. -/

namespace Sys2Proof.Safety

open Sys2Proof.Machine

/-! ### Natural arithmetic against the reals -/

/-- A cut subtraction of approximations is as good as their difference, if what it approximates is not negative. -/
theorem abs_truncSub_sub_le {u v : ℕ} {x y z : ℝ} (hz : 0 ≤ z) (hxy : z = x - y) :
    |((u - v : ℕ) : ℝ) - z| ≤ |u - x| + |v - y| := by
  have hdiff : |(u : ℝ) - v - z| ≤ |u - x| + |v - y| := by
    rw [show (u : ℝ) - v - z = (u - x) - (v - y) by rw [hxy]; ring]
    exact abs_sub _ _
  refine le_trans ?_ hdiff
  obtain hle | hlt := le_or_gt v u
  · rw [Nat.cast_sub hle]
  · have hneg : (u : ℝ) - v < 0 := sub_neg.2 (by exact_mod_cast hlt)
    rw [Nat.sub_eq_zero_of_le hlt.le, Nat.cast_zero, zero_sub, abs_neg, abs_of_nonneg hz, abs_of_neg (by linarith)]
    linarith

/-- A floored quotient is within one of the quotient. -/
theorem abs_natDiv_sub_le (u v : ℕ) : |((u / v : ℕ) : ℝ) - u / v| ≤ 1 := by
  have hle : ((u / v : ℕ) : ℝ) ≤ u / v := Nat.cast_div_le
  have hlt : (u : ℝ) / v < (u / v : ℕ) + 1 := by
    rw [← Nat.floor_div_eq_div (K := ℝ)]
    exact Nat.lt_floor_add_one _
  rw [abs_sub_le_iff]
  constructor <;> linarith

/-- A floored quotient of an approximation. -/
theorem abs_natDiv_sub_div_le (u v : ℕ) (x : ℝ) : |((u / v : ℕ) : ℝ) - x / v| ≤ |u - x| / v + 1 := by
  have hscaled : |(u : ℝ) / v - x / v| = |u - x| / v := by rw [← sub_div, abs_div, Nat.abs_cast]
  linarith [abs_sub_le ((u / v : ℕ) : ℝ) (u / v) (x / v), abs_natDiv_sub_le u v]

/-! ### Remainders of an alternating series -/

/-- What is left of the alternating series t 0 - t 1 + ... = total from term i on, with term i positive. -/
noncomputable def altRemainder (t : ℕ → ℝ) (total : ℝ) (i : ℕ) : ℝ :=
  (-1) ^ i * (total - ∑ k ∈ Finset.range i, (-1) ^ k * t k)

theorem altRemainder_zero (t : ℕ → ℝ) (total : ℝ) : altRemainder t total 0 = total := by simp [altRemainder]

theorem altRemainder_eq_sub (t : ℕ → ℝ) (total : ℝ) (i : ℕ) :
    altRemainder t total i = t i - altRemainder t total (i + 1) := by
  have hsign : ((-1 : ℝ) ^ i) * (-1) ^ i = 1 := by rw [← mul_pow]; norm_num
  rw [altRemainder, altRemainder, Finset.sum_range_succ, pow_succ]
  linear_combination t i * hsign

/-- t 0 - t 1 + ... = total, the terms falling and not negative. -/
def AltSeries (t : ℕ → ℝ) (total : ℝ) : Prop :=
  Antitone t ∧ (∀ k, 0 ≤ t k) ∧ HasSum (fun k => (-1) ^ k * t k) total

section
variable {t : ℕ → ℝ} {total : ℝ} (h : AltSeries t total)
include h

theorem AltSeries.abs_remainder_le (i : ℕ) : |altRemainder t total i| ≤ t i := by
  obtain ⟨hanti, hpos, htotal⟩ := h
  have hsum : Summable t := by simpa [abs_mul, abs_of_nonneg (hpos _)] using htotal.summable.abs
  rw [altRemainder, abs_mul, abs_neg_one_pow, one_mul, ← htotal.tsum_eq]
  exact alternating_series_error_bound t hanti hsum i

theorem AltSeries.remainder_nonneg (i : ℕ) : 0 ≤ altRemainder t total i := by
  have hnext := (abs_le.1 (h.abs_remainder_le (i + 1))).2
  have hfall : t (i + 1) ≤ t i := h.1 (Nat.le_succ i)
  rw [altRemainder_eq_sub]
  linarith

/-- One step from the inside out: the errors of the term and of the rest add up. The cut of the subtraction at 0 does no
harm, since the remainder is not negative. -/
theorem AltSeries.abs_sub_remainder_le (i u rest : ℕ) :
    |((u - rest : ℕ) : ℝ) - altRemainder t total i| ≤ |u - t i| + |rest - altRemainder t total (i + 1)| :=
  abs_truncSub_sub_le (h.remainder_nonneg i) (altRemainder_eq_sub t total i)

end

/-! ### The arctangent of 1/q and pi/2 -/

/-- 2^w / q^(2i+1), which `arctanTail` divides further. -/
noncomputable def arctanPower (w q i : ℕ) : ℝ := 2 ^ w / q ^ (2 * i + 1)

theorem arctanPower_succ (w q i : ℕ) : arctanPower w q (i + 1) = arctanPower w q i / (q * q) := by
  rw [arctanPower, arctanPower, div_div]
  ring_nf

/-- 2^w times term i of the arctangent series of 1/q. -/
noncomputable def arctanTerm (w q i : ℕ) : ℝ := arctanPower w q i / (2 * i + 1)

theorem arctanPower_nonneg (w q i : ℕ) : 0 ≤ arctanPower w q i := by unfold arctanPower; positivity

/-- For q at least 2 the powers at least halve. -/
theorem arctanPower_succ_le (w : ℕ) {q : ℕ} (hq : 2 ≤ q) (i : ℕ) : arctanPower w q (i + 1) ≤ arctanPower w q i / 2 := by
  have hq' : (2 : ℝ) ≤ q := by exact_mod_cast hq
  rw [arctanPower_succ]
  have := arctanPower_nonneg w q i
  gcongr
  nlinarith

theorem arctan_altSeries (w : ℕ) {q : ℕ} (hq : 2 ≤ q) :
    AltSeries (arctanTerm w q) (2 ^ w * Real.arctan (q : ℝ)⁻¹) := by
  have hq' : (2 : ℝ) ≤ q := by exact_mod_cast hq
  refine ⟨antitone_nat_of_succ_le fun i => ?_, fun i => ?_, ?_⟩
  · have hpos := arctanPower_nonneg w q i
    have hhalf := arctanPower_succ_le w hq i
    unfold arctanTerm
    gcongr
    · linarith
    · simp
  · exact div_nonneg (arctanPower_nonneg w q i) (by positivity)
  · have hnorm : ‖(q : ℝ)⁻¹‖ < 1 := by
      rw [Real.norm_of_nonneg (by positivity)]
      exact inv_lt_one_of_one_lt₀ (by linarith)
    refine ((Real.hasSum_arctan hnorm).mul_left (2 ^ w)).congr_fun fun i => ?_
    simp only [arctanTerm, arctanPower, inv_pow, Nat.cast_add, Nat.cast_mul, Nat.cast_ofNat, Nat.cast_one]
    ring

/-- What is left of the series of 2^w * arctan(1/q) from term i on. -/
noncomputable def arctanRest (w q i : ℕ) : ℝ :=
  altRemainder (arctanTerm w q) (2 ^ w * Real.arctan (q : ℝ)⁻¹) i

theorem abs_arctanRest_le (w : ℕ) {q : ℕ} (hq : 2 ≤ q) (i : ℕ) : |arctanRest w q i| ≤ arctanPower w q i :=
  ((arctan_altSeries w hq).abs_remainder_le i).trans
    (div_le_self (arctanPower_nonneg w q i) (by linarith [i.cast_nonneg (α := ℝ)]))

/-- Each term added is off by at most 3, and what is left out when the fuel ends is at most 1. -/
theorem abs_arctanTail_sub_le (w : ℕ) {q : ℕ} (hq : 2 ≤ q) (fuel i p : ℕ) (hp : |(p : ℝ) - arctanPower w q i| ≤ 2)
    (hfuel : arctanPower w q i ≤ 2 ^ fuel) : |(arctanTail q fuel i p : ℝ) - arctanRest w q i| ≤ 3 * fuel + 1 := by
  induction fuel generalizing i p with
  | zero =>
    rw [arctanTail, Nat.cast_zero, zero_sub, abs_neg]
    simpa using (abs_arctanRest_le w hq i).trans hfuel
  | succ fuel ih =>
    rw [arctanTail]
    push_cast
    split
    · next hp0 =>
      rw [hp0, Nat.cast_zero, zero_sub, abs_neg, abs_of_nonneg (arctanPower_nonneg w q i)] at hp
      rw [zero_sub, abs_neg]
      linarith [abs_arctanRest_le w hq i, fuel.cast_nonneg (α := ℝ)]
    · have hhead : |((p / (2 * i + 1) : ℕ) : ℝ) - arctanTerm w q i| ≤ 3 := by
        have hdiv := abs_natDiv_sub_div_le p (2 * i + 1) (arctanPower w q i)
        have hself := div_le_self (abs_nonneg ((p : ℝ) - arctanPower w q i)) (Nat.one_le_cast.2 (Nat.le_add_left 1 (2 * i)))
        rw [arctanTerm]
        push_cast at hdiv hself
        linarith
      have hnext : |((p / (q * q) : ℕ) : ℝ) - arctanPower w q (i + 1)| ≤ 2 := by
        have hdiv := abs_natDiv_sub_div_le p (q * q) (arctanPower w q i)
        have hhalf : |(p : ℝ) - arctanPower w q i| / (q * q : ℕ) ≤ 2 / 2 := by
          gcongr
          exact_mod_cast Nat.le_mul_self q |>.trans' hq
        rw [arctanPower_succ]
        push_cast at hdiv hhalf
        linarith
      have hfuel' : arctanPower w q (i + 1) ≤ 2 ^ fuel := by
        rw [pow_succ] at hfuel
        linarith [arctanPower_succ_le w hq i]
      have hstep := (arctan_altSeries w hq).abs_sub_remainder_le i (p / (2 * i + 1)) (arctanTail q fuel (i + 1) (p / (q * q)))
      have hrest := ih (i + 1) _ hnext hfuel'
      rw [arctanRest] at hrest ⊢
      linarith

theorem abs_arctanInv_sub_le (w : ℕ) {q : ℕ} (hq : 2 ≤ q) :
    |(arctanInv w q : ℝ) - 2 ^ w * Real.arctan (q : ℝ)⁻¹| ≤ 3 * w + 1 := by
  have hq' : (1 : ℝ) ≤ q := by exact_mod_cast (by omega : 1 ≤ q)
  have hpower : arctanPower w q 0 = 2 ^ w / q := by simp [arctanPower]
  have hstart : |((2 ^ w / q : ℕ) : ℝ) - arctanPower w q 0| ≤ 2 := by
    have hfloor := abs_natDiv_sub_le (2 ^ w) q
    rw [hpower]
    push_cast at hfloor
    linarith
  have htail := abs_arctanTail_sub_le w hq w 0 _ hstart (by rw [hpower]; exact div_le_self (by positivity) hq')
  rwa [arctanRest, altRemainder_zero] at htail

/-- Machin's formula, in fixed point. -/
theorem abs_halfPi_sub_le (w : ℕ) : |(halfPi w : ℝ) - 2 ^ w * (Real.pi / 2)| ≤ 30 * w + 10 := by
  have h5 : |((4 * arctanInv w 5 : ℕ) : ℝ) - 4 * (2 ^ w * Real.arctan 5⁻¹)| ≤ 4 * (3 * w + 1) := by
    have h := abs_arctanInv_sub_le w (q := 5) (by omega)
    push_cast at h ⊢
    rw [← mul_sub, abs_mul, abs_of_pos (by norm_num : (0 : ℝ) < 4)]
    linarith
  have h239 : |(arctanInv w 239 : ℝ) - 2 ^ w * Real.arctan 239⁻¹| ≤ 3 * w + 1 :=
    mod_cast abs_arctanInv_sub_le w (q := 239) (by omega)
  have hmachin : 2 ^ w * (Real.pi / 4) = 4 * (2 ^ w * Real.arctan 5⁻¹) - 2 ^ w * Real.arctan 239⁻¹ := by
    rw [← Real.four_mul_arctan_inv_5_sub_arctan_inv_239]
    ring
  have hquarter := abs_truncSub_sub_le (by positivity) hmachin (u := 4 * arctanInv w 5) (v := arctanInv w 239)
  rw [halfPi, Nat.cast_mul, Nat.cast_two, show (2 : ℝ) ^ w * (Real.pi / 2) = 2 * (2 ^ w * (Real.pi / 4)) by ring, ← mul_sub,
    abs_mul, abs_of_pos (by norm_num : (0 : ℝ) < 2)]
  linarith

/-! ### The sine -/

/-- 2^w times term i of the sine series of x. -/
noncomputable def sineTerm (w : ℕ) (x : ℝ) (i : ℕ) : ℝ := 2 ^ w * (x ^ (2 * i + 1) / (2 * i + 1).factorial)

theorem sineTerm_succ (w : ℕ) (x : ℝ) (i : ℕ) :
    sineTerm w x (i + 1) = sineTerm w x i * x ^ 2 / ((2 * i + 2) * (2 * i + 3)) := by
  rw [sineTerm, sineTerm, show 2 * (i + 1) + 1 = 2 * i + 1 + 1 + 1 by omega, Nat.factorial_succ, Nat.factorial_succ]
  push_cast
  field_simp
  ring

/-- What is left of the series of 2^w * sin x from term i on. -/
noncomputable def sineRest (w : ℕ) (x : ℝ) (i : ℕ) : ℝ := altRemainder (sineTerm w x) (2 ^ w * Real.sin x) i

section
variable {x : ℝ} (hx : 0 ≤ x) (hsq : x ^ 2 ≤ 3)
include hx

theorem sineTerm_nonneg (w i : ℕ) : 0 ≤ sineTerm w x i := by unfold sineTerm; positivity

include hsq

/-- On the first quarter turn the terms at least halve. -/
theorem sineTerm_succ_le (w i : ℕ) : sineTerm w x (i + 1) ≤ sineTerm w x i / 2 := by
  have hpos := sineTerm_nonneg hx w i
  have hden : (6 : ℝ) ≤ (2 * i + 2) * (2 * i + 3) := by nlinarith [i.cast_nonneg (α := ℝ)]
  calc sineTerm w x (i + 1) = sineTerm w x i * x ^ 2 / ((2 * i + 2) * (2 * i + 3)) := sineTerm_succ w x i
    _ ≤ sineTerm w x i * 3 / 6 := by gcongr
    _ = sineTerm w x i / 2 := by ring

theorem sine_altSeries (w : ℕ) : AltSeries (sineTerm w x) (2 ^ w * Real.sin x) := by
  refine ⟨antitone_nat_of_succ_le fun i => ?_, sineTerm_nonneg hx w, ?_⟩
  · linarith [sineTerm_succ_le hx hsq w i, sineTerm_nonneg hx w i]
  · refine ((Real.hasSum_sin x).mul_left (2 ^ w)).congr_fun fun i => ?_
    rw [sineTerm]
    ring

theorem sineTerm_le (w i : ℕ) : sineTerm w x i ≤ 2 * 2 ^ w := by
  have hle : x ≤ 2 := by nlinarith
  calc sineTerm w x i ≤ sineTerm w x 0 := (sine_altSeries hx hsq w).1 (Nat.zero_le i)
    _ = x * 2 ^ w := by simp [sineTerm, mul_comm]
    _ ≤ 2 * 2 ^ w := by gcongr

variable {w xx : ℕ} {e d : ℝ} (hxx : |(xx : ℝ) - 2 ^ w * x ^ 2| ≤ e) (hxx3 : (xx : ℝ) ≤ 3 * 2 ^ w)
  (hd : e / 3 + 1 ≤ d / 2)
include hxx hxx3 hd

/-- The next term is off by no more than the last: its own floor and the error of the square make up for the halving. -/
theorem abs_sineTerm_succ_sub_le {i t : ℕ} (ht : |(t : ℝ) - sineTerm w x i| ≤ d) :
    |((t * xx / 2 ^ w / ((2 * i + 2) * (2 * i + 3)) : ℕ) : ℝ) - sineTerm w x (i + 1)| ≤ d := by
  have hden : (6 : ℝ) ≤ (2 * i + 2) * (2 * i + 3) := by nlinarith [i.cast_nonneg (α := ℝ)]
  have hterm := sineTerm_nonneg hx w i
  have hd0 : 0 ≤ d := (abs_nonneg _).trans ht
  have he0 : 0 ≤ e := (abs_nonneg _).trans hxx
  have hexact : sineTerm w x (i + 1) =
      sineTerm w x i * (2 ^ w * x ^ 2) / (2 ^ w * ((2 * i + 2) * (2 * i + 3)) : ℕ) := by
    rw [sineTerm_succ]
    push_cast
    field_simp
  have hnum : |((t * xx : ℕ) : ℝ) - sineTerm w x i * (2 ^ w * x ^ 2)| ≤ (3 * d + 2 * e) * 2 ^ w := by
    calc |((t * xx : ℕ) : ℝ) - sineTerm w x i * (2 ^ w * x ^ 2)|
        = |((t : ℝ) - sineTerm w x i) * xx + sineTerm w x i * (xx - 2 ^ w * x ^ 2)| := by push_cast; ring_nf
      _ ≤ |(t : ℝ) - sineTerm w x i| * xx + sineTerm w x i * |(xx : ℝ) - 2 ^ w * x ^ 2| := by
        refine (abs_add_le _ _).trans_eq ?_
        rw [abs_mul, abs_mul, Nat.abs_cast, abs_of_nonneg hterm]
      _ ≤ d * (3 * 2 ^ w) + 2 * 2 ^ w * e := by gcongr; exact sineTerm_le hx hsq w i
      _ = (3 * d + 2 * e) * 2 ^ w := by ring
  rw [hexact, Nat.div_div_eq_div_mul]
  calc _ ≤ |((t * xx : ℕ) : ℝ) - sineTerm w x i * (2 ^ w * x ^ 2)| / ((2 ^ w * ((2 * i + 2) * (2 * i + 3)) : ℕ) : ℝ) + 1 :=
        abs_natDiv_sub_div_le _ _ _
    _ ≤ (3 * d + 2 * e) * 2 ^ w / ((2 ^ w * ((2 * i + 2) * (2 * i + 3)) : ℕ) : ℝ) + 1 := by gcongr
    _ ≤ (3 * d + 2 * e) * 2 ^ w / (2 ^ w * 6) + 1 := by push_cast; gcongr
    _ = d / 2 + e / 3 + 1 := by field_simp; ring
    _ ≤ d := by linarith

/-- Each term added is off by at most d, and what is left out when the fuel ends is at most 2. -/
theorem abs_sineTail_sub_le (fuel i t : ℕ) (ht : |(t : ℝ) - sineTerm w x i| ≤ d) (hfuel : sineTerm w x i ≤ 2 * 2 ^ fuel) :
    |(sineTail w xx fuel i t : ℝ) - sineRest w x i| ≤ d * fuel + 2 := by
  have hleft (i : ℕ) : |sineRest w x i| ≤ sineTerm w x i := (sine_altSeries hx hsq w).abs_remainder_le i
  have hd0 : 0 ≤ d := (abs_nonneg _).trans ht
  induction fuel generalizing i t with
  | zero =>
    rw [sineTail, Nat.cast_zero, zero_sub, abs_neg]
    linarith [hleft i]
  | succ fuel ih =>
    rw [sineTail]
    push_cast
    split
    · next ht0 =>
      rw [ht0, Nat.cast_zero, zero_sub, abs_neg, abs_of_nonneg (sineTerm_nonneg hx w i)] at ht
      rw [zero_sub, abs_neg]
      nlinarith [hleft i, fuel.cast_nonneg (α := ℝ)]
    · have hfuel' : sineTerm w x (i + 1) ≤ 2 * 2 ^ fuel := by
        rw [pow_succ] at hfuel
        linarith [sineTerm_succ_le hx hsq w i]
      have hrest := ih (i + 1) _ (abs_sineTerm_succ_sub_le hx hsq hxx hxx3 hd ht) hfuel'
      have hstep := (sine_altSeries hx hsq w).abs_sub_remainder_le i t
        (sineTail w xx fuel (i + 1) (t * xx / 2 ^ w / ((2 * i + 2) * (2 * i + 3))))
      rw [sineRest] at hrest ⊢
      linarith

end

/-! ### The sine of a quarter turn's part -/

/-- The working precision leaves room for all the errors. -/
theorem errors_lt_guard (bits : ℕ) : 120 * guardBits bits ^ 2 + 47 * guardBits bits + 2 ≤ 2 ^ (bits + 64) := by
  induction bits with
  | zero => decide
  | succ bits ih =>
    have hsucc : guardBits (bits + 1) = guardBits bits + 2 := rfl
    have hlarge : 64 ≤ guardBits bits := Nat.le_add_left 64 (2 * bits)
    have hpow : 2 ^ (bits + 1 + 64) = 2 * 2 ^ (bits + 64) := by rw [← pow_succ', Nat.add_right_comm]
    rw [hsucc, hpow]
    nlinarith

/-- The angle of the part a/m of a quarter turn. -/
noncomputable def quarterAngle (a m : ℕ) : ℝ := Real.pi / 2 * (a / m)

section
variable {a m : ℕ}

theorem quarterAngle_nonneg : 0 ≤ quarterAngle a m := by unfold quarterAngle; positivity

theorem quarterAngle_le (ham : a ≤ m) : quarterAngle a m ≤ Real.pi / 2 :=
  mul_le_of_le_one_right (by positivity) (div_le_one_of_le₀ (by exact_mod_cast ham) (by positivity))

theorem sin_quarterAngle_nonneg (ham : a ≤ m) : 0 ≤ Real.sin (quarterAngle a m) :=
  Real.sin_nonneg_of_nonneg_of_le_pi quarterAngle_nonneg
    ((quarterAngle_le ham).trans (by linarith [Real.pi_pos]))

/-- The argument of the sine in fixed point. -/
theorem abs_fixedAngle_sub_le (w : ℕ) (ham : a ≤ m) :
    |((halfPi w * a / m : ℕ) : ℝ) - 2 ^ w * quarterAngle a m| ≤ 30 * w + 11 := by
  have hratio : (a : ℝ) / m ≤ 1 := div_le_one_of_le₀ (by exact_mod_cast ham) (by positivity)
  have hratio0 : (0 : ℝ) ≤ a / m := by positivity
  have hfloor := abs_natDiv_sub_div_le (halfPi w * a) m (2 ^ w * (Real.pi / 2) * a)
  have hscaled : |((halfPi w * a : ℕ) : ℝ) - 2 ^ w * (Real.pi / 2) * a| / m ≤ 30 * w + 10 := by
    push_cast
    rw [← sub_mul, abs_mul, Nat.abs_cast, mul_div_assoc]
    exact (mul_le_of_le_one_right (abs_nonneg _) hratio).trans (abs_halfPi_sub_le w)
  rw [quarterAngle, show (2 : ℝ) ^ w * (Real.pi / 2 * (a / m)) = 2 ^ w * (Real.pi / 2) * a / m by ring]
  linarith

/-- The square of an approximated angle in fixed point. -/
theorem abs_fixedSquare_sub_le {w k : ℕ} {x d : ℝ} (hx : 0 ≤ x) (hx2 : x ≤ 2) (hk : |(k : ℝ) - 2 ^ w * x| ≤ d)
    (hd : d ≤ 2 ^ w) : |((k * k / 2 ^ w : ℕ) : ℝ) - 2 ^ w * x ^ 2| ≤ 5 * d + 1 := by
  have hd0 : 0 ≤ d := (abs_nonneg _).trans hk
  have hsum : |(k : ℝ) + 2 ^ w * x| ≤ 5 * 2 ^ w := by
    have hxw : 2 ^ w * x ≤ 2 ^ w * 2 := by gcongr
    rw [abs_of_nonneg (by positivity)]
    linarith [(abs_le.1 hk).2]
  have hsquare : |((k * k : ℕ) : ℝ) - (2 ^ w * x) ^ 2| ≤ d * (5 * 2 ^ w) := by
    rw [show ((k * k : ℕ) : ℝ) - (2 ^ w * x) ^ 2 = (k - 2 ^ w * x) * (k + 2 ^ w * x) by push_cast; ring, abs_mul]
    gcongr
  calc |((k * k / 2 ^ w : ℕ) : ℝ) - 2 ^ w * x ^ 2|
      = |((k * k / 2 ^ w : ℕ) : ℝ) - (2 ^ w * x) ^ 2 / ((2 ^ w : ℕ) : ℝ)| := by
        congr 2
        push_cast
        field_simp
    _ ≤ |((k * k : ℕ) : ℝ) - (2 ^ w * x) ^ 2| / ((2 ^ w : ℕ) : ℝ) + 1 := abs_natDiv_sub_div_le _ _ _
    _ ≤ d * (5 * 2 ^ w) / ((2 ^ w : ℕ) : ℝ) + 1 := by gcongr
    _ = 5 * d + 1 := by push_cast; field_simp

/-- At the working precision the sine is known up to the guard bits. -/
theorem abs_sineTail_fixedAngle_sub_le (bits : ℕ) (ham : a ≤ m) :
    let w := guardBits bits
    let k := halfPi w * a / m
    |(sineTail w (k * k / 2 ^ w) w 0 k : ℝ) - 2 ^ w * Real.sin (quarterAngle a m)| ≤ 2 ^ (bits + 64) := by
  intro w k
  have hguard : 120 * (w : ℝ) ^ 2 + 47 * w + 2 ≤ 2 ^ (bits + 64) := by exact_mod_cast errors_lt_guard bits
  have hwide : (2 : ℝ) ^ (bits + 64) ≤ 2 ^ w := pow_le_pow_right₀ (by norm_num) (by simp only [w, guardBits]; omega)
  have hw : (64 : ℝ) ≤ w := by exact_mod_cast (Nat.le_add_left 64 (2 * bits) : 64 ≤ w)
  have hx : 0 ≤ quarterAngle a m := quarterAngle_nonneg
  have hx2 : quarterAngle a m ≤ 1.575 := by linarith [quarterAngle_le ham, Real.pi_lt_d2]
  have hangle : |(k : ℝ) - 2 ^ w * quarterAngle a m| ≤ 30 * w + 11 := abs_fixedAngle_sub_le w ham
  have hsquare := abs_fixedSquare_sub_le hx (by linarith) hangle (by nlinarith)
  have hcap : ((k * k / 2 ^ w : ℕ) : ℝ) ≤ 3 * 2 ^ w := by
    have hsq : 2 ^ w * quarterAngle a m ^ 2 ≤ 2 ^ w * 2.5 := by gcongr; nlinarith
    nlinarith [(abs_le.1 hsquare).2]
  have hfirst : sineTerm w (quarterAngle a m) 0 = 2 ^ w * quarterAngle a m := by simp [sineTerm]
  have htail := abs_sineTail_sub_le hx (by nlinarith) hsquare hcap (d := 120 * w + 47) (by linarith) w 0 k
    (by rw [hfirst]; linarith) (sineTerm_le hx (by nlinarith) w 0)
  rw [sineRest, altRemainder_zero] at htail
  nlinarith

/-- `sineQuarter` is the sine in fixed point, within `sineError` units of the last place. -/
theorem abs_sineQuarter_sub_le (bits : ℕ) (ham : a ≤ m) :
    |(sineQuarter bits a m : ℝ) - 2 ^ bits * Real.sin (quarterAngle a m)| ≤ 2 := by
  have hshift : guardBits bits - bits = bits + 64 := by simp only [guardBits]; omega
  have hsplit : (2 : ℝ) ^ guardBits bits = 2 ^ bits * 2 ^ (bits + 64) := by
    rw [← pow_add]
    congr 1
    simp only [guardBits]
    omega
  have hexact : 2 ^ bits * Real.sin (quarterAngle a m) =
      2 ^ guardBits bits * Real.sin (quarterAngle a m) / (2 ^ (bits + 64) : ℕ) := by
    rw [hsplit]
    push_cast
    field_simp
  have hguard : (2 : ℝ) ^ (bits + 64) = (2 ^ (bits + 64) : ℕ) := by push_cast; rfl
  have hunit := div_le_one_of_le₀ ((abs_sineTail_fixedAngle_sub_le bits ham).trans_eq hguard) (by positivity)
  rw [sineQuarter, hshift, hexact]
  exact (abs_natDiv_sub_div_le _ _ _).trans ((add_le_add_left hunit 1).trans (by norm_num))

end

end Sys2Proof.Safety
end

section
/-! PROOFS. How close an integer polynomial at a root of unity can come to 0 (log entry 9): its norm is an integer, so if
it is not 0 then the product of its conjugates is at least 1. -/

namespace Sys2Proof.Safety

open Polynomial IntermediateField

/-- An algebraic integer that is not 0 has a norm of at least 1. -/
theorem one_le_norm_norm {K : Type} [Field K] [NumberField K] {x : K} (hint : IsIntegral ℤ x) (hx : x ≠ 0) :
    1 ≤ ‖Algebra.norm ℚ x‖ := by
  obtain ⟨z, hz⟩ := IsIntegrallyClosed.isIntegral_iff.1 (Algebra.isIntegral_norm ℚ hint)
  have hz0 : z ≠ 0 := by
    rintro rfl
    exact hx (Algebra.norm_eq_zero_iff.1 (by rw [← hz, map_zero]))
  rw [← hz, eq_intCast, Int.norm_cast_rat, Int.norm_eq_abs]
  exact_mod_cast Int.one_le_abs hz0

/-- An N-th root of unity generates a field of degree at most N. -/
theorem finrank_adjoin_root_le {z : ℂ} {N : ℕ} (hN : 0 < N) (hz : z ^ N = 1) : Module.finrank ℚ ℚ⟮z⟯ ≤ N := by
  have hroot : aeval z (X ^ N - 1 : ℚ[X]) = 0 := by simp [hz]
  have hint : IsIntegral ℚ z := .of_pow hN (hz ▸ isIntegral_one)
  rw [adjoin.finrank hint, ← natDegree_X_pow_sub_C (n := N) (r := (1 : ℚ)), C_1]
  exact natDegree_le_of_dvd (minpoly.dvd ℚ z hroot) (X_pow_sub_C_ne_zero hN 1)

/-- A polynomial with integer coefficients that is at most B on the N-th roots of unity and not 0 at one of them is at
least B^-N there. -/
theorem one_le_norm_aeval_mul_pow {f : ℤ[X]} {z : ℂ} {N : ℕ} {B : ℝ} (hN : 0 < N) (hz : z ^ N = 1) (hB : 1 ≤ B)
    (hbound : ∀ y : ℂ, y ^ N = 1 → ‖aeval y f‖ ≤ B) (hne : aeval z f ≠ 0) : 1 ≤ ‖aeval z f‖ * B ^ N := by
  have hint : IsIntegral ℤ z := .of_pow hN (hz ▸ isIntegral_one)
  have hintQ : IsIntegral ℚ z := hint.tower_top
  have : FiniteDimensional ℚ ℚ⟮z⟯ := adjoin.finiteDimensional hintQ
  have : NumberField ℚ⟮z⟯ := ⟨⟩
  let g : ℚ⟮z⟯ := AdjoinSimple.gen ℚ z
  have hg : g ^ N = 1 := Subtype.ext hz
  have hval (σ : ℚ⟮z⟯ →+* ℂ) : σ (aeval g f) = aeval (σ g) f := (aeval_algHom_apply σ.toIntAlgHom g f).symm
  have hvalz : ℚ⟮z⟯.val (aeval g f) = aeval z f := hval (ℚ⟮z⟯.val : ℚ⟮z⟯ →+* ℂ)
  have hgint : IsIntegral ℤ (aeval g f) :=
    adjoin_le_integralClosure (.of_pow hN (hg ▸ isIntegral_one)) (aeval_mem_adjoin_singleton ℤ g)
  have hg0 : aeval g f ≠ 0 := fun h => hne (by rw [← hvalz, h, map_zero])
  have hhouse : NumberField.house (aeval g f) ≤ B := by
    rw [NumberField.house, pi_norm_le_iff_of_nonneg (by linarith)]
    intro σ
    rw [NumberField.canonicalEmbedding.apply_at, hval]
    exact hbound _ (by rw [← map_pow, hg, map_one])
  calc 1 ≤ ‖Algebra.norm ℚ (aeval g f)‖ := one_le_norm_norm hgint hg0
    _ ≤ ‖ℚ⟮z⟯.val (aeval g f)‖ * NumberField.house (aeval g f) ^ (Module.finrank ℚ ℚ⟮z⟯ - 1) :=
        NumberField.norm_norm_le_norm_mul_house_pow _ (ℚ⟮z⟯.val : ℚ⟮z⟯ →+* ℂ)
    _ ≤ ‖aeval z f‖ * B ^ N := by
      rw [hvalz]
      gcongr
      refine (pow_le_pow_left₀ (norm_nonneg _) hhouse _).trans (pow_le_pow_right₀ hB ?_)
      have := finrank_adjoin_root_le hN hz
      omega

/-! ### The sine of a quarter turn's part -/

/-- The generator of the 4m-th roots of unity. -/
noncomputable def fourthRoot (m : ℕ) : ℂ := Complex.exp (Real.pi / 2 / m * Complex.I)

theorem fourthRoot_pow (m n : ℕ) : fourthRoot m ^ n = Complex.exp (quarterAngle n m * Complex.I) := by
  rw [fourthRoot, ← Complex.exp_nat_mul, quarterAngle]
  congr 1
  push_cast
  ring

theorem fourthRoot_pow_self {m : ℕ} (hm : 0 < m) : fourthRoot m ^ m = Complex.I := by
  have hm' : (m : ℝ) ≠ 0 := by positivity
  rw [fourthRoot_pow, quarterAngle, div_self hm', mul_one, Complex.ofReal_div, Complex.ofReal_ofNat,
    Complex.exp_pi_div_two_mul_I]

theorem fourthRoot_pow_four_mul {m : ℕ} (hm : 0 < m) : fourthRoot m ^ (4 * m) = 1 := by
  rw [mul_comm, pow_mul, fourthRoot_pow_self hm, Complex.I_pow_four]

/-- The polynomial in the 4m-th root of unity whose value is 2 * amp * sin - k. -/
noncomputable def sinePolynomial (amp a m : ℕ) (k : ℤ) : ℤ[X] :=
  C (amp : ℤ) * (X ^ (3 * m) * (X ^ a - X ^ (4 * m - a))) - C k

theorem aeval_sinePolynomial {amp a m : ℕ} (hm : 0 < m) (ham : a ≤ m) (k : ℤ) :
    aeval (fourthRoot m) (sinePolynomial amp a m k) = ((2 * (amp * Real.sin (quarterAngle a m)) - k : ℝ) : ℂ) := by
  have hquarters : fourthRoot m ^ (3 * m) = -Complex.I := by
    rw [mul_comm, pow_mul, fourthRoot_pow_self hm, Complex.I_pow_three]
  have hback : fourthRoot m ^ (4 * m - a) = Complex.exp (-quarterAngle a m * Complex.I) := by
    have hprod : fourthRoot m ^ (4 * m - a) * fourthRoot m ^ a = 1 := by
      rw [← pow_add, Nat.sub_add_cancel (by omega), fourthRoot_pow_four_mul hm]
    rw [eq_inv_of_mul_eq_one_left hprod, fourthRoot_pow, neg_mul, Complex.exp_neg]
  have hsin : Complex.I * (Complex.exp (-quarterAngle a m * Complex.I) - Complex.exp (quarterAngle a m * Complex.I)) =
      2 * Complex.sin (quarterAngle a m) := by
    rw [Complex.sin]
    ring
  simp only [sinePolynomial, map_sub, map_mul, map_pow, aeval_C, aeval_X, hquarters, hback, fourthRoot_pow]
  push_cast
  rw [← mul_assoc 2, mul_comm 2 (amp : ℂ), mul_assoc, ← hsin]
  simp only [eq_intCast]
  ring

theorem norm_aeval_sinePolynomial_le {amp a m : ℕ} {k : ℤ} {y : ℂ} (hy : ‖y‖ = 1) :
    ‖aeval y (sinePolynomial amp a m k)‖ ≤ 2 * amp + |k| := by
  simp only [sinePolynomial, map_sub, map_mul, map_pow, aeval_C, aeval_X]
  refine (norm_sub_le _ _).trans (add_le_add ?_ ?_)
  · have hpair : ‖y ^ a - y ^ (4 * m - a)‖ ≤ 2 := by
      refine (norm_sub_le _ _).trans_eq ?_
      rw [norm_pow, norm_pow, hy, one_pow, one_pow]
      norm_num
    rw [norm_mul, norm_mul, norm_pow, hy, one_pow, one_mul, mul_comm 2]
    simpa using mul_le_mul_of_nonneg_left hpair (Nat.cast_nonneg amp)
  · simp

/-- The distance of 2 * amp * sin from an integer that it does not equal. -/
theorem sine_gap {amp a m : ℕ} (hm : 0 < m) (ham : a ≤ m) {k : ℤ} (hk : 1 ≤ |k|)
    (hne : 2 * (amp * Real.sin (quarterAngle a m)) ≠ k) :
    1 ≤ |2 * (amp * Real.sin (quarterAngle a m)) - k| * (2 * amp + |k| : ℝ) ^ (4 * m) := by
  have hk' : (1 : ℝ) ≤ |k| := by exact_mod_cast hk
  have hvalue := aeval_sinePolynomial (amp := amp) hm ham k
  have hgap := one_le_norm_aeval_mul_pow (f := sinePolynomial amp a m k) (B := 2 * amp + |k|) (by omega : 0 < 4 * m)
    (fourthRoot_pow_four_mul hm) (by linarith [amp.cast_nonneg (α := ℝ)])
    (fun y hy => norm_aeval_sinePolynomial_le (Complex.norm_eq_one_of_pow_eq_one hy (by omega)))
    (by rw [hvalue]; exact_mod_cast sub_ne_zero.2 hne)
  rwa [hvalue, Complex.norm_real, Real.norm_eq_abs] at hgap

end Sys2Proof.Safety
end

section
/-! PROOFS. SINQ is the rounded sine (spec/41_synth.md R116, R117): a precision that decides rounds rightly, a precision as
high as the last one tried decides every argument below 2^32 but the ties, and the ties are at 1/3 of a quarter turn. -/

namespace Sys2Proof.Safety

open Sys2Proof.Machine

/-! ### Rounding in fixed point -/

theorem roundScaled_eq_floor (bits v : ℕ) : (roundScaled bits v : ℤ) = ⌊(v : ℝ) / 2 ^ bits + 1 / 2⌋ := by
  have hexact : (v : ℝ) / 2 ^ bits + 1 / 2 = ((2 * v + 2 ^ bits : ℕ) : ℝ) / (2 ^ (bits + 1) : ℕ) := by
    push_cast
    field_simp
    ring
  rw [hexact, Int.floor_div_natCast, Int.floor_natCast, roundScaled, Int.natCast_div]

/-- Two ends of an interval round alike unless a rounding step starts between them. -/
theorem exists_near_of_roundScaled_ne {bits u v : ℕ} {y width : ℝ} (hu : (u : ℝ) / 2 ^ bits ≤ y) (hv : y ≤ v / 2 ^ bits)
    (hwidth : (v : ℝ) / 2 ^ bits ≤ u / 2 ^ bits + width) (hne : roundScaled bits u ≠ roundScaled bits v) :
    ∃ n : ℕ, 1 ≤ n ∧ |y + 1 / 2 - n| ≤ width := by
  have hle : (roundScaled bits u : ℤ) ≤ roundScaled bits v := by
    rw [roundScaled_eq_floor, roundScaled_eq_floor]
    exact Int.floor_le_floor (by linarith)
  have hlt : (roundScaled bits u : ℤ) < roundScaled bits v := lt_of_le_of_ne hle (by exact_mod_cast hne)
  have hbelow : ((roundScaled bits v : ℤ) : ℝ) ≤ v / 2 ^ bits + 1 / 2 := by
    rw [roundScaled_eq_floor]
    exact Int.floor_le _
  have habove : (u : ℝ) / 2 ^ bits + 1 / 2 < (roundScaled bits v : ℤ) := by rwa [← Int.floor_lt, ← roundScaled_eq_floor]
  rw [Int.cast_natCast] at hbelow habove
  refine ⟨roundScaled bits v, by omega, abs_le.2 ⟨?_, ?_⟩⟩ <;> linarith

section
variable {amp bits a m : ℕ}

/-- The interval whose ends `sinqDecided` rounds holds the sine. -/
theorem sineQuarter_brackets (bits : ℕ) (ham : a ≤ m) :
    ((sineQuarter bits a m - sineError : ℕ) : ℝ) ≤ 2 ^ bits * Real.sin (quarterAngle a m) ∧
      2 ^ bits * Real.sin (quarterAngle a m) ≤ (sineQuarter bits a m + sineError : ℕ) := by
  obtain ⟨hlow, hhigh⟩ := abs_le.1 (abs_sineQuarter_sub_le bits ham)
  have hsin : 0 ≤ 2 ^ bits * Real.sin (quarterAngle a m) := mul_nonneg (by positivity) (sin_quarterAngle_nonneg ham)
  rw [sineError]
  constructor
  · obtain hle | hlt := le_or_gt 2 (sineQuarter bits a m)
    · rw [Nat.cast_sub hle, Nat.cast_two]
      linarith
    · rwa [Nat.sub_eq_zero_of_le hlt.le, Nat.cast_zero]
  · push_cast
    linarith

/-- The same at amplitude amp. -/
theorem scaledSine_brackets (amp bits : ℕ) (ham : a ≤ m) :
    ((amp * (sineQuarter bits a m - sineError) : ℕ) : ℝ) / 2 ^ bits ≤ amp * Real.sin (quarterAngle a m) ∧
      amp * Real.sin (quarterAngle a m) ≤ ((amp * (sineQuarter bits a m + sineError) : ℕ) : ℝ) / 2 ^ bits := by
  obtain ⟨hlow, hhigh⟩ := sineQuarter_brackets bits ham
  have hpow : (0 : ℝ) < 2 ^ bits := by positivity
  rw [Nat.cast_mul, Nat.cast_mul, mul_div_assoc, mul_div_assoc]
  constructor <;> gcongr
  · rwa [div_le_iff₀' hpow]
  · rwa [le_div_iff₀' hpow]

theorem scaledSine_width (amp bits a m : ℕ) : ((amp * (sineQuarter bits a m + sineError) : ℕ) : ℝ) / 2 ^ bits ≤
    ((amp * (sineQuarter bits a m - sineError) : ℕ) : ℝ) / 2 ^ bits + 4 * amp / 2 ^ bits := by
  have hwidth : sineQuarter bits a m + sineError ≤ sineQuarter bits a m - sineError + 4 := by
    rw [sineError]
    omega
  have hscaled := Nat.mul_le_mul_left amp hwidth
  rw [← add_div]
  gcongr
  exact_mod_cast hscaled.trans_eq (by ring)

/-- A precision that decides rounds amp * sin to the nearest integer. -/
theorem eq_floor_of_sinqDecided {v : ℕ} (ham : a ≤ m) (h : sinqDecided amp bits a m = some v) :
    (v : ℤ) = ⌊amp * Real.sin (quarterAngle a m) + 1 / 2⌋ := by
  obtain ⟨hlow, hhigh⟩ := scaledSine_brackets amp bits ham
  unfold sinqDecided at h
  dsimp only at h
  split at h
  · next heq =>
    cases h
    apply le_antisymm
    · rw [roundScaled_eq_floor]
      gcongr
    · rw [heq, roundScaled_eq_floor]
      gcongr
  · cases h

/-- A precision that does not decide leaves the start of a rounding step within the interval. -/
theorem exists_near_of_sinqDecided_none (ham : a ≤ m) (h : sinqDecided amp bits a m = none) :
    ∃ n : ℕ, 1 ≤ n ∧ |amp * Real.sin (quarterAngle a m) + 1 / 2 - n| ≤ 4 * amp / 2 ^ bits := by
  obtain ⟨hlow, hhigh⟩ := scaledSine_brackets amp bits ham
  unfold sinqDecided at h
  dsimp only at h
  split at h
  · cases h
  · next hne => exact exists_near_of_roundScaled_ne hlow hhigh (scaledSine_width amp bits a m) hne

/-! ### The search over precisions -/

/-- Whatever precision the search ends at, it found the rounded sine. -/
theorem eq_floor_of_sinqSearch {fuel v : ℕ} (ham : a ≤ m) (h : sinqSearch amp a m fuel bits = some v) :
    (v : ℤ) = ⌊amp * Real.sin (quarterAngle a m) + 1 / 2⌋ := by
  induction fuel generalizing bits with
  | zero => cases h
  | succ fuel ih =>
    rw [sinqSearch] at h
    split at h
    · next hdecided =>
      cases h
      exact eq_floor_of_sinqDecided ham hdecided
    · exact ih h

/-- A search that fails has failed at its first precision. -/
theorem sinqDecided_first_of_sinqSearch_none {fuel : ℕ} (h : sinqSearch amp a m (fuel + 1) bits = none) :
    sinqDecided amp bits a m = none := by
  rw [sinqSearch] at h
  split at h
  · cases h
  · assumption

/-- A search that fails has failed at its last precision. -/
theorem sinqDecided_last_of_sinqSearch_none {fuel : ℕ} (h : sinqSearch amp a m (fuel + 1) bits = none) :
    sinqDecided amp (2 ^ fuel * bits) a m = none := by
  induction fuel generalizing bits with
  | zero => simpa using sinqDecided_first_of_sinqSearch_none h
  | succ fuel ih =>
    rw [sinqSearch] at h
    split at h
    · cases h
    · rw [pow_succ, mul_assoc]
      exact ih h

end

/-- Settles O28: the precision need not be that high, the brackets hold at any. -/
theorem decidedSinqIsExact : Obligations.DecidedSinqIsExact := fun _ _ _ _ _ _ ham h => by
  exact_mod_cast eq_floor_of_sinqDecided ham h

/-! ### Ties (R117 S-tie) -/

section
variable {a m : ℕ}

theorem sine_eq_half_iff (hm : 0 < m) (ham : a ≤ m) : Real.sin (quarterAngle a m) = 1 / 2 ↔ 3 * a = m := by
  have hm' : (0 : ℝ) < m := by exact_mod_cast hm
  have hrange : quarterAngle a m ∈ Set.Icc (-(Real.pi / 2)) (Real.pi / 2) :=
    ⟨by linarith [quarterAngle_nonneg (a := a) (m := m), Real.pi_pos], quarterAngle_le ham⟩
  have hsixth : Real.pi / 6 ∈ Set.Icc (-(Real.pi / 2)) (Real.pi / 2) := by constructor <;> linarith [Real.pi_pos]
  rw [← Real.sin_pi_div_six, Real.injOn_sin.eq_iff hrange hsixth, quarterAngle, ← Nat.cast_inj (R := ℝ)]
  push_cast
  field_simp
  constructor <;> intro h <;> linarith

theorem halfInteger_ne_int {x : ℝ} {z : ℤ} (hz : x = z + 1 / 2) (k : ℤ) : x ≠ k := fun hk => by
  have h2 : 2 * z + 1 = 2 * k := by exact_mod_cast (by linarith : (2 * z + 1 : ℝ) = 2 * k)
  omega

/-- A half integer 32767 * sin is rational, so Niven's theorem leaves the sine 1/2, and that is at 1/3. -/
theorem sine_halfInteger_iff (hm : 0 < m) (ham : a ≤ m) :
    (∃ z : ℤ, 32767 * Real.sin (quarterAngle a m) = z + 1 / 2) ↔ 3 * a = m := by
  rw [← sine_eq_half_iff hm ham]
  constructor
  · rintro ⟨z, hz⟩
    have hangle : ∃ r : ℚ, quarterAngle a m = r * Real.pi := ⟨a / (2 * m), by
      rw [quarterAngle]
      push_cast
      ring⟩
    have hvalue : ∃ q : ℚ, Real.sin (quarterAngle a m) = q := ⟨(z + 1 / 2) / 32767, by
      push_cast
      linarith⟩
    have hnonneg := sin_quarterAngle_nonneg ham
    obtain h | h | h | h | h := niven_sin hangle hvalue
    · linarith
    · linarith
    · exact absurd (by rw [h]; norm_num) (halfInteger_ne_int hz 0)
    · exact h
    · exact absurd (by rw [h]; norm_num) (halfInteger_ne_int hz 32767)
  · intro h
    exact ⟨16383, by rw [h]; norm_num⟩

/-! ### The magnitude -/

/-- Within 2^17 units of 2^-bits of a half integer is closer than the gap of degree d allows. -/
theorem not_near_of_gap {x : ℝ} {n bits d : ℕ} (hx : x ≤ 32767) (hnear : |x + 1 / 2 - n| * 2 ^ bits ≤ 4 * 32767)
    (hbits : (2 : ℝ) ^ 18 * (2 ^ 17) ^ d < 2 ^ bits) (hgap : 1 ≤ |2 * x - (2 * n - 1)| * (2 * 32767 + (2 * n - 1)) ^ d) :
    False := by
  have hone : (1 : ℝ) ≤ (2 ^ 17) ^ d := one_le_pow₀ (by norm_num)
  have hclose : |x + 1 / 2 - n| < 1 / 2 := by nlinarith
  have hbase : (2 * 32767 + (2 * n - 1) : ℝ) ^ d ≤ (2 ^ 17) ^ d :=
    pow_le_pow_left₀ (by linarith [n.cast_nonneg (α := ℝ)]) (by linarith [(abs_lt.1 hclose).1]) d
  have hdouble : |2 * x - (2 * n - 1)| = 2 * |x + 1 / 2 - n| := by
    rw [← abs_two, ← abs_mul, abs_two]
    ring_nf
  have hcontra : (2 : ℝ) ^ bits < 2 ^ bits :=
    calc (2 : ℝ) ^ bits ≤ 2 * |x + 1 / 2 - n| * (2 * 32767 + (2 * n - 1)) ^ d * 2 ^ bits := by
          rw [← hdouble]
          exact le_mul_of_one_le_left (by positivity) hgap
      _ ≤ 2 * |x + 1 / 2 - n| * (2 ^ 17) ^ d * 2 ^ bits := by gcongr
      _ = 2 * (2 ^ 17) ^ d * (|x + 1 / 2 - n| * 2 ^ bits) := by ring
      _ ≤ 2 * (2 ^ 17) ^ d * (4 * 32767) := by gcongr
      _ ≤ 2 ^ 18 * (2 ^ 17) ^ d := by linarith
      _ < 2 ^ bits := hbits
  exact lt_irrefl _ hcontra

/-- 2^45, the last precision tried, is above every argument's need. -/
theorem sinqSearch_ne_none (hm : 0 < m) (hm32 : m < 2 ^ 32) (ham : a ≤ m) (htie : 3 * a ≠ m) :
    sinqSearch 32767 a m precisionFuel firstBits ≠ none := by
  intro h
  obtain ⟨n, hn, hnear⟩ := exists_near_of_sinqDecided_none ham (sinqDecided_last_of_sinqSearch_none (fuel := 39) h)
  obtain ⟨bits, hbits⟩ : ∃ bits, bits = 2 ^ 39 * firstBits := ⟨_, rfl⟩
  have hlarge : 18 + 17 * (4 * m) < bits := by
    rw [firstBits] at hbits
    omega
  have hpow : (2 : ℝ) ^ 18 * (2 ^ 17) ^ (4 * m) < 2 ^ bits := by
    rw [← pow_mul, ← pow_add]
    exact pow_lt_pow_right₀ (by norm_num) hlarge
  have hne : 2 * ((32767 : ℕ) * Real.sin (quarterAngle a m)) ≠ (2 * n - 1 : ℤ) := fun heq =>
    htie ((sine_halfInteger_iff hm ham).1 ⟨n - 1, by push_cast at heq ⊢; linarith⟩)
  have habs : |(2 * n - 1 : ℤ)| = 2 * n - 1 := abs_of_nonneg (by omega)
  have hgap := sine_gap hm ham (by omega) hne
  have hsin := Real.sin_le_one (quarterAngle a m)
  rw [← hbits, le_div_iff₀ (by positivity)] at hnear
  rw [habs] at hgap
  push_cast at hnear hgap
  exact not_near_of_gap (by linarith) hnear hpow hgap

/-- R116 on the first quarter turn. -/
theorem sinqMagnitude_eq_floor (hm : 0 < m) (hm32 : m < 2 ^ 32) (ham : a ≤ m) :
    (sinqMagnitude 32767 a m : ℤ) = ⌊32767 * Real.sin (quarterAngle a m) + 1 / 2⌋ := by
  unfold sinqMagnitude
  split
  · next htie =>
    rw [(sine_eq_half_iff hm ham).2 htie]
    norm_num
  · next htie =>
    obtain ⟨v, hv⟩ := Option.ne_none_iff_exists'.1 (sinqSearch_ne_none hm hm32 ham htie)
    rw [hv, Option.getD_some]
    exact_mod_cast eq_floor_of_sinqSearch ham hv

/-- An integer value is found at the first precision, whatever m. -/
theorem sinqMagnitude_eq_of_sine {v : ℕ} (hm : 0 < m) (ham : a ≤ m) (h : 32767 * Real.sin (quarterAngle a m) = v) :
    sinqMagnitude 32767 a m = v := by
  have htie : 3 * a ≠ m := fun h3 => by
    obtain ⟨z, hz⟩ := (sine_halfInteger_iff hm ham).2 h3
    exact halfInteger_ne_int hz v (by exact_mod_cast h)
  cases hsearch : sinqSearch 32767 a m precisionFuel firstBits with
  | some u =>
    have hu := eq_floor_of_sinqSearch ham hsearch
    rw [Nat.cast_ofNat, h] at hu
    rw [sinqMagnitude, if_neg htie, hsearch, Option.getD_some]
    rw [Int.floor_natCast_add, show ⌊(1 / 2 : ℝ)⌋ = 0 by norm_num, add_zero] at hu
    exact_mod_cast hu
  | none =>
    obtain ⟨n, -, hnear⟩ := exists_near_of_sinqDecided_none ham (sinqDecided_first_of_sinqSearch_none (fuel := 39) hsearch)
    have hhalf : |(v : ℝ) + 1 / 2 - n| < 1 / 2 := by
      rw [Nat.cast_ofNat, h] at hnear
      exact hnear.trans_lt (by norm_num [firstBits])
    obtain ⟨hlow, hhigh⟩ := abs_lt.1 hhalf
    have hlt : v < n := by exact_mod_cast (by linarith : (v : ℝ) < n)
    have hgt : n < v + 1 := by exact_mod_cast (by linarith : (n : ℝ) < v + 1)
    omega

/-- S-range. -/
theorem sinqMagnitude_le (ham : a ≤ m) : sinqMagnitude 32767 a m ≤ 32767 := by
  have hsin := Real.sin_le_one (quarterAngle a m)
  unfold sinqMagnitude
  split
  · norm_num
  · cases hsearch : sinqSearch 32767 a m precisionFuel firstBits with
    | some v =>
      have hv := eq_floor_of_sinqSearch ham hsearch
      have hlt : (v : ℤ) < 32768 := by
        rw [hv, Int.floor_lt]
        push_cast
        linarith
      rw [Option.getD_some]
      omega
    | none =>
      have hs : sineQuarter firstBits a m ≤ 2 ^ firstBits + 2 := by
        have hclose := (abs_le.1 (abs_sineQuarter_sub_le firstBits ham)).2
        exact_mod_cast (by
          nlinarith [pow_pos (two_pos (α := ℝ)) firstBits] : (sineQuarter firstBits a m : ℝ) ≤ 2 ^ firstBits + 2)
      rw [Option.getD_none, roundScaled, firstBits]
      rw [firstBits] at hs
      omega

end

/-! ### Quadrants -/

/-- The quadrant and the argument within it, read off 4 p = q m + r. -/
theorem quadrant_quarterArg {p m q r : ℕ} (hq : q < 4) (hr : r < m) (h : 4 * p = q * m + r) :
    quadrant p m = q ∧ quarterArg p m = if q % 2 = 1 then m - r else r := by
  have hpm : p < m := by nlinarith
  have hdivmod : 4 * p / m = q ∧ 4 * p % m = r :=
    (Nat.div_mod_unique (by omega)).2 ⟨by rw [h, mul_comm m]; ring, hr⟩
  obtain ⟨hdiv, hmod⟩ := hdivmod
  have hquadrant : quadrant p m = q := by rw [quadrant, Nat.mod_eq_of_lt hpm, hdiv]
  refine ⟨hquadrant, ?_⟩
  rw [quarterArg, hquadrant, Nat.mod_eq_of_lt hpm, hmod]

/-- Every p below m has such q and r. -/
theorem exists_quadrant {p m : ℕ} (h : p < m) : ∃ q r, q < 4 ∧ r < m ∧ 4 * p = q * m + r :=
  ⟨4 * p / m, 4 * p % m, by rw [Nat.div_lt_iff_lt_mul (by omega)]; omega, Nat.mod_lt _ (by omega),
    (Nat.div_add_mod' (4 * p) m).symm⟩

theorem quarterArg_le (p : ℕ) {m : ℕ} (hm : 0 < m) : quarterArg p m ≤ m := by
  have := Nat.mod_lt (4 * (p % m)) hm
  unfold quarterArg
  split <;> omega

/-- The sine of p/m turns is that of the reduced argument, negative in the second half turn. -/
theorem sin_turns {p m : ℕ} (h : p < m) : Real.sin (2 * Real.pi * (p / m : ℝ)) =
    if 2 ≤ quadrant p m then -Real.sin (quarterAngle (quarterArg p m) m) else Real.sin (quarterAngle (quarterArg p m) m) := by
  obtain ⟨q, r, hq, hr, hsplit⟩ := exists_quadrant h
  obtain ⟨hquadrant, harg⟩ := quadrant_quarterArg hq hr hsplit
  have hm : (0 : ℝ) < m := by exact_mod_cast (by omega : 0 < m)
  have hangle : 2 * Real.pi * (p / m : ℝ) = q * (Real.pi / 2) + quarterAngle r m := by
    have hsplit' : (4 * p : ℝ) = q * m + r := by exact_mod_cast hsplit
    rw [quarterAngle]
    field_simp
    linear_combination hsplit'
  have hback : quarterAngle (m - r) m = Real.pi / 2 - quarterAngle r m := by
    rw [quarterAngle, quarterAngle, Nat.cast_sub hr.le]
    field_simp
  rw [hangle, hquadrant, harg]
  generalize hy : quarterAngle r m = y at hback ⊢
  interval_cases q
  · simp [hy]
  · rw [show ((1 : ℕ) : ℝ) * (Real.pi / 2) + y = y + Real.pi / 2 by push_cast; ring, Real.sin_add_pi_div_two]
    simp [hback, Real.sin_pi_div_two_sub]
  · rw [show ((2 : ℕ) : ℝ) * (Real.pi / 2) + y = y + Real.pi by push_cast; ring, Real.sin_add_pi]
    simp [hy]
  · rw [show ((3 : ℕ) : ℝ) * (Real.pi / 2) + y = y + Real.pi / 2 + Real.pi by push_cast; ring, Real.sin_add_pi,
      Real.sin_add_pi_div_two]
    simp [hback, Real.sin_pi_div_two_sub]

theorem two_le_quadrant_iff {p m : ℕ} (h : p < m) : 2 ≤ quadrant p m ↔ m ≤ 2 * p := by
  rw [quadrant, Nat.mod_eq_of_lt h, Nat.le_div_iff_mul_le (by omega)]
  omega

/-- The reduced argument is a third of the quarter turn at 1/12, 5/12, 7/12 and 11/12 of a turn. -/
theorem quarterArg_tie_iff {p m : ℕ} (h : p < m) :
    3 * quarterArg p m = m ↔ 12 * p = m ∨ 12 * p = 5 * m ∨ 12 * p = 7 * m ∨ 12 * p = 11 * m := by
  obtain ⟨q, r, hq, hr, hsplit⟩ := exists_quadrant h
  rw [(quadrant_quarterArg hq hr hsplit).2]
  interval_cases q
  · rw [if_neg (by decide)]
    omega
  · rw [if_pos (by decide)]
    omega
  · rw [if_neg (by decide)]
    omega
  · rw [if_pos (by decide)]
    omega

/-! ### SINQ -/

theorem sinq_eq (p m : ℕ) : num.sinq p m = withSineSign p m (sinqMagnitude 32767 (quarterArg p m) m) := rfl

/-- Settles O27: the magnitude is rounded on the quarter turn, and rounding away from zero commutes with the sign. -/
theorem sinqIsTheRoundedSine : Obligations.SinqIsTheRoundedSine := by
  intro p m hp hm32
  have hm : 0 < m := by omega
  have hsin := sin_quarterAngle_nonneg (quarterArg_le p hm)
  have hmagnitude := sinqMagnitude_eq_floor hm hm32 (quarterArg_le p hm)
  rw [sinq_eq, withSineSign, hmagnitude, sinqReal, sin_turns hp, Nat.cast_ofNat]
  split
  · rw [mul_neg, abs_neg, abs_of_nonneg (by positivity)]
    split
    · next hneg =>
      have hzero : 32767 * Real.sin (quarterAngle (quarterArg p m) m) = 0 := by linarith
      rw [hzero]
      norm_num
    · rfl
  · have hpos : 0 ≤ 32767 * Real.sin (quarterAngle (quarterArg p m) m) := by positivity
    rw [if_pos hpos, abs_of_nonneg hpos]

/-- Settles O30: the magnitude is at most 32767, also where the search ends undecided. -/
theorem sinqStaysInRange : Obligations.SinqStaysInRange := by
  intro p m hm
  have hle := sinqMagnitude_le (quarterArg_le p hm)
  rw [sinq_eq, withSineSign]
  split <;> omega

/-! ### S-err -/

theorem abs_sinqReal_sub_le (amp p m : ℕ) :
    |(sinqReal amp p m : ℝ) - amp * Real.sin (2 * Real.pi * (p / m : ℝ))| ≤ 1 / 2 := by
  have hround (y : ℝ) : |(⌊y + 1 / 2⌋ : ℝ) - y| ≤ 1 / 2 := by
    have hle := Int.floor_le (y + 1 / 2)
    have hlt := Int.lt_floor_add_one (y + 1 / 2)
    rw [abs_le]
    constructor <;> linarith
  unfold sinqReal
  dsimp only
  split
  · next h =>
    rw [abs_of_nonneg h]
    exact hround _
  · next h =>
    have hneg := hround (-(amp * Real.sin (2 * Real.pi * (p / m : ℝ))))
    rw [abs_of_neg (not_le.1 h), Int.cast_neg, ← abs_neg, neg_sub, sub_neg_eq_add, add_comm]
    rwa [sub_neg_eq_add] at hneg

theorem sinq_near {p m : ℕ} (hp : p < m) (hm32 : m < 2 ^ 32) :
    |(num.sinq p m : ℝ) - 32767 * Real.sin (2 * Real.pi * (p / m : ℝ))| ≤ 1 / 2 := by
  rw [sinqIsTheRoundedSine p m hp hm32]
  exact_mod_cast abs_sinqReal_sub_le 32767 p m

/-- A sample fits its 16 bits (R117 S-range). -/
theorem toneSample_toInt (f n : ℕ) {fs : ℕ} (hfs : 0 < fs) :
    (toneSample num f fs n).toInt = num.sinq (phase f fs n) fs := by
  obtain ⟨hlow, hhigh⟩ := sinqStaysInRange (phase f fs n) fs hfs
  rw [toneSample, BitVec.toInt_ofInt]
  exact Int.bmod_eq_of_le (by norm_num; omega) (by norm_num; omega)

/-- Whole turns do not matter to the sine (R113). -/
theorem sin_phase (f n : ℕ) {fs : ℕ} (hfs : 0 < fs) :
    Real.sin (2 * Real.pi * (phase f fs n / fs : ℝ)) = Real.sin (2 * Real.pi * (f * n / fs : ℝ)) := by
  have hfs' : (0 : ℝ) < fs := by exact_mod_cast hfs
  have hturns : (f * n : ℝ) = fs * (f * n / fs : ℕ) + phase f fs n := by
    exact_mod_cast (Nat.div_add_mod (f * n) fs).symm
  rw [hturns, ← Real.sin_add_nat_mul_two_pi _ (f * n / fs)]
  congr 1
  field_simp
  ring

/-- Settles O31: SINQ is the rounded sine, a sample is SINQ, and its phase is F * n / FS_C up to whole turns. -/
theorem sampleIsWithinHalfOfTheSine : Obligations.SampleIsWithinHalfOfTheSine := by
  refine ⟨fun p m => sinq_near, fun f fs n hfs hfs32 => ?_⟩
  rw [toneSample_toInt f n hfs, ← sin_phase f n hfs]
  exact sinq_near (Nat.mod_lt _ hfs) hfs32

/-! ### S-tie -/

/-- Settles O32: up to the sign, the statement is `sine_halfInteger_iff` of the reduced argument. -/
theorem sinqTieTestIsExact : Obligations.SinqTieTestIsExact := by
  intro p m hp x
  have hm : 0 < m := by omega
  have hx : x = if 2 ≤ quadrant p m then -(32767 * Real.sin (quarterAngle (quarterArg p m) m))
      else 32767 * Real.sin (quarterAngle (quarterArg p m) m) := by
    simp only [x, sin_turns hp, mul_ite, mul_neg]
  have htie (h : 12 * p = m ∨ 12 * p = 5 * m ∨ 12 * p = 7 * m ∨ 12 * p = 11 * m) :
      Real.sin (quarterAngle (quarterArg p m) m) = 1 / 2 :=
    (sine_eq_half_iff hm (quarterArg_le p hm)).2 ((quarterArg_tie_iff hp).2 h)
  rw [hx]
  refine ⟨?_, quarterArg_tie_iff hp, fun h => ?_, fun h => ?_⟩
  · rw [← sine_halfInteger_iff hm (quarterArg_le p hm)]
    split
    · constructor <;> rintro ⟨z, hz⟩ <;> exact ⟨-z - 1, by push_cast; linarith⟩
    · rfl
  · rw [if_neg (by rw [two_le_quadrant_iff hp]; omega), htie (by omega)]
    norm_num
  · rw [if_pos (by rw [two_le_quadrant_iff hp]; omega), htie (by omega)]
    norm_num

/-! ### The other named properties -/

theorem sinq_of_quadrant {p m q r : ℕ} (hq : q < 4) (hr : r < m) (h : 4 * p = q * m + r) :
    num.sinq p m = if 2 ≤ q then -(sinqMagnitude 32767 (if q % 2 = 1 then m - r else r) m : ℤ)
      else (sinqMagnitude 32767 (if q % 2 = 1 then m - r else r) m : ℤ) := by
  obtain ⟨hquadrant, harg⟩ := quadrant_quarterArg hq hr h
  rw [sinq_eq, withSineSign, hquadrant, harg]

theorem sinqMagnitude_zero {m : ℕ} (hm : 0 < m) : sinqMagnitude 32767 0 m = 0 :=
  sinqMagnitude_eq_of_sine hm (Nat.zero_le m) (by simp [quarterAngle])

theorem sinqMagnitude_self {m : ℕ} (hm : 0 < m) : sinqMagnitude 32767 m m = 32767 := by
  have hm' : (m : ℝ) ≠ 0 := by positivity
  exact sinqMagnitude_eq_of_sine hm (Nat.le_refl m) (by simp [quarterAngle, div_self hm'])

theorem sinqMagnitude_tie {a m : ℕ} (h : 3 * a = m) : sinqMagnitude 32767 a m = 16384 := if_pos h

theorem sineQuarter_mul (bits a m : ℕ) {k : ℕ} (hk : 0 < k) : sineQuarter bits (k * a) (k * m) = sineQuarter bits a m := by
  simp only [sineQuarter, Nat.mul_left_comm _ k a, Nat.mul_div_mul_left _ m hk]

theorem sinqMagnitude_mul (amp a m : ℕ) {k : ℕ} (hk : 0 < k) : sinqMagnitude amp (k * a) (k * m) = sinqMagnitude amp a m := by
  have hsearch (fuel bits : ℕ) : sinqSearch amp (k * a) (k * m) fuel bits = sinqSearch amp a m fuel bits := by
    induction fuel generalizing bits with
    | zero => rfl
    | succ fuel ih => simp only [sinqSearch, sinqDecided, sineQuarter_mul _ a m hk, ih]
  simp only [sinqMagnitude, hsearch, sineQuarter_mul _ a m hk, Nat.mul_left_comm 3 k a, Nat.mul_right_inj hk.ne']

/-- S-odd: m - p lies in the mirrored quadrant, with the same reduced argument. -/
theorem sinq_neg {p m : ℕ} (hp : 0 < p) (hpm : p < m) : num.sinq (m - p) m = -num.sinq p m := by
  have hm : 0 < m := by omega
  obtain ⟨q, r, hq, hr, hsplit⟩ := exists_quadrant hpm
  rw [sinq_of_quadrant hq hr hsplit]
  obtain rfl | hr0 := Nat.eq_zero_or_pos r
  · have hq0 : 0 < q := Nat.pos_of_ne_zero fun h => by
      subst h
      omega
    have hmirror : 4 * (m - p) = (4 - q) * m + 0 := by interval_cases q <;> omega
    rw [sinq_of_quadrant (by omega) hm hmirror]
    interval_cases q <;> simp [sinqMagnitude_zero hm]
  · have hmirror : 4 * (m - p) = (3 - q) * m + (m - r) := by interval_cases q <;> omega
    rw [sinq_of_quadrant (by omega) (by omega) hmirror]
    interval_cases q <;> simp [Nat.sub_sub_self hr.le]

/-- S-ratio. -/
theorem sinq_mul {p m k : ℕ} (hpm : p < m) (hk : 0 < k) : num.sinq (k * p) (k * m) = num.sinq p m := by
  obtain ⟨q, r, hq, hr, hsplit⟩ := exists_quadrant hpm
  have hsplit' : 4 * (k * p) = q * (k * m) + k * r := by
    rw [Nat.mul_left_comm, hsplit]
    ring
  rw [sinq_of_quadrant hq (Nat.mul_lt_mul_of_pos_left hr hk) hsplit', sinq_of_quadrant hq hr hsplit, ← Nat.mul_sub,
    ← apply_ite (k * ·), sinqMagnitude_mul _ _ _ hk]

/-- Settles O29: zero, half and the peaks by their quadrants, the ties by the test of `sinqMagnitude`. -/
theorem sinqAtItsSymmetriesPeaksAndTies : Obligations.SinqAtItsSymmetriesPeaksAndTies := by
  intro m hm
  refine ⟨?_, fun heven => ?_, fun p => sinq_neg, fun p h => ?_, fun p h => ?_, fun p k => sinq_mul, fun p h => ?_,
    fun p h => ?_⟩
  · rw [sinq_of_quadrant (q := 0) (r := 0) (by omega) hm (by omega)]
    simp [sinqMagnitude_zero hm]
  · rw [sinq_of_quadrant (q := 2) (r := 0) (by omega) hm (by omega)]
    simp [sinqMagnitude_zero hm]
  · rw [sinq_of_quadrant (q := 1) (r := 0) (by omega) hm (by omega)]
    simp [sinqMagnitude_self hm]
  · rw [sinq_of_quadrant (q := 3) (r := 0) (by omega) hm (by omega)]
    simp [sinqMagnitude_self hm]
  · have hpm : p < m := by omega
    rw [sinq_eq, withSineSign, sinqMagnitude_tie ((quarterArg_tie_iff hpm).2 (by omega)),
      if_neg (by rw [two_le_quadrant_iff hpm]; omega), Nat.cast_ofNat]
  · have hpm : p < m := by omega
    rw [sinq_eq, withSineSign, sinqMagnitude_tie ((quarterArg_tie_iff hpm).2 (by omega)),
      if_pos (by rw [two_le_quadrant_iff hpm]; omega), Nat.cast_ofNat]

end Sys2Proof.Safety
end

section
/-! PROOFS. The power of a bin as a polynomial at a root of unity, and the exact test of ties (spec/42_classifier.md R134,
R136, log entry 10): P[k] is the squared absolute value of the window's polynomial at z^k, z a primitive N-th root of unity,
the autocorrelation makes P[j] - P[k] the value at z of an integer polynomial, and the test multiplies that by factors that
vanish at the roots that are not primitive. -/

namespace Sys2Proof.Safety

open Sys2Proof.Machine Polynomial

/-! ### Lists as polynomials -/

/-- The polynomial whose coefficients are the entries of a list. -/
noncomputable def listPoly : List ℤ → ℤ[X]
  | [] => 0
  | v :: vs => C v + X * listPoly vs

theorem coeff_listPoly (f : List ℤ) (i : ℕ) : (listPoly f).coeff i = f.getD i 0 := by
  induction f generalizing i with
  | nil => simp [listPoly]
  | cons v vs ih =>
    rw [listPoly, coeff_add]
    cases i with
    | zero => simp
    | succ i => rw [coeff_C_succ, zero_add, coeff_X_mul, ih, List.getD_cons_succ]

theorem natDegree_listPoly_le (f : List ℤ) : (listPoly f).natDegree ≤ f.length - 1 := by
  refine natDegree_le_iff_coeff_eq_zero.2 fun i hi => ?_
  rw [coeff_listPoly, List.getD_eq_default _ _ (by omega)]

theorem listPoly_eq_sum (f : List ℤ) : listPoly f = ∑ i ∈ Finset.range f.length, C (f.getD i 0) * X ^ i := by
  induction f with
  | nil => rfl
  | cons v vs ih =>
    rw [listPoly, ih, List.length_cons, Finset.sum_range_succ', Finset.mul_sum, add_comm]
    simp [pow_succ', mul_left_comm]

theorem aeval_listPoly (y : ℂ) (f : List ℤ) :
    aeval y (listPoly f) = ∑ i ∈ Finset.range f.length, (f.getD i 0 : ℂ) * y ^ i := by
  simp [listPoly_eq_sum]

theorem listPoly_eq_zero_iff (f : List ℤ) : listPoly f = 0 ↔ ∀ v ∈ f, v = 0 := by
  constructor
  · intro h v hv
    obtain ⟨i, hi, rfl⟩ := List.mem_iff_getElem.1 hv
    rw [← List.getD_eq_getElem f 0 hi, ← coeff_listPoly, h, coeff_zero]
  · intro h
    refine ext fun i => ?_
    rw [coeff_listPoly, coeff_zero, List.getD_eq_getElem?_getD]
    cases hi : f[i]? with
    | none => rfl
    | some v => exact h v (List.mem_of_getElem? hi)

theorem listPoly_concat (f : List ℤ) (v : ℤ) : listPoly (f ++ [v]) = listPoly f + C v * X ^ f.length := by
  induction f with
  | nil => simp [listPoly]
  | cons u us ih =>
    rw [List.cons_append, listPoly, listPoly, ih, List.length_cons, pow_succ]
    ring

theorem listPoly_zipWith_sub {f g : List ℤ} (h : f.length = g.length) :
    listPoly (List.zipWith (· - ·) f g) = listPoly f - listPoly g := by
  induction f generalizing g with
  | nil =>
    obtain rfl := List.length_eq_zero_iff.1 h.symm
    simp [listPoly]
  | cons u us ih =>
    obtain ⟨v, vs, rfl⟩ := List.exists_cons_of_length_eq_add_one h.symm
    rw [List.zipWith_cons_cons, listPoly, listPoly, listPoly, ih (Nat.succ.inj h), C_sub]
    ring

/-- Rotating a list to the left divides its polynomial by the variable, taken modulo z^N - 1. -/
theorem pow_mul_aeval_rotate {y : ℂ} (f : List ℤ) (hy : y ^ f.length = 1) (s : ℕ) :
    y ^ s * aeval y (listPoly (f.rotate s)) = aeval y (listPoly f) := by
  induction s generalizing f with
  | zero => simp
  | succ s ih =>
    cases f with
    | nil => simp [listPoly]
    | cons v vs =>
      have hlen : (vs ++ [v]).length = (v :: vs).length := by simp
      have hpow : y * y ^ vs.length = 1 := by rw [← pow_succ']; exact hy
      rw [List.rotate_cons_succ, pow_succ', mul_assoc, ih _ (by rw [hlen, hy]), listPoly_concat, listPoly]
      simp only [map_add, map_mul, map_pow, aeval_X, aeval_C]
      linear_combination (algebraMap ℤ ℂ v) * hpow

/-! ### The test at a primitive root -/

theorem length_timesShiftMinusOne (s : ℕ) (f : List ℤ) : (timesShiftMinusOne s f).length = f.length := by
  simp [timesShiftMinusOne]

theorem aeval_timesShiftMinusOne {y : ℂ} {f : List ℤ} (hy : y ^ f.length = 1) {s : ℕ} (hs : s ≤ f.length) :
    aeval y (listPoly (timesShiftMinusOne s f)) = (y ^ s - 1) * aeval y (listPoly f) := by
  have hback : y ^ s * y ^ (f.length - s) = 1 := by rw [← pow_add, Nat.add_sub_cancel' hs, hy]
  have hrotate := pow_mul_aeval_rotate f hy (f.length - s)
  rw [timesShiftMinusOne, listPoly_zipWith_sub (List.length_rotate ..), map_sub]
  linear_combination aeval y (listPoly (f.rotate (f.length - s))) * (-hback) + y ^ s * hrotate

theorem mem_properDivisors {n d : ℕ} : d ∈ properDivisors n ↔ d ≤ n ∧ 2 ≤ d ∧ d ∣ n := by
  simp [properDivisors, Nat.dvd_iff_mod_eq_zero]

/-- The product that `vanishesAtPrimitiveRoot` tests. -/
def killImprimitive (size : ℕ) (ds : List ℕ) (f : List ℤ) : List ℤ :=
  ds.foldl (fun g d => timesShiftMinusOne (size / d) g) f

theorem vanishesAtPrimitiveRoot_eq (f : List ℤ) :
    vanishesAtPrimitiveRoot f = (killImprimitive f.length (properDivisors f.length) f).all fun v => v == 0 := rfl

theorem length_killImprimitive (size : ℕ) (ds : List ℕ) (f : List ℤ) : (killImprimitive size ds f).length = f.length := by
  induction ds generalizing f with
  | nil => rfl
  | cons d ds ih => exact (ih _).trans (length_timesShiftMinusOne _ f)

theorem aeval_killImprimitive {y : ℂ} {size : ℕ} (hy : y ^ size = 1) (ds : List ℕ) {f : List ℤ} (hf : f.length = size) :
    aeval y (listPoly (killImprimitive size ds f)) = (ds.map fun d => y ^ (size / d) - 1).prod * aeval y (listPoly f) := by
  induction ds generalizing f with
  | nil => simp [killImprimitive]
  | cons d ds ih =>
    have hstep : aeval y (listPoly (timesShiftMinusOne (size / d) f)) = (y ^ (size / d) - 1) * aeval y (listPoly f) :=
      aeval_timesShiftMinusOne (hf ▸ hy) (hf ▸ Nat.div_le_self size d)
    have hrest := ih ((length_timesShiftMinusOne (size / d) f).trans hf)
    rw [hstep] at hrest
    rw [List.map_cons, List.prod_cons]
    exact hrest.trans (by ring)

/-- A polynomial of degree below N that is 0 at all N-th roots of unity is 0. -/
theorem listPoly_eq_zero_of_roots {z : ℂ} {f : List ℤ} (hf : f ≠ []) (hz : IsPrimitiveRoot z f.length)
    (h : ∀ y : ℂ, y ^ f.length = 1 → aeval y (listPoly f) = 0) : listPoly f = 0 := by
  have hpos : 0 < f.length := List.length_pos_iff.2 hf
  have hinj : Function.Injective fun i : Fin f.length => z ^ (i : ℕ) :=
    fun i j hij => Fin.ext (hz.pow_inj i.2 j.2 hij)
  have hzero : (listPoly f).map (Int.castRingHom ℂ) = 0 := by
    refine eq_zero_of_natDegree_lt_card_of_eval_eq_zero _ hinj (fun i => ?_) ?_
    · rw [eval_map]
      exact h _ (by rw [pow_right_comm, hz.pow_eq_one, one_pow])
    · have := (natDegree_map_le (f := Int.castRingHom ℂ) (p := listPoly f)).trans (natDegree_listPoly_le f)
      rw [Fintype.card_fin]
      omega
  exact (Polynomial.map_eq_zero_iff (RingHom.injective_int _)).1 hzero

/-- The primitive N-th roots of unity are conjugate. -/
theorem aeval_eq_zero_of_primitive {y z : ℂ} {N : ℕ} (hN : 0 < N) (hz : IsPrimitiveRoot z N) (hy : IsPrimitiveRoot y N)
    {f : ℤ[X]} (h : aeval z f = 0) : aeval y f = 0 := by
  have hdvd : minpoly ℤ y ∣ f := by
    rw [← cyclotomic_eq_minpoly hy hN, cyclotomic_eq_minpoly hz hN]
    exact minpoly.isIntegrallyClosed_dvd (hz.isIntegral hN) h
  obtain ⟨g, rfl⟩ := hdvd
  rw [map_mul, minpoly.aeval, zero_mul]

/-- The factors kill exactly the N-th roots of unity that are not primitive: one of order N/d is killed at d. -/
theorem prod_properDivisors_eq_zero_iff {y : ℂ} {N : ℕ} (hN : 0 < N) (hy : y ^ N = 1) :
    ((properDivisors N).map fun d => y ^ (N / d) - 1).prod = 0 ↔ ¬ IsPrimitiveRoot y N := by
  constructor
  · intro h0 hprim
    obtain ⟨d, hd, hd0⟩ := List.mem_map.1 (List.prod_eq_zero_iff.1 h0)
    obtain ⟨-, hd2, hdvd⟩ := mem_properDivisors.1 hd
    exact hprim.pow_ne_one_of_pos_of_lt (Nat.div_pos (Nat.le_of_dvd hN hdvd) (by omega)).ne' (Nat.div_lt_self hN hd2)
      (sub_eq_zero.1 hd0)
  · intro hnot
    have hne : orderOf y ≠ N := fun h => hnot (IsPrimitiveRoot.iff_orderOf.2 h)
    obtain ⟨d, hd⟩ := orderOf_dvd_of_pow_eq_one hy
    have hd2 : 2 ≤ d := by
      obtain rfl | rfl | hd2 : d = 0 ∨ d = 1 ∨ 2 ≤ d := by omega
      · omega
      · omega
      · exact hd2
    have hdvd : d ∣ N := ⟨orderOf y, by rw [mul_comm, ← hd]⟩
    have hmem : d ∈ properDivisors N := mem_properDivisors.2 ⟨Nat.le_of_dvd hN hdvd, hd2, hdvd⟩
    have hfactor : y ^ (N / d) - 1 = 0 := by
      rw [hd, Nat.mul_div_cancel _ (by omega), pow_orderOf_eq_one, sub_self]
    exact List.prod_eq_zero (List.mem_map.2 ⟨d, hmem, hfactor⟩)

theorem vanishesAtPrimitiveRoot_iff {z : ℂ} {f : List ℤ} (hf : f ≠ []) (hz : IsPrimitiveRoot z f.length) :
    vanishesAtPrimitiveRoot f = true ↔ aeval z (listPoly f) = 0 := by
  have hpos : 0 < f.length := List.length_pos_iff.2 hf
  have hlen := length_killImprimitive f.length (properDivisors f.length) f
  have hall : vanishesAtPrimitiveRoot f = true ↔
      listPoly (killImprimitive f.length (properDivisors f.length) f) = 0 := by
    rw [vanishesAtPrimitiveRoot_eq, listPoly_eq_zero_iff]
    simp
  rw [hall]
  constructor
  · intro h
    have hprod := aeval_killImprimitive hz.pow_eq_one (properDivisors f.length) rfl
    rw [h, map_zero, eq_comm, mul_eq_zero, prod_properDivisors_eq_zero_iff hpos hz.pow_eq_one] at hprod
    exact hprod.resolve_left (not_not.2 hz)
  · intro h
    refine listPoly_eq_zero_of_roots (List.ne_nil_of_length_pos (by omega)) (by rwa [hlen]) fun y hy => ?_
    rw [hlen] at hy
    rw [aeval_killImprimitive hy _ rfl]
    by_cases hprim : IsPrimitiveRoot y f.length
    · rw [aeval_eq_zero_of_primitive hpos hz hprim h, mul_zero]
    · rw [(prod_properDivisors_eq_zero_iff hpos hy).2 hprim, zero_mul]

/-! ### Sums along a list -/

/-- A function that adds up a term per entry, counting the entries, is the sum of those terms. -/
theorem listSum_eq_sum {g : ℕ → List ℤ → ℤ} {term : ℕ → ℤ → ℤ} (hnil : ∀ n, g n [] = 0)
    (hcons : ∀ n v vs, g n (v :: vs) = term n v + g (n + 1) vs) (n : ℕ) (x : List ℤ) :
    g n x = ∑ i ∈ Finset.range x.length, term (n + i) (x.getD i 0) := by
  induction x generalizing n with
  | nil => simpa using hnil n
  | cons v vs ih =>
    rw [hcons, ih, List.length_cons, Finset.sum_range_succ', add_comm]
    simp [Nat.add_assoc, Nat.add_comm 1]

theorem differenceCoeff_eq_sum (size j k e : ℕ) (r : List ℤ) :
    differenceCoeff size j k e 0 r = ∑ d ∈ Finset.range r.length,
      ((if j * d % size = e then r.getD d 0 else 0) - if k * d % size = e then r.getD d 0 else 0) := by
  simpa using listSum_eq_sum (g := differenceCoeff size j k e) (fun _ => rfl) (fun _ _ _ => rfl) 0 r

theorem dot_eq_sum {x y : List ℤ} (h : x.length = y.length) :
    dot x y = ∑ n ∈ Finset.range x.length, x.getD n 0 * y.getD n 0 := by
  induction x generalizing y with
  | nil => rfl
  | cons u us ih =>
    obtain ⟨v, vs, rfl⟩ := List.exists_cons_of_length_eq_add_one h.symm
    rw [dot, ih (Nat.succ.inj h), List.length_cons, Finset.sum_range_succ', add_comm]
    simp

/-! ### The power of a bin -/

/-- The first N-th root of unity. -/
noncomputable def firstRoot (N : ℕ) : ℂ := Complex.exp (2 * Real.pi * Complex.I / N)

theorem isPrimitiveRoot_firstRoot {N : ℕ} (hN : 0 < N) : IsPrimitiveRoot (firstRoot N) N :=
  Complex.isPrimitiveRoot_exp N hN.ne'

theorem firstRoot_pow (N e : ℕ) : firstRoot N ^ e = Complex.exp ((2 * Real.pi * e / N : ℝ) * Complex.I) := by
  rw [firstRoot, ← Complex.exp_nat_mul]
  congr 1
  push_cast
  ring

/-- R134: C[k] + i S[k] is the window's polynomial at z^k, z the first N-th root of unity. -/
theorem aeval_listPoly_firstRoot (x : List ℤ) (k : ℕ) :
    aeval (firstRoot x.length ^ k) (listPoly x) = cosSum x k + sinSum x k * Complex.I := by
  rw [aeval_listPoly, cosSum, sinSum, Complex.ofReal_sum, Complex.ofReal_sum, Finset.sum_mul, ← Finset.sum_add_distrib]
  refine Finset.sum_congr rfl fun n hn => ?_
  have hroot := (isPrimitiveRoot_firstRoot (Nat.zero_lt_of_lt (Finset.mem_range.1 hn))).pow_eq_one
  rw [← pow_mul, pow_eq_pow_mod (k * n) hroot, firstRoot_pow, Complex.exp_mul_I, ← Complex.ofReal_cos,
    ← Complex.ofReal_sin]
  push_cast
  ring

theorem power_eq_normSq (x : List ℤ) (k : ℕ) : power x k =
    Complex.normSq (aeval (firstRoot x.length ^ k) (listPoly x)) := by
  rw [aeval_listPoly_firstRoot, Complex.normSq_add_mul_I, power]

theorem length_autocorrelation (x : List ℤ) : (autocorrelation x).length = x.length := by simp [autocorrelation]

theorem getD_rotate (x : List ℤ) (d : ℕ) {n : ℕ} (hn : n < x.length) :
    (x.rotate d).getD n 0 = x.getD ((n + d) % x.length) 0 := by
  rw [List.getD_eq_getElem?_getD, List.getElem?_rotate hn, ← List.getD_eq_getElem?_getD]

/-- The autocorrelation at an N-th root of unity is the squared absolute value of the window there. -/
theorem aeval_autocorrelation (x : List ℤ) {y : ℂ} (hy : y ^ x.length = 1) :
    aeval y (listPoly (autocorrelation x)) = Complex.normSq (aeval y (listPoly x)) := by
  obtain rfl | hx := eq_or_ne x []
  · simp [autocorrelation, listPoly]
  have hunit : starRingEnd ℂ y * y = 1 := by
    rw [← Complex.normSq_eq_conj_mul_self, Complex.normSq_eq_norm_sq,
      Complex.norm_eq_one_of_pow_eq_one hy (List.length_pos_iff.2 hx).ne']
    norm_num
  have hrotated (n : ℕ) : aeval y (listPoly (x.rotate n)) = starRingEnd ℂ y ^ n * aeval y (listPoly x) := by
    rw [← pow_mul_aeval_rotate x hy n, ← mul_assoc, ← mul_pow, hunit, one_pow, one_mul]
  calc aeval y (listPoly (autocorrelation x))
      = ∑ d ∈ Finset.range x.length, ∑ n ∈ Finset.range x.length,
          (x.getD n 0 : ℂ) * ((x.rotate n).getD d 0 * y ^ d) := by
        rw [aeval_listPoly, length_autocorrelation]
        refine Finset.sum_congr rfl fun d hd => ?_
        rw [autocorrelation, List.getD_eq_getElem _ _ (by simpa using hd), List.getElem_map, List.getElem_range,
          dot_eq_sum (List.length_rotate ..).symm, Int.cast_sum, Finset.sum_mul]
        refine Finset.sum_congr rfl fun n hn => ?_
        rw [getD_rotate x d (Finset.mem_range.1 hn), getD_rotate x n (Finset.mem_range.1 hd), add_comm d]
        push_cast
        ring
    _ = ∑ n ∈ Finset.range x.length, (x.getD n 0 : ℂ) * aeval y (listPoly (x.rotate n)) := by
        rw [Finset.sum_comm]
        simp_rw [← Finset.mul_sum, aeval_listPoly y (x.rotate _), List.length_rotate]
    _ = (∑ n ∈ Finset.range x.length, (x.getD n 0 : ℂ) * starRingEnd ℂ y ^ n) * aeval y (listPoly x) := by
        simp_rw [hrotated, ← mul_assoc, Finset.sum_mul]
    _ = Complex.normSq (aeval y (listPoly x)) := by
        rw [Complex.normSq_eq_conj_mul_self, aeval_listPoly, map_sum]
        simp

theorem length_differencePoly (r : List ℤ) (j k : ℕ) : (differencePoly r j k).length = r.length := by simp [differencePoly]

theorem aeval_differencePoly {y : ℂ} {r : List ℤ} (hy : y ^ r.length = 1) (j k : ℕ) :
    aeval y (listPoly (differencePoly r j k)) = aeval (y ^ j) (listPoly r) - aeval (y ^ k) (listPoly r) := by
  have hcollect (i : ℕ) : ∑ e ∈ Finset.range r.length, ∑ d ∈ Finset.range r.length,
      (if i * d % r.length = e then (r.getD d 0 : ℂ) else 0) * y ^ e = aeval (y ^ i) (listPoly r) := by
    rw [Finset.sum_comm, aeval_listPoly]
    refine Finset.sum_congr rfl fun d hd => ?_
    have hmod : i * d % r.length ∈ Finset.range r.length :=
      Finset.mem_range.2 (Nat.mod_lt _ (Nat.zero_lt_of_lt (Finset.mem_range.1 hd)))
    simp_rw [ite_mul, zero_mul]
    rw [Finset.sum_ite_eq, if_pos hmod, ← pow_eq_pow_mod _ hy, pow_mul]
  rw [aeval_listPoly, length_differencePoly, ← hcollect, ← hcollect, ← Finset.sum_sub_distrib]
  refine Finset.sum_congr rfl fun e he => ?_
  rw [differencePoly, List.getD_eq_getElem _ _ (by simpa using he), List.getElem_map, List.getElem_range,
    differenceCoeff_eq_sum, Int.cast_sum, Finset.sum_mul, ← Finset.sum_sub_distrib]
  refine Finset.sum_congr rfl fun d _ => ?_
  push_cast
  ring

/-- The polynomial of the difference of two powers. -/
noncomputable def powerDifference (x : List ℤ) (j k : ℕ) : ℤ[X] := listPoly (differencePoly (autocorrelation x) j k)

theorem aeval_powerDifference (x : List ℤ) {y : ℂ} (hy : y ^ x.length = 1) (j k : ℕ) : aeval y (powerDifference x j k) =
    ((Complex.normSq (aeval (y ^ j) (listPoly x)) - Complex.normSq (aeval (y ^ k) (listPoly x)) : ℝ) : ℂ) := by
  have hpow (i : ℕ) : (y ^ i) ^ x.length = 1 := by rw [pow_right_comm, hy, one_pow]
  rw [powerDifference, aeval_differencePoly (by rwa [length_autocorrelation]), aeval_autocorrelation x (hpow j),
    aeval_autocorrelation x (hpow k), Complex.ofReal_sub]

theorem aeval_powerDifference_firstRoot {x : List ℤ} (hx : x ≠ []) (j k : ℕ) :
    aeval (firstRoot x.length) (powerDifference x j k) = ((power x j - power x k : ℝ) : ℂ) := by
  rw [aeval_powerDifference x (isPrimitiveRoot_firstRoot (List.length_pos_iff.2 hx)).pow_eq_one,
    power_eq_normSq, power_eq_normSq]

/-- Settles O38: the test vanishes at a primitive root exactly if the difference of the powers does. -/
theorem samePowerIsExact : Obligations.SamePowerIsExact := by
  intro x j k hx
  have hlen : (differencePoly (autocorrelation x) j k).length = x.length := by
    rw [length_differencePoly, length_autocorrelation]
  have hpos : 0 < x.length := List.length_pos_iff.2 hx
  have hroot : IsPrimitiveRoot (firstRoot x.length) (differencePoly (autocorrelation x) j k).length :=
    hlen.symm ▸ isPrimitiveRoot_firstRoot hpos
  rw [samePower, vanishesAtPrimitiveRoot_iff (List.ne_nil_of_length_pos (hlen ▸ hpos)) hroot, ← powerDifference,
    aeval_powerDifference_firstRoot hx, Complex.ofReal_eq_zero, sub_eq_zero]

end Sys2Proof.Safety
end

section
/-! PROOFS. PEAKBIN is the least strongest bin (spec/42_classifier.md R136, R137, log entry 10): the brackets hold the powers
and are narrow, so that every candidate is nearly as strong as the strongest bin, which is a candidate; a precision as high
as the last one tried leaves no candidates but the strongest bins. -/

namespace Sys2Proof.Safety

open Sys2Proof.Machine Polynomial

/-! ### Sine and cosine in fixed point -/

theorem sinFixed_mod (bits p m : ℕ) : sinFixed bits (p % m) m = sinFixed bits p m := by
  have hquadrant : quadrant (p % m) m = quadrant p m := by rw [quadrant, Nat.mod_mod, ← quadrant]
  have harg : quarterArg (p % m) m = quarterArg p m := by rw [quarterArg, hquadrant, Nat.mod_mod, ← quarterArg]
  rw [sinFixed, withSineSign, hquadrant, harg, ← withSineSign, ← sinFixed]

theorem abs_sinFixed_sub_le (bits p : ℕ) {m : ℕ} (hm : 0 < m) :
    |(sinFixed bits p m : ℝ) - 2 ^ bits * Real.sin (2 * Real.pi * p / m)| ≤ 2 := by
  have hlt : p % m < m := Nat.mod_lt p hm
  have hclose := abs_sineQuarter_sub_le bits (quarterArg_le (p % m) hm)
  have hturns : Real.sin (2 * Real.pi * p / m) = Real.sin (2 * Real.pi * ((p % m : ℕ) / m : ℝ)) := by
    simpa [phase, mul_div_assoc] using (sin_phase p 1 hm).symm
  rw [← sinFixed_mod, hturns, sin_turns hlt, sinFixed, withSineSign]
  split
  · rw [Int.cast_neg, Int.cast_natCast, mul_neg, sub_neg_eq_add, add_comm, ← sub_eq_add_neg, abs_sub_comm]
    exact hclose
  · exact hclose

theorem abs_cosFixed_sub_le (bits i : ℕ) {m : ℕ} (hm : 0 < m) :
    |(cosFixed bits i m : ℝ) - 2 ^ bits * Real.cos (2 * Real.pi * i / m)| ≤ 2 := by
  have hm' : (m : ℝ) ≠ 0 := by positivity
  have hshift : 2 * Real.pi * i / m + Real.pi / 2 = 2 * Real.pi * (4 * i + m : ℕ) / (4 * m : ℕ) := by
    push_cast
    field_simp
    ring
  rw [← Real.sin_add_pi_div_two, hshift]
  exact abs_sinFixed_sub_le bits (4 * i + m) (by omega)

theorem getD_cosTable (bits : ℕ) {size i : ℕ} (hi : i < size) : (cosTable bits size).getD i 0 = cosFixed bits i size := by
  simp [cosTable, Array.getD_eq_getD_getElem?, hi]

theorem getD_sinTable (bits : ℕ) {size i : ℕ} (hi : i < size) : (sinTable bits size).getD i 0 = sinFixed bits i size := by
  simp [sinTable, Array.getD_eq_getD_getElem?, hi]

/-! ### The two sums of a bin -/

theorem magnitudeSum_eq_sum (x : List ℤ) :
    (magnitudeSum x : ℝ) = ∑ n ∈ Finset.range x.length, |(x.getD n 0 : ℝ)| := by
  induction x with
  | nil => simp [magnitudeSum]
  | cons v vs ih =>
    rw [List.length_cons, Finset.sum_range_succ', magnitudeSum, List.map_cons, List.sum_cons, ← magnitudeSum,
      Nat.cast_add, ih, Nat.cast_natAbs, add_comm]
    simp

theorem correlateFrom_eq_sum (table : Array ℤ) (k size : ℕ) (x : List ℤ) : correlateFrom table k size 0 x =
    ∑ n ∈ Finset.range x.length, x.getD n 0 * table.getD (k * n % size) 0 := by
  simpa using listSum_eq_sum (g := correlateFrom table k size) (fun _ => rfl) (fun _ _ _ => rfl) 0 x

/-- A correlation with a table within 2 units of 2^bits * c is within 2 * (sum of the magnitudes) of the one with c. -/
theorem abs_correlate_sub_le {table : Array ℤ} {c : ℕ → ℝ} {x : List ℤ} (bits k : ℕ)
    (htable : ∀ i < x.length, |(table.getD i 0 : ℝ) - 2 ^ bits * c i| ≤ 2) :
    |(correlateFrom table k x.length 0 x : ℝ) - 2 ^ bits * ∑ n ∈ Finset.range x.length, x.getD n 0 * c (k * n % x.length)|
      ≤ (sineError * magnitudeSum x : ℕ) := by
  rw [correlateFrom_eq_sum, Int.cast_sum, Finset.mul_sum, ← Finset.sum_sub_distrib, sineError, Nat.cast_mul,
    magnitudeSum_eq_sum, Finset.mul_sum]
  refine (Finset.abs_sum_le_sum_abs _ _).trans (Finset.sum_le_sum fun n hn => ?_)
  have hlt : k * n % x.length < x.length := Nat.mod_lt _ (Nat.zero_lt_of_lt (Finset.mem_range.1 hn))
  have hscaled := mul_le_mul_of_nonneg_left (htable _ hlt) (abs_nonneg (x.getD n 0 : ℝ))
  rw [← abs_mul] at hscaled
  refine (le_of_eq ?_).trans (hscaled.trans_eq ?_)
  · congr 1
    push_cast
    ring
  · push_cast
    ring

theorem abs_cosCorrelate_sub_le (bits : ℕ) (x : List ℤ) (k : ℕ) :
    |(correlateFrom (cosTable bits x.length) k x.length 0 x : ℝ) - 2 ^ bits * cosSum x k| ≤
      (sineError * magnitudeSum x : ℕ) :=
  abs_correlate_sub_le (c := fun i => Real.cos (2 * Real.pi * i / x.length)) bits k fun i hi => by
    rw [getD_cosTable bits hi]
    exact abs_cosFixed_sub_le bits i (Nat.zero_lt_of_lt hi)

theorem abs_sinCorrelate_sub_le (bits : ℕ) (x : List ℤ) (k : ℕ) :
    |(correlateFrom (sinTable bits x.length) k x.length 0 x : ℝ) - 2 ^ bits * sinSum x k| ≤
      (sineError * magnitudeSum x : ℕ) :=
  abs_correlate_sub_le (c := fun i => Real.sin (2 * Real.pi * i / x.length)) bits k fun i hi => by
    rw [getD_sinTable bits hi]
    exact abs_sinFixed_sub_le bits i (Nat.zero_lt_of_lt hi)

theorem norm_aeval_listPoly_le (x : List ℤ) {y : ℂ} (hy : ‖y‖ = 1) : ‖aeval y (listPoly x)‖ ≤ magnitudeSum x := by
  rw [aeval_listPoly, magnitudeSum_eq_sum]
  refine (norm_sum_le _ _).trans_eq (Finset.sum_congr rfl fun n _ => ?_)
  rw [norm_mul, norm_pow, hy, one_pow, mul_one, Complex.norm_intCast]

theorem norm_firstRoot_pow (N e : ℕ) : ‖firstRoot N ^ e‖ = 1 := by rw [firstRoot_pow, Complex.norm_exp_ofReal_mul_I]

theorem abs_cosSum_le (x : List ℤ) (k : ℕ) : |cosSum x k| ≤ magnitudeSum x := by
  have h := (Complex.abs_re_le_norm _).trans (norm_aeval_listPoly_le x (norm_firstRoot_pow x.length k))
  rw [aeval_listPoly_firstRoot] at h
  simpa using h

theorem abs_sinSum_le (x : List ℤ) (k : ℕ) : |sinSum x k| ≤ magnitudeSum x := by
  have h := (Complex.abs_im_le_norm _).trans (norm_aeval_listPoly_le x (norm_firstRoot_pow x.length k))
  rw [aeval_listPoly_firstRoot] at h
  simpa using h

/-! ### Brackets -/

/-- The square of a number known within e. -/
theorem square_bracket {z : ℤ} {e : ℕ} {r : ℝ} (h : |(z : ℝ) - r| ≤ e) :
    (((z.natAbs - e) ^ 2 : ℕ) : ℝ) ≤ r ^ 2 ∧ r ^ 2 ≤ ((z.natAbs + e) ^ 2 : ℕ) := by
  have hclose : |(z.natAbs : ℝ) - abs r| ≤ e := by
    rw [Nat.cast_natAbs, Int.cast_abs]
    exact (abs_abs_sub_abs_le _ _).trans h
  obtain ⟨hlow, hhigh⟩ := abs_le.1 hclose
  rw [← sq_abs r, Nat.cast_pow, Nat.cast_pow, Nat.cast_add]
  refine ⟨?_, pow_le_pow_left₀ (abs_nonneg r) (by linarith) 2⟩
  refine pow_le_pow_left₀ (Nat.cast_nonneg _) ?_ 2
  obtain hle | hlt := le_total e z.natAbs
  · rw [Nat.cast_sub hle]
    linarith
  · rw [Nat.sub_eq_zero_of_le hlt, Nat.cast_zero]
    exact abs_nonneg r

theorem square_bracket_width (c e : ℕ) : (c + e) ^ 2 ≤ (c - e) ^ 2 + 4 * e * (c + e) := by
  obtain hle | hlt := le_total e c
  · obtain ⟨d, rfl⟩ := Nat.exists_eq_add_of_le hle
    rw [Nat.add_sub_cancel_left]
    nlinarith
  · rw [Nat.sub_eq_zero_of_le hlt]
    nlinarith

/-- The bracket of bin k. -/
def powerBracket (bits : ℕ) (x : List ℤ) (k : ℕ) : Bracket :=
  bracketOf k (sineError * magnitudeSum x) (correlateFrom (cosTable bits x.length) k x.length 0 x).natAbs
    (correlateFrom (sinTable bits x.length) k x.length 0 x).natAbs

theorem powerBrackets_eq (bits : ℕ) (x : List ℤ) :
    powerBrackets bits x = (List.range (x.length / 2 + 1)).map (powerBracket bits x) := rfl

theorem powerBracket_holds (bits : ℕ) (x : List ℤ) (k : ℕ) :
    ((powerBracket bits x k).lo : ℝ) ≤ (2 ^ bits) ^ 2 * power x k ∧
      (2 ^ bits) ^ 2 * power x k ≤ (powerBracket bits x k).hi := by
  obtain ⟨hclow, hchigh⟩ := square_bracket (abs_cosCorrelate_sub_le bits x k)
  obtain ⟨hslow, hshigh⟩ := square_bracket (abs_sinCorrelate_sub_le bits x k)
  have hpower : (2 ^ bits) ^ 2 * power x k = (2 ^ bits * cosSum x k) ^ 2 + (2 ^ bits * sinSum x k) ^ 2 := by
    rw [power]
    ring
  rw [hpower, powerBracket, bracketOf, Nat.cast_add, Nat.cast_add]
  exact ⟨add_le_add hclow hslow, add_le_add hchigh hshigh⟩

/-- A sum of a bin and the error allowed it, in fixed point. -/
theorem natAbs_add_error_le {z : ℤ} {bits M : ℕ} {r : ℝ} (hbits : 2 ≤ bits)
    (h : |(z : ℝ) - 2 ^ bits * r| ≤ (sineError * M : ℕ)) (hr : |r| ≤ M) :
    z.natAbs + sineError * M ≤ 2 * 2 ^ bits * M := by
  have hpow : (4 : ℝ) ≤ 2 ^ bits := by
    calc (4 : ℝ) = 2 ^ 2 := by norm_num
      _ ≤ 2 ^ bits := pow_le_pow_right₀ (by norm_num) hbits
  have hz : |(z : ℝ)| ≤ 2 ^ bits * M + 2 * M := by
    have hsplit := abs_sub_abs_le_abs_sub (z : ℝ) (2 ^ bits * r)
    rw [abs_mul, abs_of_pos (by positivity : (0 : ℝ) < 2 ^ bits)] at hsplit
    have hscaled := mul_le_mul_of_nonneg_left hr (by positivity : (0 : ℝ) ≤ 2 ^ bits)
    rw [sineError] at h
    push_cast at h
    linarith
  have hreal : (z.natAbs : ℝ) + 2 * M ≤ 2 * 2 ^ bits * M := by
    rw [Nat.cast_natAbs, Int.cast_abs]
    nlinarith [M.cast_nonneg (α := ℝ)]
  rw [sineError]
  exact_mod_cast hreal

theorem powerBracket_width {bits : ℕ} (hbits : 2 ≤ bits) (x : List ℤ) (k : ℕ) :
    (powerBracket bits x k).hi ≤ (powerBracket bits x k).lo + 32 * 2 ^ bits * magnitudeSum x ^ 2 := by
  have hcos := natAbs_add_error_le hbits (abs_cosCorrelate_sub_le bits x k) (abs_cosSum_le x k)
  have hsin := natAbs_add_error_le hbits (abs_sinCorrelate_sub_le bits x k) (abs_sinSum_le x k)
  rw [powerBracket, bracketOf]
  generalize (correlateFrom (cosTable bits x.length) k x.length 0 x).natAbs = c at hcos ⊢
  generalize (correlateFrom (sinTable bits x.length) k x.length 0 x).natAbs = s at hsin ⊢
  calc _ ≤ (c - sineError * magnitudeSum x) ^ 2 + 4 * (sineError * magnitudeSum x) * (c + sineError * magnitudeSum x) +
        ((s - sineError * magnitudeSum x) ^ 2 + 4 * (sineError * magnitudeSum x) * (s + sineError * magnitudeSum x)) :=
        add_le_add (square_bracket_width _ _) (square_bracket_width _ _)
    _ ≤ (c - sineError * magnitudeSum x) ^ 2 + 4 * (sineError * magnitudeSum x) * (2 * 2 ^ bits * magnitudeSum x) +
        ((s - sineError * magnitudeSum x) ^ 2 + 4 * (sineError * magnitudeSum x) * (2 * 2 ^ bits * magnitudeSum x)) := by
        gcongr
    _ = _ := by
        rw [sineError]
        ring

/-! ### Candidates -/

theorem foldl_max_le_iff (ls : List ℕ) (a h : ℕ) : ls.foldl max a ≤ h ↔ a ≤ h ∧ ∀ l ∈ ls, l ≤ h := by
  induction ls generalizing a with
  | nil => simp
  | cons l ls ih => simp [ih, and_assoc]

/-- The candidates are bins in rising order, those whose upper end reaches every lower end. -/
theorem candidates_eq_filter (bits : ℕ) (x : List ℤ) : candidates (powerBrackets bits x) =
    (List.range (x.length / 2 + 1)).filter fun k =>
      decide (∀ j ≤ x.length / 2, (powerBracket bits x j).lo ≤ (powerBracket bits x k).hi) := by
  have hbin : Bracket.bin ∘ powerBracket bits x = id := rfl
  rw [candidates, powerBrackets_eq, List.filter_map, List.map_map, List.map_map, hbin, List.map_id]
  refine List.filter_congr fun k _ => decide_eq_decide.2 ?_
  simp [foldl_max_le_iff]

theorem mem_candidates {bits : ℕ} {x : List ℤ} {k : ℕ} : k ∈ candidates (powerBrackets bits x) ↔
    k ≤ x.length / 2 ∧ ∀ j ≤ x.length / 2, (powerBracket bits x j).lo ≤ (powerBracket bits x k).hi := by
  simp [candidates_eq_filter]

theorem candidates_sorted (bits : ℕ) (x : List ℤ) : (candidates (powerBrackets bits x)).Pairwise (· < ·) := by
  rw [candidates_eq_filter]
  exact List.pairwise_lt_range.filter _

/-- A bin of greatest power. -/
def Strongest (x : List ℤ) (k : ℕ) : Prop := k ≤ x.length / 2 ∧ ∀ j ≤ x.length / 2, power x j ≤ power x k

theorem exists_strongest (x : List ℤ) : ∃ k, Strongest x k := by
  obtain ⟨k, hk, hmax⟩ := (Finset.range (x.length / 2 + 1)).exists_max_image (power x) (by simp)
  exact ⟨k, Nat.lt_succ_iff.1 (Finset.mem_range.1 hk), fun j hj => hmax j (Finset.mem_range.2 (Nat.lt_succ_iff.2 hj))⟩

theorem isPeakBin_iff (x : List ℤ) (k : ℕ) : IsPeakBin x k ↔ Strongest x k ∧ ∀ j < k, ¬ Strongest x j := by
  constructor
  · rintro ⟨hk, hmax, hleast⟩
    exact ⟨⟨hk, hmax⟩, fun j hj hstrong => (hleast j hj).not_ge (hstrong.2 k hk)⟩
  · rintro ⟨⟨hk, hmax⟩, hleast⟩
    refine ⟨hk, hmax, fun j hj => lt_of_not_ge fun hle => hleast j hj ⟨by omega, fun i hi => (hmax i hi).trans hle⟩⟩

theorem isPeakBin_unique {x : List ℤ} {j k : ℕ} (hj : IsPeakBin x j) (hk : IsPeakBin x k) : j = k := by
  obtain ⟨hj, hjleast⟩ := (isPeakBin_iff x j).1 hj
  obtain ⟨hk, hkleast⟩ := (isPeakBin_iff x k).1 hk
  exact le_antisymm (not_lt.1 fun hlt => hjleast k hlt hk) (not_lt.1 fun hlt => hkleast j hlt hj)

/-- The strongest bins are candidates at every precision. -/
theorem Strongest.mem_candidates {x : List ℤ} {k : ℕ} (h : Strongest x k) (bits : ℕ) :
    k ∈ candidates (powerBrackets bits x) := by
  obtain ⟨hk, hmax⟩ := h
  refine Safety.mem_candidates.2 ⟨hk, fun j hj => ?_⟩
  have hscaled := mul_le_mul_of_nonneg_left (hmax j hj) (by positivity : (0 : ℝ) ≤ (2 ^ bits) ^ 2)
  exact_mod_cast ((powerBracket_holds bits x j).1.trans hscaled).trans (powerBracket_holds bits x k).2

/-- A candidate is nearly as strong as any bin. -/
theorem candidate_near {bits : ℕ} (hbits : 2 ≤ bits) {x : List ℤ} {j k : ℕ} (hj : j ≤ x.length / 2)
    (hk : k ∈ candidates (powerBrackets bits x)) :
    (power x j - power x k) * 2 ^ bits ≤ 64 * (magnitudeSum x : ℝ) ^ 2 := by
  have hreach : ((powerBracket bits x j).lo : ℝ) ≤ (powerBracket bits x k).hi := by
    exact_mod_cast (mem_candidates.1 hk).2 j hj
  have hwidth (i : ℕ) : ((powerBracket bits x i).hi : ℝ) ≤
      (powerBracket bits x i).lo + 32 * 2 ^ bits * (magnitudeSum x : ℝ) ^ 2 := by
    exact_mod_cast powerBracket_width hbits x i
  have hpow : (0 : ℝ) < 2 ^ bits := by positivity
  refine le_of_mul_le_mul_right ?_ hpow
  linarith [(powerBracket_holds bits x j).2, (powerBracket_holds bits x k).1, hwidth j, hwidth k]

/-! ### A precision that decides -/

theorem peakDecided_eq_some_iff {x : List ℤ} {bits k : ℕ} : peakDecided x bits = some k ↔
    ∃ rest, candidates (powerBrackets bits x) = k :: rest ∧
      ∀ j ∈ rest, samePower (autocorrelation x) k j = true := by
  unfold peakDecided
  split
  · next h => rw [h]; simp
  · next i h =>
    rw [h, Option.some.injEq]
    constructor
    · rintro rfl
      exact ⟨[], rfl, by simp⟩
    · rintro ⟨rest, hcons, -⟩
      exact (List.cons.inj hcons).1
  · next i rest _ h =>
    dsimp only
    rw [h, Option.ite_none_right_eq_some, List.all_eq_true]
    simp only [Option.some.injEq, List.cons.injEq]
    constructor
    · rintro ⟨hsame, rfl⟩
      exact ⟨rest, ⟨rfl, rfl⟩, hsame⟩
    · rintro ⟨_, ⟨rfl, rfl⟩, hsame⟩
      exact ⟨hsame, rfl⟩

/-- If the candidates are exactly tied then all of them are the strongest bins, and the first is the least. -/
theorem isPeakBin_of_peakDecided {x : List ℤ} (hx : x ≠ []) {bits k : ℕ} (h : peakDecided x bits = some k) :
    IsPeakBin x k := by
  obtain ⟨rest, hcand, hsame⟩ := peakDecided_eq_some_iff.1 h
  have htied (j : ℕ) (hj : j ∈ candidates (powerBrackets bits x)) : power x k = power x j := by
    rw [hcand, List.mem_cons] at hj
    obtain rfl | hj := hj
    · rfl
    · exact (samePowerIsExact x k j hx).1 (hsame j hj)
  obtain ⟨s, hs⟩ := exists_strongest x
  have hk : k ∈ candidates (powerBrackets bits x) := by simp [hcand]
  refine (isPeakBin_iff x k).2 ⟨⟨(mem_candidates.1 hk).1, fun j hj => ?_⟩, fun j hj hstrong => ?_⟩
  · rw [htied s (hs.mem_candidates bits)]
    exact hs.2 j hj
  · have hsorted := candidates_sorted bits x
    have hmem := hstrong.mem_candidates bits
    rw [hcand] at hsorted hmem
    obtain rfl | hmem := List.mem_cons.1 hmem
    · exact lt_irrefl _ hj
    · exact absurd (List.rel_of_pairwise_cons hsorted hmem) (by omega)

/-- Settles O37: the precision need not be that high, the brackets hold at any. -/
theorem decidedPeakBinIsExact : Obligations.DecidedPeakBinIsExact := fun _ _ _ hx _ h => isPeakBin_of_peakDecided hx h

/-- A precision that does not decide has two candidates of different power. -/
theorem exists_candidates_of_peakDecided_none {x : List ℤ} (hx : x ≠ []) {bits : ℕ} (h : peakDecided x bits = none) :
    ∃ j ∈ candidates (powerBrackets bits x), ∃ k ∈ candidates (powerBrackets bits x), power x j ≠ power x k := by
  obtain ⟨s, hs⟩ := exists_strongest x
  obtain ⟨k, rest, hcand⟩ := List.exists_cons_of_ne_nil (List.ne_nil_of_mem (hs.mem_candidates bits))
  have hdiffer : ∃ j ∈ rest, samePower (autocorrelation x) k j ≠ true := by
    by_contra hall
    push Not at hall
    rw [peakDecided_eq_some_iff.2 ⟨rest, hcand, hall⟩] at h
    cases h
  obtain ⟨j, hj, hne⟩ := hdiffer
  rw [hcand]
  exact ⟨k, by simp, j, by simp [hj], fun heq => hne ((samePowerIsExact x k j hx).2 heq)⟩

/-! ### The search over precisions -/

/-- Whatever precision the search ends at, it decided. -/
theorem exists_peakDecided_of_peakSearch {x : List ℤ} {fuel bits k : ℕ} (h : peakSearch x fuel bits = some k) :
    ∃ bits', peakDecided x bits' = some k := by
  induction fuel generalizing bits with
  | zero => cases h
  | succ fuel ih =>
    rw [peakSearch] at h
    split at h
    · next hdecided => exact ⟨bits, by rw [hdecided, h]⟩
    · exact ih h

/-- A search that fails has failed at each of its precisions. -/
theorem peakDecided_of_peakSearch_none {x : List ℤ} {fuel bits : ℕ} (h : peakSearch x fuel bits = none) {i : ℕ}
    (hi : i < fuel) : peakDecided x (2 ^ i * bits) = none := by
  induction fuel generalizing bits i with
  | zero => omega
  | succ fuel ih =>
    rw [peakSearch] at h
    split at h
    · cases h
    · next hnone =>
      cases i with
      | zero => rwa [pow_zero, one_mul]
      | succ i =>
        rw [pow_succ, mul_assoc]
        exact ih h (by omega)

theorem ambiguous_iff (x : List ℤ) : ambiguous x = true ↔ ∀ v ∈ x, v = 0 := by simp [ambiguous]

theorem peakBin_of_zeros {x : List ℤ} (h : ∀ v ∈ x, v = 0) : num.peakBin x = 0 := if_pos ((ambiguous_iff x).2 h)

theorem ne_nil_of_not_zeros {x : List ℤ} (h : ¬ ∀ v ∈ x, v = 0) : x ≠ [] := by
  rintro rfl
  exact h (by simp)

/-- A window that is not all zeros has the bin that the search finds, or 0. -/
theorem peakBin_of_not_zeros {x : List ℤ} (h : ¬ ∀ v ∈ x, v = 0) :
    num.peakBin x = (peakSearch x precisionFuel firstBits).getD 0 := if_neg (mt (ambiguous_iff x).1 h)

/-- Whatever the window, PEAKBIN is the least strongest bin or the search's last alternative. -/
theorem isPeakBin_peakBin_or_zero {x : List ℤ} (hx : x ≠ []) : IsPeakBin x (num.peakBin x) ∨ num.peakBin x = 0 := by
  by_cases hzeros : ∀ v ∈ x, v = 0
  · exact .inr (peakBin_of_zeros hzeros)
  · rw [peakBin_of_not_zeros hzeros]
    cases hsearch : peakSearch x precisionFuel firstBits with
    | none => exact .inr rfl
    | some k =>
      obtain ⟨bits, hdecided⟩ := exists_peakDecided_of_peakSearch hsearch
      exact .inl (isPeakBin_of_peakDecided hx hdecided)

/-- A search that ends gives the least strongest bin. -/
theorem isPeakBin_peakBin_of_search {x : List ℤ} (hzeros : ¬ ∀ v ∈ x, v = 0)
    (h : peakSearch x precisionFuel firstBits ≠ none) : IsPeakBin x (num.peakBin x) := by
  obtain ⟨k, hk⟩ := Option.ne_none_iff_exists'.1 h
  obtain ⟨bits, hdecided⟩ := exists_peakDecided_of_peakSearch hk
  rw [peakBin_of_not_zeros hzeros, hk]
  exact isPeakBin_of_peakDecided (ne_nil_of_not_zeros hzeros) hdecided

/-! ### The search ends -/

theorem one_le_magnitudeSum {x : List ℤ} (h : ¬ ∀ v ∈ x, v = 0) : 1 ≤ magnitudeSum x := by
  push Not at h
  obtain ⟨v, hv, hne⟩ := h
  exact (Int.natAbs_pos.2 hne).trans_le (List.single_le_sum (by simp) _ (List.mem_map_of_mem hv))

theorem magnitudeSum_le {x : List ℤ} {bound : ℕ} (h : ∀ v ∈ x, v.natAbs ≤ bound) :
    magnitudeSum x ≤ x.length * bound := by
  simpa [magnitudeSum] using List.sum_le_card_nsmul (x.map Int.natAbs) bound (by simpa using h)

theorem normSq_aeval_listPoly_le (x : List ℤ) {y : ℂ} (hy : ‖y‖ = 1) :
    Complex.normSq (aeval y (listPoly x)) ≤ (magnitudeSum x : ℝ) ^ 2 := by
  rw [Complex.normSq_eq_norm_sq]
  exact pow_le_pow_left₀ (norm_nonneg _) (norm_aeval_listPoly_le x hy) 2

/-- The distance of two powers that are not equal. -/
theorem power_gap {x : List ℤ} (hx : x ≠ []) (hM : 1 ≤ magnitudeSum x) {j k : ℕ} (hne : power x j ≠ power x k) :
    1 ≤ |power x j - power x k| * ((magnitudeSum x : ℝ) ^ 2) ^ x.length := by
  have hpos : 0 < x.length := List.length_pos_iff.2 hx
  have hM' : (1 : ℝ) ≤ magnitudeSum x := by exact_mod_cast hM
  have hvalue := aeval_powerDifference_firstRoot hx j k
  have hbound (y : ℂ) (hy : y ^ x.length = 1) : ‖aeval y (powerDifference x j k)‖ ≤ (magnitudeSum x : ℝ) ^ 2 := by
    have hunit (i : ℕ) : ‖y ^ i‖ = 1 := by rw [norm_pow, Complex.norm_eq_one_of_pow_eq_one hy hpos.ne', one_pow]
    rw [aeval_powerDifference x hy, Complex.norm_real, Real.norm_eq_abs]
    exact abs_sub_le_of_nonneg_of_le (Complex.normSq_nonneg _) (normSq_aeval_listPoly_le x (hunit j))
      (Complex.normSq_nonneg _) (normSq_aeval_listPoly_le x (hunit k))
  have hgap := one_le_norm_aeval_mul_pow hpos (isPrimitiveRoot_firstRoot hpos).pow_eq_one (one_le_pow₀ hM') hbound
    (by rw [hvalue]; exact_mod_cast sub_ne_zero.2 hne)
  rwa [hvalue, Complex.norm_real, Real.norm_eq_abs] at hgap

/-- A precision that does not decide is below what the gap needs. -/
theorem two_pow_le_of_peakDecided_none {x : List ℤ} (hx : x ≠ []) (hM : 1 ≤ magnitudeSum x) {bits : ℕ} (hbits : 2 ≤ bits)
    (h : peakDecided x bits = none) : 2 ^ bits ≤ 64 * (magnitudeSum x ^ 2) ^ (x.length + 1) := by
  obtain ⟨j, hj, k, hk, hne⟩ := exists_candidates_of_peakDecided_none hx h
  have hnear : |power x j - power x k| * 2 ^ bits ≤ 64 * (magnitudeSum x : ℝ) ^ 2 := by
    obtain habs | habs := abs_cases (power x j - power x k)
    · rw [habs.1]
      exact candidate_near hbits (mem_candidates.1 hj).1 hk
    · rw [habs.1, neg_sub]
      exact candidate_near hbits (mem_candidates.1 hk).1 hj
  have hreal : (2 : ℝ) ^ bits ≤ 64 * ((magnitudeSum x : ℝ) ^ 2) ^ (x.length + 1) :=
    calc (2 : ℝ) ^ bits ≤ |power x j - power x k| * ((magnitudeSum x : ℝ) ^ 2) ^ x.length * 2 ^ bits :=
          le_mul_of_one_le_left (by positivity) (power_gap hx hM hne)
      _ = |power x j - power x k| * 2 ^ bits * ((magnitudeSum x : ℝ) ^ 2) ^ x.length := by ring
      _ ≤ 64 * (magnitudeSum x : ℝ) ^ 2 * ((magnitudeSum x : ℝ) ^ 2) ^ x.length := by gcongr
      _ = 64 * ((magnitudeSum x : ℝ) ^ 2) ^ (x.length + 1) := by ring
  exact_mod_cast hreal

/-- 2^45, the last precision tried, is above every window's need. -/
theorem peakSearch_ne_none {x : List ℤ} (hzeros : ¬ ∀ v ∈ x, v = 0) (hlen : x.length ≤ 2 ^ 28)
    (hsamples : ∀ v ∈ x, v.natAbs ≤ 2 ^ 15) : peakSearch x precisionFuel firstBits ≠ none := by
  intro h
  obtain ⟨bits, hbits⟩ : ∃ bits, bits = 2 ^ 39 * firstBits := ⟨_, rfl⟩
  have hnone : peakDecided x bits = none := hbits ▸ peakDecided_of_peakSearch_none h (by decide)
  have hlarge : 6 + 43 * 2 * (x.length + 1) < bits := by
    rw [firstBits] at hbits
    omega
  have hM : magnitudeSum x ≤ 2 ^ 43 :=
    (magnitudeSum_le hsamples).trans ((Nat.mul_le_mul_right _ hlen).trans_eq (by norm_num))
  have hneed := two_pow_le_of_peakDecided_none (ne_nil_of_not_zeros hzeros) (one_le_magnitudeSum hzeros) (by omega) hnone
  have hcontra : 2 ^ bits < 2 ^ bits :=
    calc 2 ^ bits ≤ 2 ^ 6 * ((2 ^ 43) ^ 2) ^ (x.length + 1) := hneed.trans (by gcongr; norm_num)
      _ = 2 ^ (6 + 43 * 2 * (x.length + 1)) := by rw [← pow_mul, ← pow_mul, ← pow_add, ← mul_assoc]
      _ < 2 ^ bits := Nat.pow_lt_pow_right (by norm_num) hlarge
  exact lt_irrefl _ hcontra

theorem power_of_zeros {x : List ℤ} (h : ∀ v ∈ x, v = 0) (k : ℕ) : power x k = 0 := by
  rw [power_eq_normSq, (listPoly_eq_zero_iff x).2 h, map_zero, map_zero]

/-- Settles O36: a window of zeros has no power in any bin, for any other the search ends. -/
theorem peakBinIsTheLeastStrongestBin : Obligations.PeakBinIsTheLeastStrongestBin := by
  intro x hx hlen hsamples
  by_cases hzeros : ∀ v ∈ x, v = 0
  · rw [peakBin_of_zeros hzeros]
    exact ⟨Nat.zero_le _, fun j _ => by simp only [power_of_zeros hzeros, le_refl], fun j hj => absurd hj (by omega)⟩
  · refine isPeakBin_peakBin_of_search hzeros (peakSearch_ne_none hzeros hlen fun v hv => ?_)
    have := hsamples v hv
    omega

theorem peakBin_le (x : List ℤ) : num.peakBin x ≤ x.length / 2 := by
  obtain rfl | hx := eq_or_ne x []
  · exact (peakBin_of_zeros (by simp)).le
  · obtain ⟨hle, -⟩ | h := isPeakBin_peakBin_or_zero hx
    · exact hle
    · rw [h]
      exact Nat.zero_le _

/-- Settles O39: one sample leaves only bin 0 in range. -/
theorem peakBinHasRangeZeroAndOne : Obligations.PeakBinHasRangeZeroAndOne :=
  ⟨peakBin_le, fun _ => peakBin_of_zeros, fun v => by simpa using peakBin_le [v]⟩

end Sys2Proof.Safety
end

section
/-! PROOFS. The named properties of PEAKBIN (spec/42_classifier.md R137): a factor scales every bracket alike, so that the
search takes the same way; and the powers of a constant window, of an impulse and of a tone. -/

namespace Sys2Proof.Safety

open Sys2Proof.Machine Polynomial

/-! ### P-scale -/

section
variable (m : ℤ) (x : List ℤ)

theorem correlateFrom_scale (table : Array ℤ) (k size n : ℕ) :
    correlateFrom table k size n (x.map (m * ·)) = m * correlateFrom table k size n x := by
  induction x generalizing n with
  | nil => simp [correlateFrom]
  | cons v vs ih =>
    rw [List.map_cons, correlateFrom, correlateFrom, ih]
    ring

theorem magnitudeSum_scale : magnitudeSum (x.map (m * ·)) = m.natAbs * magnitudeSum x := by
  induction x with
  | nil => rfl
  | cons v vs ih =>
    simp only [magnitudeSum, List.map_cons, List.sum_cons, Int.natAbs_mul] at ih ⊢
    rw [ih, mul_add]

theorem listPoly_scale : listPoly (x.map (m * ·)) = C m * listPoly x := by
  induction x with
  | nil => simp [listPoly]
  | cons v vs ih =>
    rw [List.map_cons, listPoly, listPoly, ih, C_mul]
    ring

theorem power_scale (k : ℕ) : power (x.map (m * ·)) k = (m : ℝ) ^ 2 * power x k := by
  rw [power_eq_normSq, power_eq_normSq, List.length_map, listPoly_scale, map_mul, map_mul, aeval_C]
  simp [Complex.normSq_apply, sq]

theorem bracketOf_scale (a k e c s : ℕ) : bracketOf k (a * e) (a * c) (a * s) =
    { bin := k, lo := a ^ 2 * (bracketOf k e c s).lo, hi := a ^ 2 * (bracketOf k e c s).hi } := by
  simp only [bracketOf, ← Nat.mul_sub, ← Nat.mul_add, Nat.mul_pow]

theorem powerBracket_scale (bits k : ℕ) : powerBracket bits (x.map (m * ·)) k =
    { bin := k, lo := m.natAbs ^ 2 * (powerBracket bits x k).lo, hi := m.natAbs ^ 2 * (powerBracket bits x k).hi } := by
  rw [powerBracket, List.length_map, correlateFrom_scale, correlateFrom_scale, magnitudeSum_scale, Int.natAbs_mul,
    Int.natAbs_mul, Nat.mul_left_comm, bracketOf_scale]
  rfl

variable {m} (hm : m ≠ 0)
include hm

theorem candidates_scale (bits : ℕ) :
    candidates (powerBrackets bits (x.map (m * ·))) = candidates (powerBrackets bits x) := by
  have hpos : 0 < m.natAbs ^ 2 := pow_pos (Int.natAbs_pos.2 hm) 2
  simp only [candidates_eq_filter, List.length_map, powerBracket_scale, Nat.mul_le_mul_left_iff hpos]

variable {x}

theorem samePower_scale (hx : x ≠ []) (j k : ℕ) :
    samePower (autocorrelation (x.map (m * ·))) j k = samePower (autocorrelation x) j k := by
  have hm2 : (m : ℝ) ^ 2 ≠ 0 := pow_ne_zero 2 (Int.cast_ne_zero.2 hm)
  rw [Bool.eq_iff_iff, samePowerIsExact x j k hx, samePowerIsExact _ j k (by simpa using hx), power_scale, power_scale,
    mul_right_inj' hm2]

theorem peakDecided_scale (hx : x ≠ []) (bits : ℕ) : peakDecided (x.map (m * ·)) bits = peakDecided x bits := by
  refine Option.ext fun k => ?_
  simp only [peakDecided_eq_some_iff, candidates_scale x hm, samePower_scale hm hx]

theorem peakSearch_scale (hx : x ≠ []) (fuel bits : ℕ) : peakSearch (x.map (m * ·)) fuel bits = peakSearch x fuel bits := by
  induction fuel generalizing bits with
  | zero => rfl
  | succ fuel ih => rw [peakSearch, peakSearch, peakDecided_scale hm hx, ih]

theorem peakBin_scale : num.peakBin (x.map (m * ·)) = num.peakBin x := by
  have hiff : (∀ v ∈ x.map (m * ·), v = 0) ↔ ∀ v ∈ x, v = 0 := by simp [hm]
  by_cases hzeros : ∀ v ∈ x, v = 0
  · rw [peakBin_of_zeros hzeros, peakBin_of_zeros (hiff.2 hzeros)]
  · rw [peakBin_of_not_zeros hzeros, peakBin_of_not_zeros (mt hiff.1 hzeros),
      peakSearch_scale hm (ne_nil_of_not_zeros hzeros)]

end

/-- A list of integers read as a list of reals, as Lean coerces it. -/
theorem coe_list_eq_map (x : List ℤ) : (do let v ← x; pure (v : ℝ)) = x.map ((↑) : ℤ → ℝ) :=
  List.map_eq_flatMap.symm

/-- A real factor is a quotient of two entries, so that both windows have a common multiple. -/
theorem peakBin_real_scale {x y : List ℤ} {c : ℝ} (hc : c ≠ 0)
    (h : y.map ((↑) : ℤ → ℝ) = (x.map ((↑) : ℤ → ℝ)).map (c * ·)) : num.peakBin y = num.peakBin x := by
  by_cases hzeros : ∀ u ∈ x, u = 0
  · have hyzeros : ∀ v ∈ y, v = 0 := fun v hv => by
      have hmem : (v : ℝ) ∈ (x.map ((↑) : ℤ → ℝ)).map (c * ·) := h ▸ List.mem_map_of_mem hv
      obtain ⟨u, hu, huv⟩ : ∃ u ∈ x, c * (u : ℝ) = v := by simpa using hmem
      rw [hzeros u hu, Int.cast_zero, mul_zero] at huv
      exact_mod_cast huv.symm
    rw [peakBin_of_zeros hzeros, peakBin_of_zeros hyzeros]
  · push Not at hzeros
    obtain ⟨u, hu, hu0⟩ := hzeros
    have hmem : c * (u : ℝ) ∈ y.map ((↑) : ℤ → ℝ) := h ▸ List.mem_map_of_mem (List.mem_map_of_mem hu)
    obtain ⟨v, -, hv⟩ := List.mem_map.1 hmem
    have hv0 : v ≠ 0 := by
      rintro rfl
      simp [hc, hu0] at hv
    have hscale (m : ℤ) (z : List ℤ) :
        (z.map (m * ·)).map ((↑) : ℤ → ℝ) = (z.map ((↑) : ℤ → ℝ)).map ((m : ℝ) * ·) := by simp
    have hcommon : y.map (u * ·) = x.map (v * ·) := by
      refine List.map_injective_iff.2 (Int.cast_injective (α := ℝ)) ?_
      rw [hscale, hscale, h, List.map_map, hv]
      refine List.map_congr_left fun n _ => ?_
      simp only [Function.comp_apply]
      ring
    rw [← peakBin_scale hu0, hcommon, peakBin_scale hv0]

/-- Settles O40: equal samples make equal windows, and a factor does not change the search. -/
theorem peakBinDependsOnTheWindowUpToScale : Obligations.PeakBinDependsOnTheWindowUpToScale := by
  refine ⟨fun b b' n w h => ?_, fun x y c hc h => peakBin_real_scale hc ?_⟩
  · have hwindow : b.window n w = b'.window n w :=
      List.map_congr_left fun j hj => congrArg BitVec.toInt (h j (List.mem_range.1 hj))
    rw [hwindow]
  · simpa only [coe_list_eq_map, List.map_id'] using h

/-! ### P-dc and P-impulse -/

/-- The powers of a root of unity other than 1 add up to 0. -/
theorem sum_firstRoot_pow_eq_zero {N e : ℕ} (hN : 0 < N) (he : ¬ N ∣ e) :
    ∑ n ∈ Finset.range N, (firstRoot N ^ e) ^ n = 0 := by
  have hroot := isPrimitiveRoot_firstRoot hN
  have hne : firstRoot N ^ e - 1 ≠ 0 := sub_ne_zero.2 (mt (hroot.pow_eq_one_iff_dvd e).1 he)
  have hgeom := mul_geom_sum (firstRoot N ^ e) N
  rw [pow_right_comm, hroot.pow_eq_one, one_pow, sub_self] at hgeom
  exact (mul_eq_zero.1 hgeom).resolve_left hne

theorem aeval_listPoly_replicate (y : ℂ) (size : ℕ) (v : ℤ) :
    aeval y (listPoly (List.replicate size v)) = v * ∑ n ∈ Finset.range size, y ^ n := by
  rw [aeval_listPoly, List.length_replicate, Finset.mul_sum]
  refine Finset.sum_congr rfl fun n hn => ?_
  rw [List.getD_eq_getElem _ _ (by simpa using hn), List.getElem_replicate]

theorem power_replicate_zero (size : ℕ) (v : ℤ) : power (List.replicate size v) 0 = (size * v : ℝ) ^ 2 := by
  rw [power_eq_normSq, pow_zero, aeval_listPoly_replicate]
  simp only [one_pow, Finset.sum_const, Finset.card_range, nsmul_eq_mul, mul_one, map_mul, Complex.normSq_intCast,
    Complex.normSq_natCast]
  ring

theorem power_replicate_pos {size k : ℕ} (hk : 0 < k) (hle : k ≤ size / 2) (v : ℤ) :
    power (List.replicate size v) k = 0 := by
  have hsum := sum_firstRoot_pow_eq_zero (N := size) (by omega) (Nat.not_dvd_of_pos_of_lt hk (by omega))
  rw [power_eq_normSq, List.length_replicate, aeval_listPoly_replicate, hsum, mul_zero, map_zero]

theorem listPoly_impulse (before after : ℕ) (v : ℤ) :
    listPoly (List.replicate before 0 ++ v :: List.replicate after 0) = C v * X ^ before := by
  induction before with
  | zero =>
    have htail : listPoly (List.replicate after 0) = 0 :=
      (listPoly_eq_zero_iff _).2 fun u hu => List.eq_of_mem_replicate hu
    simp [listPoly, htail]
  | succ before ih =>
    rw [List.replicate_succ, List.cons_append, listPoly, ih, C_0, zero_add, pow_succ]
    ring

theorem power_impulse (before after : ℕ) (v : ℤ) (k : ℕ) :
    power (List.replicate before 0 ++ v :: List.replicate after 0) k = (v : ℝ) ^ 2 := by
  rw [power_eq_normSq, listPoly_impulse, Complex.normSq_eq_norm_sq, map_mul, map_pow, aeval_C, aeval_X, norm_mul,
    norm_pow _ before, norm_firstRoot_pow, one_pow, mul_one, eq_intCast, Complex.norm_intCast, sq_abs]

/-- A window whose bin 0 no other bin exceeds has peak bin 0, also where the search does not end. -/
theorem peakBin_eq_zero_of_power_le {x : List ℤ} (h : ∀ k ≤ x.length / 2, power x k ≤ power x 0) : num.peakBin x = 0 := by
  obtain rfl | hx := eq_or_ne x []
  · exact peakBin_of_zeros (by simp)
  · have hzero : IsPeakBin x 0 := ⟨Nat.zero_le _, h, fun j hj => absurd hj (Nat.not_lt_zero j)⟩
    obtain hpeak | hpeak := isPeakBin_peakBin_or_zero hx
    · exact isPeakBin_unique hpeak hzero
    · exact hpeak

/-! ### P-tone -/

/-- The sine of a whole number of cycles per window, by roots of unity. -/
theorem two_mul_sin_eq {N j : ℕ} (hN : 0 < N) (hj : j ≤ N) (n : ℕ) : 2 * (Real.sin (2 * Real.pi * j * n / N) : ℂ) =
    (firstRoot N ^ ((N - j) * n) - firstRoot N ^ (j * n)) * Complex.I := by
  have hcycle : firstRoot N ^ ((N - j) * n) * firstRoot N ^ (j * n) = 1 := by
    rw [← pow_add, ← add_mul, Nat.sub_add_cancel hj, pow_mul, (isPrimitiveRoot_firstRoot hN).pow_eq_one, one_pow]
  rw [eq_inv_of_mul_eq_one_left hcycle, firstRoot_pow, ← Complex.exp_neg, ← neg_mul, Complex.ofReal_sin, Complex.two_sin]
  push_cast
  ring_nf

section
variable {x : List ℤ} {a : ℝ} {j : ℕ} (hj : 0 < j) (hj2 : 2 * j < x.length)
  (htone : ∀ n < x.length, (x.getD n 0 : ℝ) = a * Real.sin (2 * Real.pi * j * n / x.length))
include htone

theorem magnitudeSum_tone_le : (magnitudeSum x : ℝ) ≤ |a| * x.length := by
  rw [magnitudeSum_eq_sum, mul_comm, ← nsmul_eq_mul]
  refine (Finset.sum_le_card_nsmul _ _ |a| fun n hn => ?_).trans_eq (by rw [Finset.card_range])
  rw [htone n (Finset.mem_range.1 hn), abs_mul]
  exact mul_le_of_le_one_right (abs_nonneg a) (Real.abs_sin_le_one _)

include hj2

theorem two_mul_aeval_tone (k : ℕ) : 2 * aeval (firstRoot x.length ^ k) (listPoly x) =
    a * Complex.I * (∑ n ∈ Finset.range x.length, (firstRoot x.length ^ (x.length - j + k)) ^ n -
      ∑ n ∈ Finset.range x.length, (firstRoot x.length ^ (j + k)) ^ n) := by
  rw [aeval_listPoly, Finset.mul_sum, ← Finset.sum_sub_distrib, Finset.mul_sum]
  refine Finset.sum_congr rfl fun n hn => ?_
  have hsample : (x.getD n 0 : ℂ) = a * Real.sin (2 * Real.pi * j * n / x.length) := by
    exact_mod_cast congrArg Complex.ofReal (htone n (Finset.mem_range.1 hn))
  have hsin := two_mul_sin_eq (j := j) (by omega : 0 < x.length) (by omega) n
  rw [hsample, ← pow_mul, ← pow_mul, ← pow_mul, add_mul, add_mul, pow_add, pow_add]
  linear_combination a * firstRoot x.length ^ (k * n) * hsin

include hj

theorem power_tone_self : power x j = (a * x.length / 2) ^ 2 := by
  have hvalue := two_mul_aeval_tone hj2 htone j
  have hturn : firstRoot x.length ^ (x.length - j + j) = 1 := by
    rw [Nat.sub_add_cancel (by omega), (isPrimitiveRoot_firstRoot (by omega)).pow_eq_one]
  rw [hturn, sum_firstRoot_pow_eq_zero (by omega) (Nat.not_dvd_of_pos_of_lt (by omega) (by omega)), sub_zero] at hvalue
  have hnorm := congrArg Complex.normSq hvalue
  rw [map_mul, ← power_eq_normSq] at hnorm
  simp only [one_pow, Finset.sum_const, Finset.card_range, nsmul_eq_mul, mul_one, map_mul, Complex.normSq_ofReal,
    Complex.normSq_I, Complex.normSq_natCast, Complex.normSq_ofNat] at hnorm
  linarith

theorem power_tone_other {k : ℕ} (hk : k ≤ x.length / 2) (hne : k ≠ j) : power x k = 0 := by
  have hvalue := two_mul_aeval_tone hj2 htone k
  have hback : ¬ x.length ∣ x.length - j + k := fun ⟨q, hq⟩ => by
    obtain rfl | rfl | hq2 : q = 0 ∨ q = 1 ∨ 2 ≤ q := by omega
    · omega
    · omega
    · have := Nat.mul_le_mul_left x.length hq2
      omega
  rw [sum_firstRoot_pow_eq_zero (by omega) hback,
    sum_firstRoot_pow_eq_zero (by omega) (Nat.not_dvd_of_pos_of_lt (by omega) (by omega)), sub_zero, mul_zero,
    mul_eq_zero, or_iff_right two_ne_zero] at hvalue
  rw [power_eq_normSq, hvalue, map_zero]

theorem power_tone_pos (ha : a ≠ 0) : 0 < power x j := by
  have hlen : (0 : ℝ) < x.length := by exact_mod_cast (by omega : 0 < x.length)
  rw [power_tone_self hj hj2 htone]
  positivity

/-- At the first precision the tone's bin is the only candidate. -/
theorem eq_of_candidate_tone (ha : a ≠ 0) {k : ℕ} (hk : k ∈ candidates (powerBrackets firstBits x)) : k = j := by
  by_contra hne
  have hpos := power_tone_pos hj hj2 htone ha
  have hnear := candidate_near (j := j) (by decide : 2 ≤ firstBits) (by omega) hk
  have hM := pow_le_pow_left₀ (Nat.cast_nonneg _) (magnitudeSum_tone_le htone) 2
  rw [mul_pow, sq_abs] at hM
  rw [power_tone_other hj hj2 htone (mem_candidates.1 hk).1 hne, sub_zero, firstBits] at hnear
  nlinarith [power_tone_self hj hj2 htone]

theorem peakBin_tone (ha : a ≠ 0) : num.peakBin x = j := by
  have hpos := power_tone_pos hj hj2 htone ha
  have hother {k : ℕ} (hk : k ≤ x.length / 2) (hne : k ≠ j) : power x k < power x j :=
    (power_tone_other hj hj2 htone hk hne).trans_lt hpos
  have hpeak : IsPeakBin x j := by
    refine ⟨by omega, fun k hk => ?_, fun k hk => hother (by omega) hk.ne⟩
    obtain rfl | hne := eq_or_ne k j
    · exact le_rfl
    · exact (hother hk hne).le
  have hzeros : ¬ ∀ v ∈ x, v = 0 := fun h => hpos.ne' (power_of_zeros h j)
  refine isPeakBin_unique (isPeakBin_peakBin_of_search hzeros fun hnone => ?_) hpeak
  obtain ⟨i, hi, k, hk, hne⟩ := exists_candidates_of_peakDecided_none (ne_nil_of_not_zeros hzeros)
    (peakDecided_of_peakSearch_none hnone (i := 0) (by decide))
  rw [pow_zero, one_mul] at hi hk
  rw [eq_of_candidate_tone hj hj2 htone ha hi, eq_of_candidate_tone hj hj2 htone ha hk] at hne
  exact hne rfl

end

/-- Settles O41: the window's polynomial at the roots of unity is a geometric sum for a constant, a power for an impulse,
and a difference of two geometric sums for a tone. -/
theorem peakBinOfConstantImpulseAndTone : Obligations.PeakBinOfConstantImpulseAndTone := by
  refine ⟨fun size v => ⟨power_replicate_zero size v, fun k hk hle => power_replicate_pos hk hle v, ?_⟩,
    fun before after v _ => ⟨power_impulse before after v, ?_⟩, fun x a j ha hj hj2 htone =>
      ⟨power_tone_self hj hj2 htone, fun k hk hne => power_tone_other hj hj2 htone hk hne,
        peakBin_tone hj hj2 htone ha⟩⟩
  · refine peakBin_eq_zero_of_power_le fun k hk => ?_
    obtain rfl | hpos := Nat.eq_zero_or_pos k
    · exact le_rfl
    · rw [List.length_replicate] at hk
      rw [power_replicate_pos hpos hk, power_replicate_zero]
      positivity
  · exact peakBin_eq_zero_of_power_le fun k _ => by rw [power_impulse, power_impulse]

end Sys2Proof.Safety
end

section
/-! PROOFS. The decision on a peak bin (spec/42_classifier.md R138 to R140, R143): the integer comparison as the comparison
of frequencies in Hz, as a threshold on the peak bin, and under an exchange of the tones. -/

namespace Sys2Proof.Safety

open Sys2Proof.Machine

/-- |k * FS_C - N * F| of R139: how far the peak of a window of n samples is from the tone of frequency register f. -/
def toneDistance (nm : Config.Num) (b : Block) (n : ℕ) (x : List ℤ) (f : ℕ) : ℤ :=
  |(nm.peakBin x * b.fsC.toNat : ℤ) - n * f|

theorem classify_eq_ofBool (nm : Config.Num) (b : Block) (n : ℕ) (x : List ℤ) : b.classify nm n x = BitVec.ofBool
    (decide (toneDistance nm b n x b.markC.toNat < toneDistance nm b n x b.spaceC.toNat)) := by
  refine congrArg BitVec.ofBool (decide_eq_decide.2 ?_)
  rw [toneDistance, toneDistance, Int.abs_eq_natAbs, Int.abs_eq_natAbs, Nat.cast_lt]
  simp only [Nat.cast_mul]

theorem classify_eq_one_iff {nm : Config.Num} {b : Block} {n : ℕ} {x : List ℤ} : b.classify nm n x = 1#1 ↔
    toneDistance nm b n x b.markC.toNat < toneDistance nm b n x b.spaceC.toNat := by
  have hbool (c : Bool) : BitVec.ofBool c = 1#1 ↔ c = true := by cases c <;> decide
  rw [classify_eq_ofBool, hbool, decide_eq_true_iff]

theorem classify_eq_zero_iff {nm : Config.Num} {b : Block} {n : ℕ} {x : List ℤ} : b.classify nm n x = 0#1 ↔
    ¬ toneDistance nm b n x b.markC.toNat < toneDistance nm b n x b.spaceC.toNat := by
  have hbool (c : Bool) : BitVec.ofBool c = 0#1 ↔ ¬ c = true := by cases c <;> decide
  rw [classify_eq_ofBool, hbool, decide_eq_true_iff]

/-! ### In Hz (R138) -/

theorem hertz_distance (nm : Config.Num) (b : Block) {n : ℕ} (hn : 0 < n) (x : List ℤ) (f : ℕ) :
    |(nm.peakBin x * (b.fsC.toNat / 100) / n : ℚ) - f / 100| = toneDistance nm b n x f / (100 * n) := by
  have hn' : (0 : ℚ) < n := by exact_mod_cast hn
  have hscale : (nm.peakBin x * (b.fsC.toNat / 100) / n : ℚ) - f / 100 =
      ((nm.peakBin x * b.fsC.toNat - n * f : ℤ) : ℚ) / (100 * n) := by
    push_cast
    field_simp
  rw [hscale, abs_div, abs_of_pos (by positivity : (0 : ℚ) < 100 * n), toneDistance, Int.cast_abs]

/-- Settles O42: both distances in Hz are those of the integer comparison divided by 100 * N. -/
theorem bitIsTheNearerTone : Obligations.BitIsTheNearerTone := by
  intro b n x hn fk fmark fspace
  have hiff : |fk - fmark| < |fk - fspace| ↔
      toneDistance num b n x b.markC.toNat < toneDistance num b n x b.spaceC.toNat := by
    have hpos : (0 : ℚ) < 100 * n := by positivity
    simp only [fk, fmark, fspace, hertz_distance num b hn, div_lt_div_iff_of_pos_right hpos, Int.cast_lt]
  rw [hiff]
  exact ⟨classify_eq_one_iff.2, classify_eq_zero_iff.2⟩

/-! ### As a threshold (R139) -/

/-- Of two points the lower is the nearer one below their middle. -/
theorem abs_sub_lt_abs_sub_iff {p q : ℤ} (hpq : p < q) (y : ℤ) : |y - p| < |y - q| ↔ 2 * y < p + q := by
  obtain hp | hp := abs_cases (y - p)
  · obtain hq | hq := abs_cases (y - q) <;> omega
  · obtain hq | hq := abs_cases (y - q) <;> omega

section
variable {nm : Config.Num} {b : Block} {n : ℕ} {x : List ℤ}

theorem classify_of_mark_lt (hn : 0 < n) (h : b.markC.toNat < b.spaceC.toNat) : b.classify nm n x = 1#1 ↔
    2 * nm.peakBin x * b.fsC.toNat < n * (b.markC.toNat + b.spaceC.toNat) := by
  have hlt : (n * b.markC.toNat : ℤ) < n * b.spaceC.toNat := by exact_mod_cast Nat.mul_lt_mul_of_pos_left h hn
  rw [classify_eq_one_iff, toneDistance, toneDistance, abs_sub_lt_abs_sub_iff hlt, ← mul_assoc, ← mul_add]
  norm_cast

theorem classify_of_space_lt (hn : 0 < n) (h : b.spaceC.toNat < b.markC.toNat) : b.classify nm n x = 1#1 ↔
    n * (b.markC.toNat + b.spaceC.toNat) < 2 * nm.peakBin x * b.fsC.toNat := by
  have hlt : (-(n * b.markC.toNat) : ℤ) < -(n * b.spaceC.toNat) :=
    neg_lt_neg (by exact_mod_cast Nat.mul_lt_mul_of_pos_left h hn)
  have hmirror := abs_sub_lt_abs_sub_iff hlt (-(nm.peakBin x * b.fsC.toNat))
  rw [neg_sub_neg, neg_sub_neg, abs_sub_comm, abs_sub_comm (n * b.spaceC.toNat : ℤ)] at hmirror
  rw [classify_eq_one_iff, toneDistance, toneDistance, hmirror, mul_neg, ← neg_add, neg_lt_neg_iff, ← mul_assoc, ← mul_add]
  norm_cast

theorem classify_of_mark_eq_space (h : b.markC.toNat = b.spaceC.toNat) : b.classify nm n x = 0#1 := by
  rw [classify_eq_zero_iff, h]
  exact lt_irrefl _

end

/-- Settles O43: the middle of the two tones separates them. -/
theorem bitIsAThresholdOnThePeakBin : Obligations.BitIsAThresholdOnThePeakBin := by
  refine ⟨fun b n x hn => ⟨classify_of_mark_lt hn, classify_of_space_lt hn, classify_of_mark_eq_space⟩, fun inst e x => ?_⟩
  have hmark : (Block.afterReset inst e).markC.toNat = 212500 := rfl
  have hspace : (Block.afterReset inst e).spaceC.toNat = 229500 := rfl
  have hfs : (Block.afterReset inst e).fsC.toNat = 4410000 := rfl
  rw [classify_of_mark_lt (by omega) (by omega), hmark, hspace, hfs]
  omega

/-! ### Silence (R140) -/

/-- Settles O44: the peak bin of zeros is 0, below the middle of the tones. -/
theorem zeroWindowReadsMarkIffMarkIsLower : Obligations.ZeroWindowReadsMarkIffMarkIsLower := by
  intro b n hn
  have hpeak : num.peakBin (List.replicate n 0) = 0 := peakBin_of_zeros fun v => List.eq_of_mem_replicate
  obtain hlt | heq | hgt := Nat.lt_trichotomy b.markC.toNat b.spaceC.toNat
  · rw [classify_of_mark_lt hn hlt, hpeak]
    exact iff_of_true (by simpa using Nat.mul_pos hn (by omega : 0 < b.markC.toNat + b.spaceC.toNat)) hlt
  · rw [classify_of_mark_eq_space heq]
    exact iff_of_false (by decide) (by omega)
  · rw [classify_of_space_lt hn hgt, hpeak]
    exact iff_of_false (by simp) (by omega)

/-! ### Exchanging the tones (R143) -/

/-- Settles O45: the exchange turns the comparison around. -/
theorem swappingTonesComplementsTheBit : Obligations.SwappingTonesComplementsTheBit := by
  intro b n x b' k
  have hbit : b.classify num n x = BitVec.ofBool (decide (|k - n * b.markC.toNat| < |k - n * b.spaceC.toNat|)) :=
    classify_eq_ofBool num b n x
  have hbit' : b'.classify num n x = BitVec.ofBool (decide (|k - n * b.spaceC.toNat| < |k - n * b.markC.toNat|)) :=
    classify_eq_ofBool num b' n x
  rw [hbit, hbit']
  refine ⟨fun hne => ?_, fun heq => ?_⟩
  · obtain hlt | hgt := lt_or_gt_of_ne hne
    · rw [decide_eq_true hlt, decide_eq_false hlt.not_gt]
      decide
    · rw [decide_eq_true hgt, decide_eq_false hgt.not_gt]
      decide
  · rw [heq, decide_eq_false (lt_irrefl _)]
    exact ⟨rfl, rfl⟩

end Sys2Proof.Safety
end

section
/-! PROOFS. The windowed frequency classifier (spec/42_classifier.md R142): when CLS fails and with which error, the flags
it raises from a cleared STATUS, and the block it leaves when it succeeds. -/

namespace Sys2Proof.Safety

open Sys2Proof.Machine

theorem exec_cls (s : State) : exec .cls s = .next (answered s (runCommandStages [clsStage num] s.block)) := rfl

theorem exec_cls_fail {s : State} {e : ErrorCode} {info : Nat}
    (h : clsStage num s.block.clearStatus = s.block.clearStatus.fail e info) :
    exec .cls s = .next (answered s (withStatus s.block (errorWord e) (BitVec.ofNat 32 info))) := by
  rw [exec_cls, runCommandStages_one_fail h]

/-! ### When CLS fails -/

section
variable {nm : Config.Num} {b : Block}

theorem clsStage_config (h : b.spb = 0) : clsStage nm b = b.fail .config 0 := by
  obtain ⟨-, heq⟩ | ⟨hspb, -⟩ | ⟨hspb, -⟩ | ⟨hspb, -⟩ := clsStage_cases nm b
  · exact heq
  · exact absurd h hspb
  · exact absurd h hspb
  · exact absurd h hspb

theorem clsStage_sampleCapacity (hspb : b.spb ≠ 0) (h : b.inst.sampCap < b.smpLen.toNat) :
    clsStage nm b = b.fail .capacity 3 := by
  obtain ⟨h0, -⟩ | ⟨-, -, heq⟩ | ⟨-, hle, -⟩ | ⟨-, hle, -⟩ := clsStage_cases nm b
  · exact absurd h0 hspb
  · exact heq
  · omega
  · omega

theorem clsStage_bitCapacity (hspb : b.spb ≠ 0) (hlen : b.smpLen.toNat ≤ b.inst.sampCap)
    (h : b.inst.bitCap < b.smpLen.toNat / b.spb) : clsStage nm b = b.fail .capacity 2 := by
  obtain ⟨h0, -⟩ | ⟨-, hlt, -⟩ | ⟨-, -, -, heq⟩ | ⟨-, -, hle, -⟩ := clsStage_cases nm b
  · exact absurd h0 hspb
  · omega
  · exact heq
  · omega

theorem clsStage_misalign (hspb : b.spb ≠ 0) (hlen : b.smpLen.toNat ≤ b.inst.sampCap)
    (hcap : b.smpLen.toNat / b.spb ≤ b.inst.bitCap) (hstrict : b.strict = true) {w : Nat}
    (hw : (b.windows b.spb (b.smpLen.toNat / b.spb)).findIdx? ambiguous = some w) :
    clsStage nm b = (b.clsFlags (some w)).fail .misalign w := by
  obtain ⟨h, -⟩ | ⟨-, h, -⟩ | ⟨-, -, h, -⟩ | ⟨-, -, -, _, rfl, ⟨-, w', hw', heq⟩ | ⟨hok, -⟩⟩ := clsStage_cases nm b
  · exact absurd h hspb
  · omega
  · omega
  · obtain rfl := Option.some.inj (hw.symm.trans hw')
    rw [heq, hw]
  · simp [hstrict, hw] at hok

end

/-! ### The first all-zero window (R140) -/

theorem ambiguous_window_iff (b : Block) (n w : Nat) : ambiguous (b.window n w) = true ↔ SilentWindow b n w := by
  have hzero (v : Sample) : v.toInt = 0 ↔ v = 0#16 := BitVec.toInt_inj (y := 0#16)
  simp [ambiguous_iff, Block.window, hzero]

theorem firstAmbiguous_eq_some {b : Block} {n count w : Nat} (hw : w < count) (hsilent : SilentWindow b n w)
    (hfirst : ∀ v < w, ¬ SilentWindow b n v) : (b.windows n count).findIdx? ambiguous = some w :=
  (findIdx?_map_range_some _ _ _ _).2 ⟨hw, (ambiguous_window_iff b n w).2 hsilent, fun v hv =>
    Bool.eq_false_iff.2 (mt (ambiguous_window_iff b n v).1 (hfirst v hv))⟩

theorem firstAmbiguous_eq_none_iff (b : Block) (n count : Nat) :
    (b.windows n count).findIdx? ambiguous = none ↔ ∀ w < count, ¬ SilentWindow b n w := by
  simp only [Block.windows, findIdx?_map_range_none, Bool.eq_false_iff, ne_eq, ambiguous_window_iff]

/-! ### The flags (R142) -/

/-- Raising a flag sets its bit if its condition holds. -/
theorem raiseFlag_status_flagIf (b : Block) (mask : Word) {c : Bool} {p : Prop} [Decidable p] (h : c = true ↔ p) :
    (b.raiseFlag mask c).status = b.status ||| flagIf mask p := by
  rw [Block.raiseFlag_status, if_congr h rfl rfl, flagIf]
  split
  · rfl
  · rw [BitVec.or_zero]

/-- The flags that CLS raises on the block's samples. -/
def clsFlagWord (b : Block) : Word :=
  flagIf maskTrailSmp (b.smpLen.toNat % b.spb ≠ 0) |||
    flagIf maskAmbig (∃ w < b.smpLen.toNat / b.spb, SilentWindow b b.spb w)

theorem clsFlags_clearStatus (b : Block) :
    b.clearStatus.clsFlags ((b.windows b.spb (b.smpLen.toNat / b.spb)).findIdx? ambiguous) =
      withStatus b (clsFlagWord b) 0#32 := by
  have hambig : ((b.windows b.spb (b.smpLen.toNat / b.spb)).findIdx? ambiguous).isSome = true ↔
      ∃ w < b.smpLen.toNat / b.spb, SilentWindow b b.spb w := by
    rw [← Option.ne_none_iff_isSome, ne_eq, firstAmbiguous_eq_none_iff]
    push Not
    rfl
  have hstatus : (b.clearStatus.clsFlags ((b.windows b.spb (b.smpLen.toNat / b.spb)).findIdx? ambiguous)).status =
      clsFlagWord b := by
    rw [Block.clsFlags, raiseFlag_status_flagIf _ _ hambig, raiseFlag_status_flagIf _ _ bne_iff_ne,
      Block.clearStatus_status, BitVec.zero_or]
    rfl
  rw [← hstatus]
  rfl

/-- The flags are outside ECODE. -/
theorem clsFlagWord_ecode (b : Block) : clsFlagWord b &&& maskEcode = 0#32 := by
  unfold clsFlagWord flagIf
  split <;> split <;> decide

theorem setDone_fail_withStatus {b : Block} {flags : Word} (h : flags &&& maskEcode = 0#32) (e : ErrorCode) (info : Nat) :
    ((withStatus b flags 0#32).fail e info).setDone = withStatus b (errorWord e ||| flags) (BitVec.ofNat 32 info) := by
  rw [BitVec.or_comm, ← statusWithError_of_flags e h]
  rfl

theorem setDone_storeBits_withStatus (b : Block) (flags : Word) (bits : List Bit) :
    ((withStatus b flags 0#32).storeBits bits).setDone = (withStatus b (0x01#32 ||| flags) 0#32).storeBits bits := by
  rw [BitVec.or_comm]
  rfl

/-! ### The bits (R139) -/

/-- The bits that CLS stores for the block's samples. -/
def classifiedBits (nm : Config.Num) (b : Block) : List Bit :=
  (b.windows b.spb (b.smpLen.toNat / b.spb)).map (b.classify nm b.spb)

theorem length_classifiedBits (nm : Config.Num) (b : Block) :
    (classifiedBits nm b).length = b.smpLen.toNat / b.spb := by simp [classifiedBits, Block.windows]

theorem getElem?_classifiedBits (nm : Config.Num) (b : Block) {w : Nat} (hw : w < b.smpLen.toNat / b.spb) :
    (classifiedBits nm b)[w]? = some (b.classify nm b.spb (b.window b.spb w)) := by
  simp [classifiedBits, Block.windows, hw]

/-! ### The obligation -/

/-- What a CLS that succeeds leaves: the flags with DONE, and the bits. -/
theorem runCommandStages_cls_success {b : Block} (hspb : b.spb ≠ 0) (hlen : b.smpLen.toNat ≤ b.inst.sampCap)
    (hcap : b.smpLen.toNat / b.spb ≤ b.inst.bitCap)
    (hok : b.strict = false ∨ ∀ w < b.smpLen.toNat / b.spb, ¬ SilentWindow b b.spb w) :
    runCommandStages [clsStage num] b = (withStatus b (0x01#32 ||| clsFlagWord b) 0#32).storeBits (classifiedBits num b) := by
  have hstage := clsStage_success (nm := num) (b := b.clearStatus) hspb hlen hcap rfl
    (hok.imp_right (firstAmbiguous_eq_none_iff b _ _).2)
  rw [runCommandStages_one, hstage, ← setDone_storeBits_withStatus, ← clsFlags_clearStatus]
  rfl

/-- What a strict CLS that finds an all-zero window leaves: the flags with the error. -/
theorem exec_cls_misalign {s : State} (hspb : s.block.spb ≠ 0) (hlen : s.block.smpLen.toNat ≤ s.block.inst.sampCap)
    (hcap : s.block.smpLen.toNat / s.block.spb ≤ s.block.inst.bitCap) (hstrict : s.block.strict = true) {w : Nat}
    (hw : (s.block.windows s.block.spb (s.block.smpLen.toNat / s.block.spb)).findIdx? ambiguous = some w) :
    exec .cls s = .next (answered s
      (withStatus s.block (errorWord .misalign ||| clsFlagWord s.block) (BitVec.ofNat 32 w))) := by
  have hstage := clsStage_misalign (nm := num) (b := s.block.clearStatus) hspb hlen hcap hstrict hw
  rw [exec_cls, runCommandStages_one, hstage, ← hw, clsFlags_clearStatus, setDone_fail_withStatus (clsFlagWord_ecode _)]

/-- Settles O46: CLS's stage by its five outcomes, the entries of BITBUF by the comparison on the windows' peak bins. -/
theorem clsClassifiesWindowsOrFailsWhole : Obligations.ClsClassifiesWindowsOrFailsWhole := by
  intro s b n len count strict flags
  refine ⟨fun h => exec_cls_fail (clsStage_config h), fun hspb h => exec_cls_fail (clsStage_sampleCapacity hspb h),
    fun hspb hlen h => exec_cls_fail (clsStage_bitCapacity hspb hlen h), fun hspb hlen hcap hstrict w hw hsilent hfirst =>
      exec_cls_misalign hspb hlen hcap hstrict (firstAmbiguous_eq_some hw hsilent hfirst), fun hspb hlen hcap hok => ?_⟩
  have hlength : (classifiedBits num b).length = count := length_classifiedBits num b
  refine ⟨Memory.writeFirst b.bitBuf (classifiedBits num b), ?_, fun w hw => ?_, fun k hk => ?_⟩
  · rw [exec_cls, runCommandStages_cls_success hspb hlen hcap hok, Block.storeBits, hlength]
    rfl
  · have hbit := storeBits_bitAt_of_getElem? b (getElem?_classifiedBits num b hw)
    exact ⟨fun h => hbit.trans (classify_eq_one_iff.2 h), fun h => hbit.trans (classify_eq_zero_iff.2 h)⟩
  · exact storeBits_bitAt_of_length_le b (hlength.trans_le hk)

end Sys2Proof.Safety
end

section
/-! PROOFS. The bit-frame decoder (spec/43_frame_decoder.md R152 to R155): which framing bit is wrong first, when DFR fails
and with which error, the flags it raises from a cleared STATUS, and the text it stores when it succeeds. -/

namespace Sys2Proof.Safety

open Sys2Proof.Machine

theorem exec_dfr (s : State) : exec .dfr s = .next (answered s (runCommandStages [dfrStage] s.block)) := rfl

theorem exec_dfr_fail {s : State} {e : ErrorCode} {info : Nat}
    (h : dfrStage s.block.clearStatus = s.block.clearStatus.fail e info) :
    exec .dfr s = .next (answered s (withStatus s.block (errorWord e) (BitVec.ofNat 32 info))) := by
  rw [exec_dfr, runCommandStages_one_fail h]

/-- A block without an error is not one that a failed stage leaves (R199). -/
theorem ne_fail_of_ok {b : Block} (h : b.err = false) (c : Block) (e : ErrorCode) (info : Nat) : b ≠ c.fail e info := by
  rintro rfl
  rw [Block.fail_err] at h
  cases h

/-! ### The framing bits (R152) -/

theorem badStart_group (b : Block) (g : Nat) : badStart (b.group g) = true ↔ b.bitAt (9 * g) ≠ 0#1 := by
  simp [badStart, Block.group]

theorem badStop_group (b : Block) (g : Nat) : badStop (b.group g) = true ↔ b.bitAt (9 * g + 8) ≠ 1#1 := by
  simp [badStop, Block.group]

/-- The first of n groups with a property, when a group is known to have it. -/
theorem exists_findIdx?_groups_le {b : Block} {n g : Nat} {p : List Bit → Bool} (hg : g < n) (hp : p (b.group g) = true) :
    ∃ k ≤ g, (b.groups n).findIdx? p = some k := by
  cases hk : (b.groups n).findIdx? p with
  | none => exact absurd ((findIdx?_map_range_none _ _ _).1 hk g hg) (by simp [hp])
  | some k =>
    obtain ⟨-, -, hfirst⟩ := (findIdx?_map_range_some _ _ _ _).1 hk
    exact ⟨k, Nat.le_of_not_lt fun hlt => absurd (hfirst g hlt) (by simp [hp]), rfl⟩

/-- The BITBUF index that FRAMING reports among the first n groups, if one of their framing bits is wrong (R154). -/
def firstWrongFramingBit (b : Block) (n : Nat) : Option Nat := firstFramingFault (b.firstBadStart n) (b.firstBadStop n)

theorem firstFramingFault_eq_some {sb pb : Option Nat} {k : Nat} (h : firstFramingFault sb pb = some k) :
    (∃ g, sb = some g ∧ k = 9 * g) ∨ ∃ g, pb = some g ∧ k = 9 * g + 8 := by
  cases sb with
  | none =>
    cases pb with
    | none => cases h
    | some pb =>
      cases h
      exact .inr ⟨pb, rfl, rfl⟩
  | some sb =>
    cases pb with
    | none =>
      cases h
      exact .inl ⟨sb, rfl, rfl⟩
    | some pb =>
      cases h
      exact (min_choice _ _).imp (fun hmin => ⟨sb, rfl, hmin⟩) fun hmin => ⟨pb, rfl, hmin⟩

theorem wrongFramingBit_of_first {b : Block} {n k : Nat} (h : firstWrongFramingBit b n = some k) :
    WrongFramingBit b n k := by
  obtain ⟨g, hg, rfl⟩ | ⟨g, hg, rfl⟩ := firstFramingFault_eq_some h
  · obtain ⟨hlt, hbad, -⟩ := (findIdx?_map_range_some _ _ _ _).1 hg
    exact ⟨g, hlt, .inl ⟨rfl, (badStart_group b g).1 hbad⟩⟩
  · obtain ⟨hlt, hbad, -⟩ := (findIdx?_map_range_some _ _ _ _).1 hg
    exact ⟨g, hlt, .inr ⟨rfl, (badStop_group b g).1 hbad⟩⟩

theorem firstWrongFramingBit_le {b : Block} {n j : Nat} (h : WrongFramingBit b n j) :
    ∃ k ≤ j, firstWrongFramingBit b n = some k := by
  obtain ⟨g, hg, ⟨rfl, hbad⟩ | ⟨rfl, hbad⟩⟩ := h
  · obtain ⟨sb, hle, hsb⟩ := exists_findIdx?_groups_le hg ((badStart_group b g).2 hbad)
    rw [firstWrongFramingBit, Block.firstBadStart, hsb]
    cases b.firstBadStop n with
    | none => exact ⟨_, Nat.mul_le_mul_left 9 hle, rfl⟩
    | some pb => exact ⟨_, (min_le_left _ _).trans (Nat.mul_le_mul_left 9 hle), rfl⟩
  · obtain ⟨pb, hle, hpb⟩ := exists_findIdx?_groups_le hg ((badStop_group b g).2 hbad)
    rw [firstWrongFramingBit, Block.firstBadStop, hpb]
    cases b.firstBadStart n with
    | none => exact ⟨_, by omega, rfl⟩
    | some sb => exact ⟨_, (min_le_right _ _).trans (by omega), rfl⟩

theorem firstWrongFramingBit_eq_none_iff (b : Block) (n : Nat) :
    firstWrongFramingBit b n = none ↔ ∀ k, ¬ WrongFramingBit b n k := by
  refine ⟨fun h k hk => ?_, fun h => Option.eq_none_iff_forall_ne_some.2 fun k hk => h k (wrongFramingBit_of_first hk)⟩
  obtain ⟨k', -, hk'⟩ := firstWrongFramingBit_le hk
  exact absurd (h.symm.trans hk') (by simp)

theorem firstWrongFramingBit_eq_some {b : Block} {n k : Nat} (hk : WrongFramingBit b n k)
    (hfirst : ∀ j < k, ¬ WrongFramingBit b n j) : firstWrongFramingBit b n = some k := by
  obtain ⟨k', hle, hk'⟩ := firstWrongFramingBit_le hk
  obtain rfl | hlt := Nat.eq_or_lt_of_le hle
  · exact hk'
  · exact absurd (wrongFramingBit_of_first hk') (hfirst k' hlt)

/-- No framing bit is wrong when every start bit is 0 and every stop bit 1. -/
theorem not_wrongFramingBit_iff (b : Block) (n : Nat) :
    (∀ k, ¬ WrongFramingBit b n k) ↔ ∀ g < n, b.bitAt (9 * g) = 0#1 ∧ b.bitAt (9 * g + 8) = 1#1 := by
  refine ⟨fun h g hg => ⟨?_, ?_⟩, fun h k => ?_⟩
  · by_contra hbad
    exact h _ ⟨g, hg, .inl ⟨rfl, hbad⟩⟩
  · by_contra hbad
    exact h _ ⟨g, hg, .inr ⟨rfl, hbad⟩⟩
  · rintro ⟨g, hg, ⟨rfl, hbad⟩ | ⟨rfl, hbad⟩⟩
    · exact hbad (h g hg).1
    · exact hbad (h g hg).2

/-! ### When DFR fails -/

section
variable {b : Block}

theorem dfrStage_bitCapacity (h : b.inst.bitCap < b.bitLen.toNat) : dfrStage b = b.fail .capacity 2 := by
  obtain ⟨-, heq⟩ | ⟨hle, -⟩ | ⟨hle, -⟩ := dfrStage_cases b
  · exact heq
  · omega
  · omega

theorem dfrStage_textCapacity (hlen : b.bitLen.toNat ≤ b.inst.bitCap) (h : b.inst.textCap < b.bitLen.toNat / 9) :
    dfrStage b = b.fail .capacity 1 := by
  obtain ⟨hlt, -⟩ | ⟨-, -, heq⟩ | ⟨-, hle, -⟩ := dfrStage_cases b
  · omega
  · exact heq
  · omega

theorem dfrStage_misalign (hlen : b.bitLen.toNat ≤ b.inst.bitCap) (hcap : b.bitLen.toNat / 9 ≤ b.inst.textCap)
    (hstrict : b.strict = true) (h : b.bitLen.toNat % 9 ≠ 0) :
    dfrStage b = b.dfrFlags.fail .misalign (9 * (b.bitLen.toNat / 9)) := by
  obtain ⟨hlt, -⟩ | ⟨-, hlt, -⟩ | ⟨-, -, ⟨-, -, heq⟩ | ⟨-, h0, -⟩ | ⟨hok, -⟩⟩ := dfrStage_cases b
  · omega
  · omega
  · exact heq
  · exact absurd h0 h
  · simp [hstrict, h] at hok

theorem dfrStage_framing (hlen : b.bitLen.toNat ≤ b.inst.bitCap) (hcap : b.bitLen.toNat / 9 ≤ b.inst.textCap)
    (hstrict : b.strict = true) (hmod : b.bitLen.toNat % 9 = 0) {k : Nat}
    (hk : firstWrongFramingBit b (b.bitLen.toNat / 9) = some k) : dfrStage b = b.dfrFlags.fail .framing k := by
  unfold firstWrongFramingBit at hk
  obtain ⟨hlt, -⟩ | ⟨-, hlt, -⟩ | ⟨-, -, ⟨-, h, -⟩ | ⟨-, -, k', hk', heq⟩ | ⟨hok, -⟩⟩ := dfrStage_cases b
  · omega
  · omega
  · exact absurd hmod h
  · rw [heq, Option.some.inj (hk.symm.trans hk')]
  · simp [hstrict, hk] at hok

end

/-! ### The flags (R154) -/

/-- The flags that DFR raises on the block's bits. -/
def dfrFlagWord (b : Block) : Word :=
  flagIf maskTrailBit (b.bitLen.toNat % 9 ≠ 0) |||
    flagIf maskStart (∃ g < b.bitLen.toNat / 9, b.bitAt (9 * g) ≠ 0#1) |||
    flagIf maskStop (∃ g < b.bitLen.toNat / 9, b.bitAt (9 * g + 8) ≠ 1#1)

theorem findIdx?_groups_isSome_iff (b : Block) (n : Nat) (p : List Bit → Bool) :
    ((b.groups n).findIdx? p).isSome = true ↔ ∃ g < n, p (b.group g) = true := by
  rw [← Option.ne_none_iff_isSome, ne_eq, Block.groups, findIdx?_map_range_none]
  simp

/-- DFR's flags are set beside those that STATUS holds. -/
theorem dfrFlags_eq (b : Block) : b.dfrFlags = withStatus b (b.status ||| dfrFlagWord b) b.errinfo := by
  have hstart : (b.firstBadStart (b.bitLen.toNat / 9)).isSome = true ↔
      ∃ g < b.bitLen.toNat / 9, b.bitAt (9 * g) ≠ 0#1 := by
    simp only [Block.firstBadStart, findIdx?_groups_isSome_iff, badStart_group]
  have hstop : (b.firstBadStop (b.bitLen.toNat / 9)).isSome = true ↔
      ∃ g < b.bitLen.toNat / 9, b.bitAt (9 * g + 8) ≠ 1#1 := by
    simp only [Block.firstBadStop, findIdx?_groups_isSome_iff, badStop_group]
  have hstatus : b.dfrFlags.status = b.status ||| dfrFlagWord b := by
    rw [Block.dfrFlags, raiseFlag_status_flagIf _ _ hstop, raiseFlag_status_flagIf _ _ hstart,
      raiseFlag_status_flagIf _ _ bne_iff_ne, BitVec.or_assoc, BitVec.or_assoc, ← BitVec.or_assoc (flagIf maskTrailBit _)]
    rfl
  rw [← hstatus]
  rfl

theorem dfrFlags_clearStatus (b : Block) : b.clearStatus.dfrFlags = withStatus b (dfrFlagWord b) 0#32 := by
  rw [dfrFlags_eq, Block.clearStatus_status, BitVec.zero_or]
  rfl

/-- The flags are outside ECODE. -/
theorem dfrFlagWord_ecode (b : Block) : dfrFlagWord b &&& maskEcode = 0#32 := by
  have hflag {mask : Word} (hmask : mask &&& maskEcode = 0#32) (p : Prop) [Decidable p] :
      flagIf mask p &&& maskEcode = 0#32 := by
    unfold flagIf
    split
    · exact hmask
    · exact BitVec.zero_and
  rw [dfrFlagWord, BitVec.and_or_distrib_right, BitVec.and_or_distrib_right, hflag (by decide), hflag (by decide),
    hflag (by decide)]
  rfl

/-- A strict DFR that fails on the bits leaves the flags with the error. -/
theorem exec_dfr_flagged {s : State} {e : ErrorCode} {info : Nat}
    (h : dfrStage s.block.clearStatus = s.block.clearStatus.dfrFlags.fail e info) : exec .dfr s =
      .next (answered s (withStatus s.block (errorWord e ||| dfrFlagWord s.block) (BitVec.ofNat 32 info))) := by
  rw [exec_dfr, runCommandStages_one, h, dfrFlags_clearStatus, setDone_fail_withStatus (dfrFlagWord_ecode _)]

/-! ### The text (R88) -/

/-- The text that DFR stores for the block's bits. -/
def decodedText (b : Block) : List Ordinal := (b.groups (b.bitLen.toNat / 9)).map unframe

theorem length_decodedText (b : Block) : (decodedText b).length = b.bitLen.toNat / 9 := by
  simp [decodedText, Block.groups]

/-- Below the length of a stored text an entry reads as the character of its group. -/
theorem storeText_decodedText_txtOutAt (b c : Block) {g : Nat} (hg : g < b.bitLen.toNat / 9) :
    (c.storeText (decodedText b)).txtOutAt g = unframe (b.group g) := by
  rw [Block.storeText_txtOutAt, dif_pos (by rwa [length_decodedText])]
  simp [decodedText, Block.groups]

theorem group_getD (b : Block) (g : Nat) {j : Nat} (hj : j < 9) : (b.group g).getD j 0#1 = b.bitAt (9 * g + j) := by
  simp [Block.group, hj]

/-- Seven bits by weight are at most 127, so the sum is not cut. -/
theorem toNat_unframe_group (b : Block) (g : Nat) :
    (unframe (b.group g)).toNat = ∑ j ∈ Finset.range 7, (b.bitAt (9 * g + 1 + j)).toNat * 2 ^ (6 - j) := by
  have hle : ∑ j ∈ Finset.range 7, (b.bitAt (9 * g + 1 + j)).toNat * 2 ^ (6 - j) ≤ ∑ j ∈ Finset.range 7, 1 * 2 ^ (6 - j) :=
    Finset.sum_le_sum fun j _ => Nat.mul_le_mul_right _ (Nat.le_of_lt_succ (BitVec.isLt _))
  have hmax : ∑ j ∈ Finset.range 7, 1 * 2 ^ (6 - j) = 127 := by decide
  have hsum : ((List.range 7).map fun j => ((b.group g).getD (1 + j) 0#1).toNat * 2 ^ (6 - j)).sum =
      ∑ j ∈ Finset.range 7, (b.bitAt (9 * g + 1 + j)).toNat * 2 ^ (6 - j) :=
    congrArg List.sum (List.map_congr_left fun j hj => by
      rw [group_getD b g (by have := List.mem_range.1 hj; omega), Nat.add_assoc])
  rw [unframe, BitVec.toNat_ofNat, hsum, Nat.mod_eq_of_lt (by omega)]

theorem setDone_storeText_withStatus (b : Block) (flags : Word) (text : List Ordinal) :
    ((withStatus b flags 0#32).storeText text).setDone = (withStatus b (0x01#32 ||| flags) 0#32).storeText text := by
  rw [BitVec.or_comm]
  rfl

/-- What a DFR that succeeds leaves: the flags with DONE, and the text. -/
theorem runCommandStages_dfr_success {b : Block} (hlen : b.bitLen.toNat ≤ b.inst.bitCap)
    (hcap : b.bitLen.toNat / 9 ≤ b.inst.textCap)
    (hok : b.strict = false ∨ (b.bitLen.toNat % 9 = 0 ∧ ∀ k, ¬ WrongFramingBit b (b.bitLen.toNat / 9) k)) :
    runCommandStages [dfrStage] b = (withStatus b (0x01#32 ||| dfrFlagWord b) 0#32).storeText (decodedText b) := by
  have hstage := dfrStage_success (b := b.clearStatus) hlen hcap
    (hok.imp_right (And.imp_right (firstWrongFramingBit_eq_none_iff b _).2))
  rw [runCommandStages_one, hstage, dfrFlags_clearStatus, ← setDone_storeText_withStatus]
  rfl

/-! ### The obligations -/

/-- Settles O48: DFR's stage by its five outcomes, the entries of TXT_OUT by the groups. -/
theorem dfrDecodesGroupsOrFailsWhole : Obligations.DfrDecodesGroupsOrFailsWhole := by
  intro s b len count strict flags
  refine ⟨fun h => exec_dfr_fail (dfrStage_bitCapacity h), fun hlen h => exec_dfr_fail (dfrStage_textCapacity hlen h),
    fun hlen hcap hstrict h => exec_dfr_flagged (dfrStage_misalign (b := b.clearStatus) hlen hcap hstrict h),
    fun hlen hcap hstrict hmod k hk hfirst => exec_dfr_flagged (dfrStage_framing (b := b.clearStatus) hlen hcap hstrict hmod
      (firstWrongFramingBit_eq_some hk hfirst)), fun hlen hcap hok => ?_⟩
  have hlength : (decodedText b).length = count := length_decodedText b
  refine ⟨Memory.writeFirst b.txtOut (decodedText b), ?_, fun g hg => ?_, fun k hk => ?_⟩
  · rw [exec_dfr, runCommandStages_dfr_success hlen hcap hok, Block.storeText, hlength]
    rfl
  · rw [← toNat_unframe_group]
    exact congrArg BitVec.toNat (storeText_decodedText_txtOutAt b b hg)
  · exact (Block.storeText_txtOutAt b _ k).trans (dif_neg (by omega))

/-- Settles O49: of DFR's outcomes in strict mode only the stored text leaves ERR clear, and it needs every condition. -/
theorem strictDfrAcceptsOnlyCleanFrames : Obligations.StrictDfrAcceptsOnlyCleanFrames := by
  intro s b len hstrict
  refine ⟨_, exec_dfr s, ⟨fun herr => ?_, fun ⟨hlen, hcap, hmod, hframes⟩ => ?_⟩, fun herr => ?_⟩
  · have hne := ne_fail_of_ok (b := dfrStage b.clearStatus) (by rwa [runCommandStages_one, Block.setDone_err] at herr)
    obtain ⟨-, heq⟩ | ⟨-, -, heq⟩ | ⟨hlen, hcap, ⟨-, -, heq⟩ | ⟨-, -, k, -, heq⟩ | ⟨hlenient | ⟨hmod, hnone⟩, -⟩⟩ :=
      dfrStage_cases b.clearStatus
    · exact absurd heq (hne _ _ _)
    · exact absurd heq (hne _ _ _)
    · exact absurd heq (hne _ _ _)
    · exact absurd heq (hne _ _ _)
    · exact absurd (hstrict.symm.trans hlenient) (by decide)
    · exact ⟨hlen, hcap, hmod, (not_wrongFramingBit_iff b _).1 ((firstWrongFramingBit_eq_none_iff b _).1 hnone)⟩
  · have hnone := (firstWrongFramingBit_eq_none_iff b _).2 ((not_wrongFramingBit_iff b _).2 hframes)
    have hstage := dfrStage_success (b := b.clearStatus) hlen hcap (.inr ⟨hmod, hnone⟩)
    rw [runCommandStages_one, Block.setDone_err, hstage, Block.storeText_err, dfrFlags_err, Block.clearStatus_err]
  · have hframe : runCommandStages [dfrStage] b = withStatus b _ _ := failed_one dfrStage_outcome rfl herr
    exact ⟨(congrArg Block.txtOut hframe :), (congrArg Block.outLen hframe :)⟩

/-- Settles O51: both texts are the sums of the same middle bits. -/
theorem lenientTextIgnoresFramingBits : Obligations.LenientTextIgnoresFramingBits := by
  intro s t s' t' hs ht hinst hbitLen hlen hcap hmiddle hs' ht'
  rw [exec_dfr, runCommandStages_dfr_success hlen hcap (.inl hs)] at hs'
  rw [exec_dfr, runCommandStages_dfr_success (hinst ▸ hbitLen ▸ hlen) (hinst ▸ hbitLen ▸ hcap) (.inl ht)] at ht'
  cases hs'
  cases ht'
  have hlength : (decodedText s.block).length = (decodedText t.block).length := by
    rw [length_decodedText, length_decodedText, hbitLen]
  refine ⟨congrArg (BitVec.ofNat 32) hlength, fun g hg => ?_⟩
  have hgs : g < s.block.bitLen.toNat / 9 := (lt_of_lt_lengthWord hg).trans_eq (length_decodedText _)
  have hsum : (unframe (s.block.group g)).toNat = (unframe (t.block.group g)).toNat := by
    rw [toNat_unframe_group, toNat_unframe_group]
    refine Finset.sum_congr rfl fun j hj => ?_
    rw [Nat.add_assoc, hmiddle g hgs (1 + j) (by omega) (by have := Finset.mem_range.1 hj; omega)]
  rw [storeText_decodedText_txtOutAt _ _ hgs, storeText_decodedText_txtOutAt _ _ (hbitLen ▸ hgs)]
  exact BitVec.eq_of_toNat_eq hsum

end Sys2Proof.Safety
end

section
/-! PROOFS. DEC as CLS followed by DFR (spec/43_frame_decoder.md R157): DFR takes the same way on a STATUS that holds flags,
and keeps them. -/

namespace Sys2Proof.Safety

open Sys2Proof.Machine

theorem exec_dec (s : State) : exec .dec s = .next (answered s (runCommandStages [clsStage num, dfrStage] s.block)) := rfl

/-! ### DFR on a STATUS that holds flags (R157) -/

/-- An error replaces ECODE and keeps every flag, so flags can be set before or after it (R199). -/
theorem statusWithError_or {f : Word} (hf : f &&& maskEcode = 0#32) (g : Word) (e : ErrorCode) :
    statusWithError (f ||| g) e = f ||| statusWithError g e := by
  have hkeep : f &&& ~~~maskEcode = f := by
    have hsplit : f &&& (maskEcode ||| ~~~maskEcode) = f := by
      rw [show maskEcode ||| ~~~maskEcode = BitVec.allOnes 32 by decide, BitVec.and_allOnes]
    rwa [BitVec.and_or_distrib_left, hf, BitVec.zero_or] at hsplit
  simp only [statusWithError, BitVec.and_or_distrib_right, hkeep, BitVec.or_assoc]

/-- The block with the flags f in STATUS beside what it holds. -/
def withFlags (b : Block) (f : Word) : Block := withStatus b (f ||| b.status) b.errinfo

@[simp] theorem withFlags_status (b : Block) (f : Word) : (withFlags b f).status = f ||| b.status := rfl

theorem fail_withFlags {f : Word} (hf : f &&& maskEcode = 0#32) (b : Block) (e : ErrorCode) (info : Nat) :
    (withFlags b f).fail e info = withFlags (b.fail e info) f :=
  congrArg (withStatus b · (BitVec.ofNat 32 info)) (statusWithError_or hf b.status e)

theorem dfrFlags_withFlags (b : Block) (f : Word) : (withFlags b f).dfrFlags = withFlags b.dfrFlags f := by
  rw [dfrFlags_eq, dfrFlags_eq, withFlags_status, BitVec.or_assoc]
  rfl

/-- DFR keeps the flags that STATUS holds before it: it takes the same way, and adds its own. -/
theorem dfrStage_withFlags {f : Word} (hf : f &&& maskEcode = 0#32) (b : Block) :
    dfrStage (withFlags b f) = withFlags (dfrStage b) f := by
  obtain ⟨hlt, heq⟩ | ⟨hlen, hlt, heq⟩ | ⟨hlen, hcap, ⟨hs, hmod, heq⟩ | ⟨hs, hmod, k, hk, heq⟩ | ⟨hok, heq⟩⟩ :=
    dfrStage_cases b <;> rw [heq]
  · rw [dfrStage_bitCapacity (b := withFlags b f) hlt, fail_withFlags hf]
  · rw [dfrStage_textCapacity (b := withFlags b f) hlen hlt, fail_withFlags hf]
  · rw [dfrStage_misalign (b := withFlags b f) hlen hcap hs hmod, dfrFlags_withFlags, fail_withFlags hf]
    rfl
  · rw [dfrStage_framing (b := withFlags b f) hlen hcap hs hmod hk, dfrFlags_withFlags, fail_withFlags hf]
  · rw [dfrStage_success (b := withFlags b f) hlen hcap hok, dfrFlags_withFlags]
    rfl

/-- A CLS that succeeds from a cleared STATUS leaves ERRINFO clear and no code in ECODE. -/
theorem clsStage_clearStatus_of_ok {nm : Config.Num} {b : Block} (h : (clsStage nm b.clearStatus).err = false) :
    (clsStage nm b.clearStatus).status &&& maskEcode = 0#32 ∧ (clsStage nm b.clearStatus).errinfo = 0#32 := by
  have hne := ne_fail_of_ok h
  obtain ⟨-, heq⟩ | ⟨-, -, heq⟩ | ⟨-, -, -, heq⟩ | ⟨-, -, -, za, rfl, ⟨-, w, -, heq⟩ | ⟨-, heq⟩⟩ :=
    clsStage_cases nm b.clearStatus
  · exact absurd heq (hne _ _ _)
  · exact absurd heq (hne _ _ _)
  · exact absurd heq (hne _ _ _)
  · exact absurd heq (hne _ _ _)
  · have hflags := clsFlags_clearStatus b
    rw [heq, Block.storeBits_status, Block.storeBits_errinfo]
    exact ⟨(congrArg (·.status &&& maskEcode) hflags).trans (clsFlagWord_ecode b), congrArg Block.errinfo hflags⟩

/-- Once DONE is set, flags kept through a second stage read as those of both commands together. -/
theorem setDone_withFlags (b : Block) (f : Word) :
    (withFlags b f).setDone = withStatus b.setDone ((f ||| maskDone) ||| b.setDone.status) b.setDone.errinfo := by
  have hdone : (f ||| b.status) ||| maskDone = (f ||| maskDone) ||| (b.status ||| maskDone) := by
    conv_lhs => rw [← BitVec.or_self (x := maskDone)]
    ac_rfl
  rw [Block.setDone_status, ← hdone]
  rfl

/-- Settles O52: the DFR of DEC finds CLS's block with CLS's flags in STATUS, the one that follows a CLS finds it cleared. -/
theorem decIsClsThenDfr : Obligations.DecIsClsThenDfr := by
  intro s
  have hdec := exec_dec s
  rw [runCommandStages_two] at hdec
  refine ⟨_, exec_cls s, fun herr => ?_, fun herr => ⟨_, exec_dfr _, ?_⟩⟩
  all_goals simp only [runCommandStages_one, Block.setDone_err] at herr ⊢
  · rw [hdec, if_pos herr]
  · obtain ⟨hecode, herrinfo⟩ := clsStage_clearStatus_of_ok herr
    rw [hdec, if_neg (Bool.eq_false_iff.1 herr)]
    generalize clsStage num s.block.clearStatus = c at *
    have hflags : c = withFlags c.clearStatus c.status := by
      rw [withFlags, Block.clearStatus_status, BitVec.or_zero, Block.clearStatus_errinfo, ← herrinfo]
      rfl
    have hstage : dfrStage c = withFlags (dfrStage c.clearStatus) c.status :=
      (congrArg dfrStage hflags).trans (dfrStage_withFlags hecode c.clearStatus)
    rw [hstage, setDone_withFlags]
    rfl

end Sys2Proof.Safety
end

section
/-! PROOFS. Decoding what was encoded (spec/43_frame_decoder.md R156, R158): DFR on the frames of a text, CLS on the tones
of a bit stream in a discriminating configuration, and DEC on what ENC wrote. -/

namespace Sys2Proof.Safety

open Sys2Proof.Machine

/-! ### DFR on the frames of a text (R156) -/

/-- FRM can frame the block's text: it fits the capacities and holds characters only (R100). -/
def Framable (b : Block) : Prop :=
  b.txtLen.toNat ≤ b.inst.textCap ∧ 9 * b.txtLen.toNat ≤ b.inst.bitCap ∧
    ∀ i < b.txtLen.toNat, (b.txtInAt i).toNat ≤ 127

theorem frmStage_clearStatus_ok_cases {b : Block} (h : (frmStage b.clearStatus).err = false) :
    Framable b ∧ frmStage b.clearStatus = framedBlock b := by
  have hne := ne_fail_of_ok h
  obtain ⟨-, heq⟩ | ⟨-, -, heq⟩ | ⟨-, -, bad, -, -, -, heq⟩ | ⟨htext, hcap, hascii, heq⟩ := frmStage_cases b.clearStatus
  · exact absurd heq (hne _ _ _)
  · exact absurd heq (hne _ _ _)
  · exact absurd heq (hne _ _ _)
  · exact ⟨⟨htext, hcap, hascii⟩, heq⟩

/-- Block c with the bits that FRM makes of the text of block a; `framedBlock a` is the case of a itself, STATUS cleared. -/
def withFramedText (c a : Block) : Block := c.storeBits (framedText a)

/-- Block u holds the decoded text of block a, and no error and no flag (R156, R231). -/
def GivesBackText (u a : Block) : Prop :=
  Clean u ∧ u.errinfo = 0#32 ∧ u.outLen = a.txtLen ∧
    ∀ i < a.txtLen.toNat, (u.txtOutAt i).zeroExtend 32 = a.txtInAt i

theorem withFramedText_group {a : Block} (c : Block) {i : Nat} (hi : i < a.txtLen.toNat) :
    (withFramedText c a).group i = frame (a.txtInAt i) := by
  refine List.ext_getElem? fun j => ?_
  obtain hj | hj := Nat.lt_or_ge j 9
  · obtain ⟨bit, hbit⟩ : ∃ bit, (frame (a.txtInAt i))[j]? = some bit := ⟨_, List.getElem?_eq_getElem (h := hj)⟩
    have hat : (withFramedText c a).bitAt (9 * i + j) = bit :=
      storeBits_bitAt_of_getElem? c ((getElem?_framedText a hi hj).trans hbit)
    simp [Block.group, hj, hat, hbit]
  · rw [List.getElem?_eq_none (by simpa [Block.group] using hj), List.getElem?_eq_none hj]

/-- The start bits are 0 and the stop bits 1 (R87). -/
theorem withFramedText_frames {a : Block} (c : Block) {g : Nat} (hg : g < a.txtLen.toNat) :
    (withFramedText c a).bitAt (9 * g) = 0#1 ∧ (withFramedText c a).bitAt (9 * g + 8) = 1#1 :=
  ⟨storeBits_bitAt_of_getElem? c (getElem?_framedText a (j := 0) hg (by decide)),
    storeBits_bitAt_of_getElem? c (getElem?_framedText a hg (by decide))⟩

theorem withFramedText_bitAt {a : Block} (c d : Block) {k : Nat} (hk : k < 9 * a.txtLen.toNat) :
    (withFramedText c a).bitAt k = (withFramedText d a).bitAt k := by
  have hlen : k < (framedText a).length := hk.trans_eq (length_framedText a).symm
  rw [withFramedText, withFramedText, Block.storeBits_bitAt, Block.storeBits_bitAt, dif_pos hlen, dif_pos hlen]

/-- DFR on whole groups without a wrong framing bit raises no flag. -/
theorem runCommandStages_dfr_clean {b : Block} (hlen : b.bitLen.toNat ≤ b.inst.bitCap)
    (hcap : b.bitLen.toNat / 9 ≤ b.inst.textCap) (hmod : b.bitLen.toNat % 9 = 0)
    (hframes : ∀ g < b.bitLen.toNat / 9, b.bitAt (9 * g) = 0#1 ∧ b.bitAt (9 * g + 8) = 1#1) :
    runCommandStages [dfrStage] b = (withStatus b 0x01#32 0#32).storeText (decodedText b) := by
  have hstart : ¬ ∃ g < b.bitLen.toNat / 9, b.bitAt (9 * g) ≠ 0#1 := fun ⟨g, hg, hbad⟩ => hbad (hframes g hg).1
  have hstop : ¬ ∃ g < b.bitLen.toNat / 9, b.bitAt (9 * g + 8) ≠ 1#1 := fun ⟨g, hg, hbad⟩ => hbad (hframes g hg).2
  have hflags : dfrFlagWord b = 0#32 := by
    rw [dfrFlagWord, flagIf, flagIf, flagIf, if_neg (not_not_intro hmod), if_neg hstart, if_neg hstop]
    rfl
  rw [runCommandStages_dfr_success hlen hcap (.inr ⟨hmod, (not_wrongFramingBit_iff b _).2 hframes⟩), hflags, BitVec.or_zero]

section
variable {a c : Block} (hlegal : a.inst.Legal) (ha : Framable a)
include hlegal ha

theorem withFramedText_bitLen (c : Block) : (withFramedText c a).bitLen.toNat = 9 * a.txtLen.toNat := by
  obtain ⟨-, ⟨-, hbitCap⟩, -⟩ := hlegal
  obtain ⟨-, hcap, -⟩ := ha
  rw [withFramedText, Block.storeBits_bitLen, length_framedText, BitVec.toNat_ofNat, Nat.mod_eq_of_lt (by omega)]

/-- DFR stores the text and raises no flag, in either mode. -/
theorem runCommandStages_dfr_withFramedText (hinst : c.inst = a.inst) : runCommandStages [dfrStage] (withFramedText c a) =
    (withStatus (withFramedText c a) 0x01#32 0#32).storeText (decodedText (withFramedText c a)) := by
  have hlen := withFramedText_bitLen hlegal ha c
  have hinst' : (withFramedText c a).inst = a.inst := hinst
  obtain ⟨htext, hcap, -⟩ := ha
  refine runCommandStages_dfr_clean ?_ ?_ ?_ fun g hg => withFramedText_frames c (by omega)
  · rwa [hlen, hinst']
  · rwa [hlen, hinst', Nat.mul_div_cancel_left _ (by decide)]
  · rw [hlen, Nat.mul_mod_right]

theorem givesBackText_decodedText (c : Block) :
    GivesBackText ((withStatus (withFramedText c a) 0x01#32 0#32).storeText (decodedText (withFramedText c a))) a := by
  have hcount : (withFramedText c a).bitLen.toNat / 9 = a.txtLen.toNat := by
    rw [withFramedText_bitLen hlegal ha, Nat.mul_div_cancel_left _ (by decide)]
  obtain ⟨-, -, hascii⟩ := ha
  refine ⟨rfl, rfl, ?_, fun i hi => ?_⟩
  · rw [Block.storeText_outLen, length_decodedText, hcount, BitVec.ofNat_toNat, BitVec.setWidth_eq]
  · rw [storeText_decodedText_txtOutAt _ _ (hi.trans_eq hcount.symm), withFramedText_group c hi]
    exact unframeOfFrameIsTheCharacter _ (hascii i hi)

end

/-- Settles O50: FRM that succeeds leaves the frames of a text that DFR gives back. -/
theorem dfrInvertsFrm : Obligations.DfrInvertsFrm := by
  intro s t hlegal ht herr
  rw [exec_frm] at ht
  cases ht
  obtain ⟨hframable, hstage⟩ := frmStage_clearStatus_ok_cases (b := s.block)
    (by rwa [runCommandStages_one, Block.setDone_err] at herr)
  have hblock : runCommandStages [frmStage] s.block = withFramedText (withStatus s.block 0x01#32 0#32) s.block :=
    runCommandStages_one_storeBits hstage
  refine ⟨_, exec_dfr _, ?_⟩
  change GivesBackText (runCommandStages [dfrStage] (runCommandStages [frmStage] s.block)) s.block
  rw [hblock, runCommandStages_dfr_withFramedText (c := withStatus s.block 0x01#32 0#32) hlegal hframable rfl]
  exact givesBackText_decodedText hlegal hframable _

/-! ### CLS on the tones of a bit stream (R141) -/

/-- The clean window of a bit's tone. -/
def toneWindow (nm : Config.Num) (a : Block) (bit : Bit) : List Int :=
  cleanWindow nm (a.tone bit) a.fsC.toNat a.spb

section
variable {nm : Config.Num} {a : Block} (h : Discriminating nm a)
include h

theorem classify_toneWindow (bit : Bit) : a.classify nm a.spb (toneWindow nm a bit) = bit := by
  obtain ⟨-, hmark, hspace, -⟩ := h
  obtain rfl | rfl := BitVec.eq_zero_or_eq_one bit
  · exact hspace
  · exact hmark

theorem not_ambiguous_toneWindow (bit : Bit) : ambiguous (toneWindow nm a bit) = false := by
  have hloud {x : List Int} (hx : ∃ v ∈ x, v ≠ 0) : ambiguous x = false := by
    obtain ⟨v, hv, hne⟩ := hx
    exact Bool.eq_false_iff.2 fun hall => hne ((ambiguous_iff x).1 hall v hv)
  obtain ⟨-, -, -, hmark, hspace⟩ := h
  obtain rfl | rfl := BitVec.eq_zero_or_eq_one bit
  · exact hloud hspace
  · exact hloud hmark

/-- In a discriminating configuration CLS reads the tones of a bit stream as that stream, and raises no flag. -/
theorem clsStage_of_toneWindows {c : Block} {bits : List Bit} (hspb : c.spb = a.spb)
    (hclassify : c.classify nm = a.classify nm) (hlen : c.smpLen.toNat = bits.length * a.spb)
    (hsamp : c.smpLen.toNat ≤ c.inst.sampCap) (hcap : bits.length ≤ c.inst.bitCap)
    (hwindows : c.windows a.spb bits.length = bits.map (toneWindow nm a)) : clsStage nm c = c.storeBits bits := by
  have hpos : 0 < a.spb := h.1
  have hcount : c.smpLen.toNat / c.spb = bits.length := by rw [hlen, hspb, Nat.mul_div_cancel _ hpos]
  have hwindows' : c.windows c.spb (c.smpLen.toNat / c.spb) = bits.map (toneWindow nm a) := by rw [hcount, hspb, hwindows]
  have hambig : (bits.map (toneWindow nm a)).findIdx? ambiguous = none := by
    simp [List.findIdx?_eq_none_iff, not_ambiguous_toneWindow h]
  have hbits : (bits.map (toneWindow nm a)).map (a.classify nm a.spb) = bits := by
    simp [Function.comp_def, classify_toneWindow h]
  have hflags : c.clsFlags none = c := by
    have hmod : (c.smpLen.toNat % c.spb != 0) = false := by rw [hlen, hspb, Nat.mul_mod_left]; rfl
    rw [Block.clsFlags, hmod]
    rfl
  rw [clsStage_success (by omega) hsamp (hcount.trans_le hcap) (by rw [hwindows', hambig]) (.inr rfl), hflags, hwindows',
    hclassify, hspb, hbits]

end

/-- The windows that SYN writes are the clean windows of the bits' tones. -/
theorem windows_synthesizedBits (nm : Config.Num) (c b : Block) :
    (c.storeSamples (synthesizedBits nm b)).windows b.spb b.bitLen.toNat =
      (b.bits b.bitLen.toNat).map (toneWindow nm b) := by
  rw [Block.windows, Block.bits, List.map_map]
  refine List.map_congr_left fun w hw => List.map_congr_left fun j hj => congrArg BitVec.toInt ?_
  exact storeSamples_smpAt_of_getElem? c (getElem?_synthesizedBits nm b (List.mem_range.1 hw) (List.mem_range.1 hj))

/-- The windows depend on the samples below their end only. -/
theorem windows_congr {b c : Block} {n count : Nat} (h : ∀ i < count * n, b.smpAt i = c.smpAt i) :
    b.windows n count = c.windows n count := by
  refine List.map_congr_left fun w hw => List.map_congr_left fun j hj => congrArg BitVec.toInt (h _ ?_)
  have hj' : j < n := List.mem_range.1 hj
  calc w * n + j < (w + 1) * n := by rw [Nat.succ_mul]; omega
    _ ≤ count * n := Nat.mul_le_mul_right n (List.mem_range.1 hw)

theorem bits_storeBits (b : Block) (bits : List Bit) : (b.storeBits bits).bits bits.length = bits := by
  refine List.ext_getElem (by simp [Block.bits]) fun i hi hi' => ?_
  simp [Block.bits, Block.storeBits_bitAt, hi']

/-! ### The round trip (R158) -/

/-- What ENC leaves when it succeeds: the frames of the text and their tones. -/
def encodedBlock (b : Block) : Block :=
  (withFramedText (withStatus b 0x01#32 0#32) b).storeSamples (synthesizedBits num (framedBlock b))

theorem runCommandStages_enc_ok_cases {b : Block} (hlegal : b.inst.Legal)
    (h : (runCommandStages [frmStage, synStage num] b).err = false) :
    Framable b ∧ 9 * b.txtLen.toNat * b.spb ≤ b.inst.sampCap ∧
      runCommandStages [frmStage, synStage num] b = encodedBlock b := by
  have hrun := runCommandStages_two frmStage (synStage num) b
  cases hfrm : (frmStage b.clearStatus).err with
  | true =>
    rw [hrun, if_pos hfrm, Block.setDone_err, hfrm] at h
    cases h
  | false =>
    obtain ⟨hframable, hstage⟩ := frmStage_clearStatus_ok_cases hfrm
    rw [hrun, hfrm, if_neg (by decide), Block.setDone_err, hstage] at h
    have hne := ne_fail_of_ok h
    obtain ⟨-, heq⟩ | ⟨-, -, heq⟩ | ⟨-, -, -, heq⟩ | ⟨-, -, hsamp, heq⟩ := synStage_cases num (framedBlock b)
    · exact absurd heq (hne _ _ _)
    · exact absurd heq (hne _ _ _)
    · exact absurd heq (hne _ _ _)
    · have hlen : (framedBlock b).bitLen.toNat = 9 * b.txtLen.toNat := withFramedText_bitLen hlegal hframable b.clearStatus
      rw [hlen] at hsamp
      exact ⟨hframable, hsamp, runCommandStages_enc_success hstage heq⟩

/-- CLS gives the frames back from any block with the configuration and the samples of the encoded one. -/
theorem clsStage_of_encoded {b c : Block} (hlegal : b.inst.Legal) (hdisc : Discriminating num b) (hframable : Framable b)
    (hsamp : 9 * b.txtLen.toNat * b.spb ≤ b.inst.sampCap) (hinst : c.inst = b.inst) (hspb : c.spb = b.spb)
    (hclassify : c.classify num = b.classify num) (hlen : c.smpLen = (encodedBlock b).smpLen)
    (hsmp : ∀ i < (encodedBlock b).smpLen.toNat, c.smpAt i = (encodedBlock b).smpAt i) :
    clsStage num c = withFramedText c b := by
  have hbits : (framedBlock b).bitLen.toNat = (framedText b).length :=
    (withFramedText_bitLen hlegal hframable b.clearStatus).trans (length_framedText b).symm
  have hwindows : (encodedBlock b).windows b.spb (framedText b).length = (framedText b).map (toneWindow num b) := by
    have hsyn := windows_synthesizedBits num (withFramedText (withStatus b 0x01#32 0#32) b) (framedBlock b)
    rwa [hbits, framedBlock, bits_storeBits] at hsyn
  obtain ⟨-, hcap, -⟩ := hframable
  obtain ⟨-, -, -, hsampCap⟩ := hlegal
  rw [← length_framedText] at hcap hsamp
  have hlength : (encodedBlock b).smpLen.toNat = (framedText b).length * b.spb := by
    rw [encodedBlock, Block.storeSamples_smpLen, length_synthesizedBits, hbits, BitVec.toNat_ofNat]
    exact Nat.mod_eq_of_lt ((hsamp.trans hsampCap).trans_lt (by decide))
  refine clsStage_of_toneWindows hdisc hspb hclassify (by rw [hlen, hlength]) ?_ ?_ ?_
  · rwa [hlen, hlength, hinst]
  · rwa [hinst]
  · rw [← hwindows]
    exact windows_congr fun i hi => hsmp i (hi.trans_eq hlength.symm)

/-- A DEC whose CLS gives a text's frames back is a DFR on these frames. -/
theorem runCommandStages_dec_of_frames {b c : Block} (h : clsStage num c.clearStatus = withFramedText c.clearStatus b) :
    runCommandStages [clsStage num, dfrStage] c = runCommandStages [dfrStage] (withFramedText c b) := by
  have herr : (withFramedText c.clearStatus b).err = false := c.clearStatus_err
  rw [runCommandStages_two, h, herr, runCommandStages_one]
  rfl

/-- Settles O54: CLS gives the frames back, so that DEC ends as DFR on the frames of the text. -/
theorem decInvertsEnc : Obligations.DecInvertsEnc := by
  intro s t t' hlegal hdisc ht herr hinst hbaud hmark hspace hfs hsmpLen hsmp
  have htblock : t.block = runCommandStages [frmStage, synStage num] s.block := by
    cases (exec_enc s).symm.trans ht
    rfl
  rw [htblock] at herr
  obtain ⟨hframable, hsamp, henc⟩ := runCommandStages_enc_ok_cases hlegal herr
  rw [htblock, henc] at hinst hbaud hmark hspace hfs hsmpLen hsmp ⊢
  have hspb : t'.block.spb = s.block.spb := by
    rw [Block.spb, hbaud, hfs]
    rfl
  have hclassify : t'.block.classify num = s.block.classify num := by
    funext n x
    rw [Block.classify, hmark, hspace, hfs]
    rfl
  have hcls : clsStage num t'.block.clearStatus = withFramedText t'.block.clearStatus s.block :=
    clsStage_of_encoded hlegal hdisc hframable hsamp hinst hspb hclassify hsmpLen hsmp
  have hexec := exec_dec t'
  rw [runCommandStages_dec_of_frames hcls, runCommandStages_dfr_withFramedText hlegal hframable hinst] at hexec
  obtain ⟨hclean, herrinfo, houtLen, htext⟩ := givesBackText_decodedText hlegal hframable t'.block
  refine ⟨_, hexec, hclean, herrinfo, houtLen, htext, ?_, fun k hk => ?_⟩
  · exact BitVec.eq_of_toNat_eq ((withFramedText_bitLen hlegal hframable t'.block).trans
      (withFramedText_bitLen hlegal hframable (withStatus s.block 0x01#32 0#32)).symm)
  · exact withFramedText_bitAt t'.block (withStatus s.block 0x01#32 0#32)
      (hk.trans_eq (withFramedText_bitLen hlegal hframable (withStatus s.block 0x01#32 0#32)))

end Sys2Proof.Safety
end

section
/-! PROOFS. The control commands (spec/44_control.md R171 to R173): what NOP, CLR and RST make of the block. -/

namespace Sys2Proof.Safety

open Sys2Proof.Machine

theorem exec_nop (s : State) : exec .nop s = .next (answered s s.block) := rfl

theorem exec_clr (s : State) : exec .clr s = .next (answered s s.block.clearStatus) := rfl

theorem exec_rst (s : State) : exec .rst s = .next (answered s s.block.reset) := rfl

/-- Clearing as R170 and R172 have it touches STATUS and ERRINFO only. -/
theorem clearStatus_eq_withStatus (b : Block) : b.clearStatus = withStatus b 0#32 0#32 := rfl

/-- A reset leaves every entry of every buffer unwritten (R173). -/
theorem read?_reset (b : Block) (i : Nat) :
    Memory.read? b.reset.txtIn i = none ∧ Memory.read? b.reset.bitBuf i = none ∧ Memory.read? b.reset.smp i = none ∧
      Memory.read? b.reset.txtOut i = none :=
  ⟨Memory.read?_nil i, Memory.read?_nil i, Memory.read?_nil i, Memory.read?_nil i⟩

/-! ### The obligations -/

/-- Settles O12: NOP hands the block on as it is. -/
theorem nopChangesNothing : Obligations.NopChangesNothing := exec_nop

/-- Settles O13: CLR only clears, with no stage run and no DONE set after it. -/
theorem clrClearsStatusAndErrinfo : Obligations.ClrClearsStatusAndErrinfo := by
  intro s
  rw [exec_clr, clearStatus_eq_withStatus]

/-- Settles O14, with the block after a reset; its registers are R45's by definition. -/
theorem rstRestoresTheResetState : Obligations.RstRestoresTheResetState := fun s =>
  ⟨s.block.reset, exec_rst s, rfl, rfl, rfl, rfl, rfl, rfl, rfl, rfl, rfl, rfl, rfl, rfl, read?_reset s.block⟩

end Sys2Proof.Safety
end

section
/-! PROOFS. The errors (spec/60_exceptions.md R191, R195, R203, R205): which codes each stage and each command can leave in
ECODE, CONFIG at SPB = 0, lenient decoding without error, and the idle step. -/

namespace Sys2Proof.Safety

open Sys2Proof.Machine

/-! ### Idling (R205) -/

/-- Settles O5: the first case of `step`. -/
theorem idleStepHoldsTheState : Obligations.IdleStepHoldsTheState := by
  intro s hpending
  simp only [step, hpending]

/-! ### What is left of a command and of its first stage -/

/-- The block after an instruction whose outcome is known. -/
theorem block_of_exec {i : Instr} {s t : State} {c : Block} (hi : exec i s = .next (answered s c))
    (ht : exec i s = .next t) : t.block = c := by
  cases hi.symm.trans ht
  rfl

theorem StageOutcome.bits_strict {stage : Block → Block} (h : StageOutcome Block.storeBits stage) (b : Block) :
    (stage b).strict = b.strict := by
  obtain ⟨st, ei, bits, len, heq⟩ := h.bits_frame b
  rw [heq]
  rfl

theorem StageOutcome.bits_spb {stage : Block → Block} (h : StageOutcome Block.storeBits stage) (b : Block) :
    (stage b).spb = b.spb := by
  obtain ⟨st, ei, bits, len, heq⟩ := h.bits_frame b
  rw [heq]
  rfl

/-! ### CONFIG (R195) -/

/-- Settles O25: SYN and CLS check SPB first; DEC ends where its CLS fails, and ENC's SYN finds the SPB that FRM kept. -/
theorem zeroSpbRaisesConfig : Obligations.ZeroSpbRaisesConfig := by
  intro s hspb
  have hcls := exec_cls_fail (s := s) (clsStage_config hspb)
  refine ⟨exec_syn_fail (synStage_config hspb), hcls, ?_, fun t ht herr => ?_⟩
  · obtain ⟨t, ht, hfailed, -⟩ := decIsClsThenDfr s
    cases hcls.symm.trans ht
    exact hfailed (show (errorWord .config).getLsbD 1 = true by decide)
  · obtain ⟨t', ht', -, hsyn⟩ := encIsFrmThenSyn s
    cases ht.symm.trans ht'
    obtain ⟨u, hu, henc⟩ := hsyn herr
    have hspb' : t.block.spb = 0 := by
      rw [block_of_exec (exec_frm s) ht, runCommandStages_one, Block.setDone_spb, frmStage_outcome.bits_spb]
      exact hspb
    rw [henc, block_of_exec (exec_syn_fail (synStage_config hspb')) hu]
    rfl

/-! ### Lenient decoding (R203) -/

theorem clsStage_lenient {nm : Config.Num} {b : Block} (herr : b.err = false) (hlenient : b.strict = false) (hspb : b.spb ≠ 0)
    (hlen : b.smpLen.toNat ≤ b.inst.sampCap) (hcap : b.smpLen.toNat / b.spb ≤ b.inst.bitCap) :
    (clsStage nm b).err = false ∧ (clsStage nm b).bitLen = BitVec.ofNat 32 (b.smpLen.toNat / b.spb) := by
  rw [clsStage_success hspb hlen hcap rfl (.inl hlenient)]
  exact ⟨(clsFlags_err b _).trans herr, congrArg (BitVec.ofNat 32) (length_classifiedBits nm b)⟩

theorem dfrStage_lenient {b : Block} (herr : b.err = false) (hlenient : b.strict = false)
    (hlen : b.bitLen.toNat ≤ b.inst.bitCap) (hcap : b.bitLen.toNat / 9 ≤ b.inst.textCap) :
    (dfrStage b).err = false ∧ (dfrStage b).outLen = BitVec.ofNat 32 (b.bitLen.toNat / 9) := by
  rw [dfrStage_success hlen hcap (.inl hlenient)]
  exact ⟨(dfrFlags_err b).trans herr, congrArg (BitVec.ofNat 32) (length_decodedText b)⟩

/-- Settles O53: both stages end without error in lenient mode, and DEC's DFR finds the bit count that CLS stored. -/
theorem lenientDecodeNeverRaises : Obligations.LenientDecodeNeverRaises := by
  intro s b n len hlenient
  refine ⟨fun hspb hlen hcap => ⟨_, exec_cls s, ?_⟩, fun hlen hcap => ⟨_, exec_dfr s, ?_⟩,
    fun hspb hlen hcap htext => ⟨_, exec_dec s, ?_⟩⟩
  · rw [runCommandStages_one, Block.setDone_err, Block.setDone_bitLen]
    exact clsStage_lenient b.clearStatus_err hlenient hspb hlen hcap
  · rw [runCommandStages_one, Block.setDone_err, Block.setDone_outLen]
    exact dfrStage_lenient b.clearStatus_err hlenient hlen hcap
  · obtain ⟨herr, hbitLen⟩ := clsStage_lenient (nm := num) b.clearStatus_err hlenient hspb hlen hcap
    have hbits : (clsStage num b.clearStatus).bitLen.toNat = len / n := by
      rw [hbitLen, BitVec.toNat_ofNat]
      exact Nat.mod_eq_of_lt ((Nat.div_le_self _ _).trans_lt b.smpLen.isLt)
    have hlenient' : (clsStage num b.clearStatus).strict = false := ((clsStage_outcome num).bits_strict _).trans hlenient
    have hdfr := dfrStage_lenient herr hlenient' (by rwa [hbits, clsStage_inst]) (by rwa [hbits, clsStage_inst])
    rw [runCommandStages_two, if_neg (Bool.eq_false_iff.1 herr), Block.setDone_err, Block.setDone_outLen, ← hbits]
    exact hdfr

/-! ### ECODE under the flags -/

/-- A flag whose mask holds no bit of ECODE leaves ECODE. -/
theorem raiseFlag_ecode_of {m : Word} (hm : m.extractLsb' 4 4 = 0#4) (b : Block) (c : Bool) :
    (b.raiseFlag m c).ecode = b.ecode := by
  cases c with
  | false => rfl
  | true => simp [Block.ecode, BitVec.extractLsb'_or, hm]

theorem ecode_of_status_zero {b : Block} (h : b.status = 0#32) : b.ecode = 0#4 := by
  rw [Block.ecode, h]
  decide

theorem setDone_ecode (b : Block) : b.setDone.ecode = b.ecode :=
  raiseFlag_ecode_of (m := maskDone) (by decide) b true

theorem clsFlags_ecode (b : Block) (za : Option Nat) : (b.clsFlags za).ecode = b.ecode := by
  rw [Block.clsFlags, raiseFlag_ecode_of (by decide), raiseFlag_ecode_of (by decide)]

theorem dfrFlags_ecode (b : Block) : b.dfrFlags.ecode = b.ecode := by
  rw [Block.dfrFlags, raiseFlag_ecode_of (by decide), raiseFlag_ecode_of (by decide), raiseFlag_ecode_of (by decide)]

/-! ### The errors a stage raises (R191) -/

/-- The values of ECODE for a list of errors. -/
def codes (es : List ErrorCode) : List Nat := es.map fun e => e.ecode.toNat

theorem fail_ecode_mem_codes {es : List ErrorCode} {e : ErrorCode} (he : e ∈ es) (b : Block) (info : Nat) :
    (b.fail e info).ecode.toNat ∈ codes es := by
  have hcode : (b.fail e info).ecode.toNat = e.ecode.toNat := by
    rw [fail_ecode]
    cases e <;> rfl
  exact hcode ▸ List.mem_map_of_mem he

/-- A stage leaves ECODE as it is, or with the code of an error of `either`, or, in strict mode, of `strict` (the columns of
R191). -/
def RaisesOnly (either strict : List ErrorCode) (stage : Block → Block) : Prop :=
  ∀ b, (stage b).ecode = b.ecode ∨ (stage b).ecode.toNat ∈ codes either ∨
    (b.strict = true ∧ (stage b).ecode.toNat ∈ codes strict)

theorem frmStage_raisesOnly : RaisesOnly [.encoding, .capacity] [] frmStage := by
  intro b
  obtain ⟨-, heq⟩ | ⟨-, -, heq⟩ | ⟨-, -, bad, -, -, -, heq⟩ | ⟨-, -, -, heq⟩ := frmStage_cases b <;> rw [heq]
  · exact .inr (.inl (fail_ecode_mem_codes (by decide) _ _))
  · exact .inr (.inl (fail_ecode_mem_codes (by decide) _ _))
  · exact .inr (.inl (fail_ecode_mem_codes (by decide) _ _))
  · exact .inl rfl

theorem synStage_raisesOnly (nm : Config.Num) : RaisesOnly [.config, .capacity] [] (synStage nm) := by
  intro b
  obtain ⟨-, heq⟩ | ⟨-, -, heq⟩ | ⟨-, -, -, heq⟩ | ⟨-, -, -, heq⟩ := synStage_cases nm b <;> rw [heq]
  · exact .inr (.inl (fail_ecode_mem_codes (by decide) _ _))
  · exact .inr (.inl (fail_ecode_mem_codes (by decide) _ _))
  · exact .inr (.inl (fail_ecode_mem_codes (by decide) _ _))
  · exact .inl rfl

theorem clsStage_raisesOnly (nm : Config.Num) : RaisesOnly [.config, .capacity] [.misalign] (clsStage nm) := by
  intro b
  obtain ⟨-, heq⟩ | ⟨-, -, heq⟩ | ⟨-, -, -, heq⟩ | ⟨-, -, -, za, -, ⟨hstrict, w, -, heq⟩ | ⟨-, heq⟩⟩ :=
    clsStage_cases nm b <;> rw [heq]
  · exact .inr (.inl (fail_ecode_mem_codes (by decide) _ _))
  · exact .inr (.inl (fail_ecode_mem_codes (by decide) _ _))
  · exact .inr (.inl (fail_ecode_mem_codes (by decide) _ _))
  · exact .inr (.inr ⟨hstrict, fail_ecode_mem_codes (by decide) _ _⟩)
  · exact .inl (clsFlags_ecode b za)

theorem dfrStage_raisesOnly : RaisesOnly [.capacity] [.misalign, .framing] dfrStage := by
  intro b
  obtain ⟨-, heq⟩ | ⟨-, -, heq⟩ | ⟨-, -, ⟨hstrict, -, heq⟩ | ⟨hstrict, -, k, -, heq⟩ | ⟨-, heq⟩⟩ :=
    dfrStage_cases b <;> rw [heq]
  · exact .inr (.inl (fail_ecode_mem_codes (by decide) _ _))
  · exact .inr (.inl (fail_ecode_mem_codes (by decide) _ _))
  · exact .inr (.inr ⟨hstrict, fail_ecode_mem_codes (by decide) _ _⟩)
  · exact .inr (.inr ⟨hstrict, fail_ecode_mem_codes (by decide) _ _⟩)
  · exact .inl (dfrFlags_ecode b)

/-! ### The errors a command raises (R191) -/

section
variable {either strict either' strict' : List ErrorCode} {stage first second : Block → Block}

theorem RaisesOnly.mono (h : RaisesOnly either strict stage) (heither : either ⊆ either') (hstrict : strict ⊆ strict') :
    RaisesOnly either' strict' stage := fun b =>
  (h b).imp_right (Or.imp (fun hmem => List.map_subset _ heither hmem)
    (And.imp_right fun hmem => List.map_subset _ hstrict hmem))

/-- A command of one stage clears ECODE (R170), and so leaves 0 or an error of its stage. -/
theorem RaisesOnly.one (h : RaisesOnly either strict stage) (b : Block) :
    (runCommandStages [stage] b).ecode.toNat ∈ 0 :: codes either ∨
      (b.strict = true ∧ (runCommandStages [stage] b).ecode.toNat ∈ codes strict) := by
  rw [runCommandStages_one, setDone_ecode]
  obtain hkept | hcode | hcode := h b.clearStatus
  · exact .inl (by rw [hkept, ecode_of_status_zero b.clearStatus_status]; exact List.mem_cons_self)
  · exact .inl (List.mem_cons_of_mem 0 hcode)
  · exact .inr hcode

/-- Two stages, the first of which keeps CTRL.STRICT, raise no more than each of them does. -/
theorem RaisesOnly.comp (h1 : RaisesOnly either strict first) (h2 : RaisesOnly either strict second)
    (hmode : ∀ b, (first b).strict = b.strict) : RaisesOnly either strict (second ∘ first) := by
  intro b
  obtain hkept | hcode := h2 (first b)
  · rw [Function.comp_apply, hkept]
    exact h1 b
  · rw [hmode] at hcode
    exact .inr hcode

/-- A command of two stages is a command of the first stage or of both in a row. -/
theorem RaisesOnly.two (h1 : RaisesOnly either strict first) (h2 : RaisesOnly either strict second)
    (hmode : ∀ b, (first b).strict = b.strict) (b : Block) :
    (runCommandStages [first, second] b).ecode.toNat ∈ 0 :: codes either ∨
      (b.strict = true ∧ (runCommandStages [first, second] b).ecode.toNat ∈ codes strict) := by
  rw [runCommandStages_two, apply_ite Block.ecode]
  split
  · rw [← runCommandStages_one]
    exact h1.one b
  · have hboth := (h1.comp h2 hmode).one b
    rwa [runCommandStages_one] at hboth

/-- With no error of strict mode only, the codes are those of either mode. -/
theorem mem_of_no_strict {b : Block} {n : Nat} (h : n ∈ 0 :: codes either ∨ (b.strict = true ∧ n ∈ codes [])) :
    n ∈ 0 :: codes either :=
  h.resolve_right fun ⟨_, hmem⟩ => List.not_mem_nil hmem

end

/-- Settles O58: each command by the errors of its stages. -/
theorem eachCommandRaisesOnlyItsErrors : Obligations.EachCommandRaisesOnlyItsErrors := by
  intro s t
  refine ⟨fun ht => ?_, fun ht => ?_, fun ht => ?_, fun ht => ?_, fun ht => ?_, fun ht => ?_, fun ht => ?_⟩
  · rw [block_of_exec (exec_frm s) ht]
    exact mem_of_no_strict (frmStage_raisesOnly.one s.block)
  · rw [block_of_exec (exec_syn s) ht]
    exact mem_of_no_strict ((synStage_raisesOnly num).one s.block)
  · rw [block_of_exec (exec_enc s) ht]
    have hfrm : RaisesOnly [.encoding, .config, .capacity] [] frmStage := frmStage_raisesOnly.mono (by decide) (by decide)
    have hsyn : RaisesOnly [.encoding, .config, .capacity] [] (synStage num) :=
      (synStage_raisesOnly num).mono (by decide) (by decide)
    exact mem_of_no_strict (hfrm.two hsyn frmStage_outcome.bits_strict s.block)
  · rw [block_of_exec (exec_cls s) ht]
    exact ((clsStage_raisesOnly num).one s.block).imp_right
      (And.imp_right fun hcode => BitVec.eq_of_toNat_eq (List.mem_singleton.1 hcode))
  · rw [block_of_exec (exec_dfr s) ht]
    exact dfrStage_raisesOnly.one s.block
  · rw [block_of_exec (exec_dec s) ht]
    have hcls : RaisesOnly [.config, .capacity] [.misalign, .framing] (clsStage num) :=
      (clsStage_raisesOnly num).mono (by decide) (by decide)
    have hdfr : RaisesOnly [.config, .capacity] [.misalign, .framing] dfrStage :=
      dfrStage_raisesOnly.mono (by decide) (by decide)
    exact hcls.two hdfr (clsStage_outcome num).bits_strict s.block
  · obtain hclr | hrst := ht
    · rw [block_of_exec (exec_clr s) hclr]
      exact ecode_of_status_zero s.block.clearStatus_status
    · rw [block_of_exec (exec_rst s) hrst]
      exact ecode_of_status_zero s.block.reset_status

end Sys2Proof.Safety
end

section
/-! PROOFS. Reset (spec/70_reset_and_hazards.md R220, R222): the reset input and RST, and the commands on a block whose
length registers are 0, as a reset leaves them. -/

namespace Sys2Proof.Safety

open Sys2Proof.Machine

/-- Settles O15: both resets are `Block.reset`, which counts one more epoch; the initial block is that of epoch 0. -/
theorem hardwareResetEqualsRst : Obligations.HardwareResetEqualsRst := by
  refine ⟨fun s rest hpending => ⟨s.block.epoch + 1, ?_, exec_rst s⟩, 0, rfl⟩
  simp only [step, hpending]
  rfl

/-! ### Storing nothing and raising no flag change nothing -/

theorem writeFirst_nil {w : Nat} (m : Buffer w) : Memory.writeFirst m [] = m := by
  simp [Memory.writeFirst, Memory.entriesFrom]

section
variable {b : Block}

theorem storeBits_nil (h : b.bitLen = 0#32) : b.storeBits [] = b := by
  rw [Block.storeBits, writeFirst_nil, List.length_nil, ← h]

theorem storeSamples_nil (h : b.smpLen = 0#32) : b.storeSamples [] = b := by
  rw [Block.storeSamples, writeFirst_nil, List.length_nil, ← h]

theorem storeText_nil (h : b.outLen = 0#32) : b.storeText [] = b := by
  rw [Block.storeText, writeFirst_nil, List.length_nil, ← h]

theorem raiseFlag_false (b : Block) (m : Word) : b.raiseFlag m false = b := rfl

/-! ### A stage whose input and output are empty leaves the block as it is -/

theorem frmStage_of_empty (htxtLen : b.txtLen = 0#32) (hbitLen : b.bitLen = 0#32) : frmStage b = b := by
  have hstage := frmStage_success (b := b) (by simp [htxtLen]) (by simp [htxtLen]) (by simp [htxtLen])
  simpa [htxtLen, Block.text, storeBits_nil hbitLen] using hstage

theorem synStage_of_empty {nm : Config.Num} (hspb : b.spb ≠ 0) (hbitLen : b.bitLen = 0#32) (hsmpLen : b.smpLen = 0#32) :
    synStage nm b = b := by
  have hstage := synStage_success (nm := nm) hspb (by simp [hbitLen]) (by simp [hbitLen])
  simpa [hbitLen, Block.bits, storeSamples_nil hsmpLen] using hstage

theorem clsStage_of_empty {nm : Config.Num} (hspb : b.spb ≠ 0) (hsmpLen : b.smpLen = 0#32) (hbitLen : b.bitLen = 0#32) :
    clsStage nm b = b := by
  have hstage := clsStage_success (nm := nm) (za := none) hspb (by simp [hsmpLen]) (by simp [hsmpLen])
    (by simp [hsmpLen, Block.windows]) (.inr rfl)
  have hflags : b.clsFlags none = b := by simp [Block.clsFlags, raiseFlag_false, hsmpLen]
  simpa [hflags, hsmpLen, Block.windows, storeBits_nil hbitLen] using hstage

theorem dfrStage_of_empty (hbitLen : b.bitLen = 0#32) (houtLen : b.outLen = 0#32) : dfrStage b = b := by
  have hstart : b.firstBadStart 0 = none := rfl
  have hstop : b.firstBadStop 0 = none := rfl
  have hstage := dfrStage_success (b := b) (by simp [hbitLen]) (by simp [hbitLen])
    (.inr (by simp [hbitLen, hstart, hstop, firstFramingFault]))
  have hflags : b.dfrFlags = b := by simp [Block.dfrFlags, raiseFlag_false, hbitLen, hstart, hstop]
  simpa [hflags, hbitLen, Block.groups, storeText_nil houtLen] using hstage

/-- A command whose two stages leave the cleared block as it is only sets DONE (R170). -/
theorem runCommandStages_two_of_fixed {first second : Block → Block} (hfirst : first b.clearStatus = b.clearStatus)
    (hsecond : second b.clearStatus = b.clearStatus) :
    runCommandStages [first, second] b = withStatus b 0x01#32 0#32 := by
  have hdone : 0#32 ||| maskDone = 0x01#32 := by decide
  rw [runCommandStages_two, hfirst, b.clearStatus_err, if_neg (by decide), hsecond, ← hdone]
  rfl

end

/-! ### The commands after a reset (R222) -/

theorem afterReset_spb (inst : Config.Instance) (e : Nat) : (Block.afterReset inst e).spb = 970 := by
  show samplesPerBit 4410000 4545 = 970
  decide

/-- Settles O55: with SPB = 970 and all lengths 0, no stage of ENC or DEC changes the block. -/
theorem commandsAfterResetGiveEmptyResults : Obligations.CommandsAfterResetGiveEmptyResults := by
  intro s inst e hreset
  have hspb : s.block.spb ≠ 0 := by rw [hreset, afterReset_spb]; decide
  have htxtLen : s.block.txtLen = 0#32 := congrArg Block.txtLen hreset
  have hbitLen : s.block.bitLen = 0#32 := congrArg Block.bitLen hreset
  have hsmpLen : s.block.smpLen = 0#32 := congrArg Block.smpLen hreset
  have houtLen : s.block.outLen = 0#32 := congrArg Block.outLen hreset
  have herrinfo : s.block.errinfo = 0#32 := congrArg Block.errinfo hreset
  refine ⟨?_, ?_, hsmpLen, houtLen, hbitLen⟩
  · rw [exec_enc, runCommandStages_two_of_fixed (frmStage_of_empty htxtLen hbitLen) (synStage_of_empty hspb hbitLen hsmpLen),
      ← herrinfo]
  · rw [exec_dec, runCommandStages_two_of_fixed (clsStage_of_empty hspb hsmpLen hbitLen) (dfrStage_of_empty hbitLen houtLen),
      ← herrinfo]

end Sys2Proof.Safety
end
